-- ==== Sys2Proof/Word.lean ====
section
/-! DEFINITION. The two word widths of the block (00_scope.md R10, 20_memory.md R96). -/

namespace Sys2Proof

/-- A 32-bit register of the window, or a command word (R96, R110). -/
abbrev Word := BitVec 32

/-- A 16-bit word of the serial bus (R10). -/
abbrev Half := BitVec 16

end Sys2Proof
end

