-- ==== Sys2Proof/Syntax.lean ====
section
/-! DEFINITION. The seven commands of 30_encoding.md R112, one constructor per row of the opcode table. -/

namespace Sys2Proof

/-- The defined values of the OP field (R112). -/
inductive Op where
  | nop | init | select | xfer | sendrecv | trig | deinit
  deriving DecidableEq, Repr

/-- A command with its operands as R122 writes them: `s` a slave number, `d` the DATA bit (the `.D`
suffix), `n` the number of words to receive. `Instr.wellFormed` states the operands' ranges. -/
inductive Instr where
  | nop
  | init
  | select (s : Nat)
  | xfer (d : Bool) (n : Nat)
  | sendrecv (s : Nat) (d : Bool) (n : Nat)
  | trig
  | deinit
  deriving DecidableEq, Repr

end Sys2Proof
end

