-- ==== Sys2Proof/WellFormed.lean ====
section
/-! DEFINITION. The operand ranges of 30_encoding.md R122: outside them `assemble`
(Decode.lean) writes no word. -/

namespace Sys2Proof

/-- R122: `0 <= s <= 15` and `0 <= n <= 65535`. -/
def Instr.wellFormed : Instr → Bool
  | .nop | .init | .trig | .deinit => true
  | .select s => decide (s ≤ 15)
  | .xfer _ n => decide (n ≤ 65535)
  | .sendrecv s _ n => decide (s ≤ 15) && decide (n ≤ 65535)

end Sys2Proof
end

