-- ==== Sys2Proof/Decode.lean ====
section
/-! DEFINITION. The command word of 30_encoding.md: its fields, the decoder R117, the encoder and the
assembler R122. -/

namespace Sys2Proof

/-- Why a word is ILLEGAL (R117): a reserved OP (R118), or a nonzero must-be-zero bit (R119). -/
inductive Illegal where
  | reservedOp
  | mustBeZero
  deriving DecidableEq, Repr

/-- The decoder's answer (R117): a command, or ILLEGAL. -/
inductive Decoded where
  | legal (i : Instr)
  | illegal (why : Illegal)
  deriving DecidableEq, Repr

/-- The number of each opcode (R112). -/
def Op.code : Op → BitVec 4
  | .nop => 0x0
  | .init => 0x1
  | .select => 0x2
  | .xfer => 0x3
  | .sendrecv => 0x4
  | .trig => 0x5
  | .deinit => 0x6

/-- The opcode with number `b`; 0x7 to 0xF are reserved (R112). -/
def Op.ofCode (b : BitVec 4) : Option Op :=
  if b = 0x0 then some .nop
  else if b = 0x1 then some .init
  else if b = 0x2 then some .select
  else if b = 0x3 then some .xfer
  else if b = 0x4 then some .sendrecv
  else if b = 0x5 then some .trig
  else if b = 0x6 then some .deinit
  else none

/-- The must-be-zero mask of each opcode, the column MBZ(op) of R113. -/
def Op.mbz : Op → Word
  | .nop | .init | .trig | .deinit => 0xFFFFFFF0
  | .select => 0xFFFFFF00
  | .xfer => 0x0000FEF0
  | .sendrecv => 0x0000FE00

/-- OP, bits 3:0 (R111). -/
def opField (c : Word) : BitVec 4 := c.extractLsb' 0 4

/-- SLAVE, bits 7:4, zero-extended (R111, R114). -/
def slaveField (c : Word) : Nat := (c.extractLsb' 4 4).toNat

/-- DATA, bit 8 (R111, R115). -/
def dataField (c : Word) : Bool := c.getLsbD 8

/-- RXLEN, bits 31:16, zero-extended (R111, R116). -/
def rxlenField (c : Word) : Nat := (c.extractLsb' 16 16).toNat

/-- The command with opcode `op` and the operands of word `c` that `op` uses (R112). -/
def Op.withFields (op : Op) (c : Word) : Instr :=
  match op with
  | .nop => .nop
  | .init => .init
  | .select => .select (slaveField c)
  | .xfer => .xfer (dataField c) (rxlenField c)
  | .sendrecv => .sendrecv (slaveField c) (dataField c) (rxlenField c)
  | .trig => .trig
  | .deinit => .deinit

/-- Decode (R117), total on every 32-bit word. -/
def decode (c : Word) : Decoded :=
  match Op.ofCode (opField c) with
  | none => .illegal .reservedOp
  | some op => if c &&& op.mbz ≠ 0 then .illegal .mustBeZero else .legal (op.withFields c)

/-- The layout of R111, most significant field first. -/
def commandWord (op : Op) (s : Nat) (d : Bool) (n : Nat) : Word :=
  BitVec.ofNat 16 n ++ 0#7 ++ BitVec.ofBool d ++ BitVec.ofNat 4 s ++ op.code

/-- The encoding of a command, the column of R122. An operand out of its range has no encoding:
`assemble` writes no word for it. -/
def encode : Instr → Word
  | .nop => commandWord .nop 0 false 0
  | .init => commandWord .init 0 false 0
  | .select s => commandWord .select s false 0
  | .xfer d n => commandWord .xfer 0 d n
  | .sendrecv s d n => commandWord .sendrecv s d n
  | .trig => commandWord .trig 0 false 0
  | .deinit => commandWord .deinit 0 false 0

/-- The word the assembler writes for a command: its encoding, and no word where an operand is out of its
range (R122). -/
def assemble (i : Instr) : Option Word := if i.wellFormed then some (encode i) else none

/-- The opcode of a command. -/
def Instr.op : Instr → Op
  | .nop => .nop
  | .init => .init
  | .select _ => .select
  | .xfer _ _ => .xfer
  | .sendrecv _ _ _ => .sendrecv
  | .trig => .trig
  | .deinit => .deinit

/-- The low `nbits` bits of `w` as a command word; the bits above are 0 (every command is one
32-bit word, R110). -/
def tableWord (nbits w : Nat) : Word := BitVec.ofNat 32 (w % 2 ^ nbits)

/-- What the decoder reads from the word `w` of an opcode-table row. -/
def decodeTableWord (nbits w : Nat) : Option Instr :=
  match decode (tableWord nbits w) with
  | .legal i => some i
  | .illegal _ => none

end Sys2Proof
end

