-- ==== Sys2Proof/Machine/Turn.lean ====
section
/-! DEFINITION. What reaches the block from outside in one step: the agent that moves (60_exceptions.md
R306), the host's access (20_memory.md R96) and the input values (00_scope.md R12). -/

namespace Sys2Proof.Machine

/-- The width of a host access; only `word` has a meaning (R96). -/
inductive Width where
  | byte | half | word
  deriving DecidableEq, Repr, Inhabited

/-- Where a host access goes: an offset of the window, as `HostRead(off)` names it (R15), or a bus
address, which the block sees at `addr - BASE` (R81). -/
inductive Target where
  | offset (off : Nat)
  | address (addr : Nat)
  deriving DecidableEq, Repr, Inhabited

/-- A read, or a write of a value (R15). -/
inductive Direction where
  | read
  | write (v : Word)
  deriving DecidableEq, Repr, Inhabited

/-- One host access (R96). -/
structure HostAccess where
  target : Target
  width : Width
  kind : Direction
  deriving DecidableEq, Repr, Inhabited

/-- The agents of R306, and the reset input of R320. -/
inductive Agent where
  | host (a : HostAccess)
  | controller
  | counter
  | environment
  | reset
  deriving DecidableEq, Repr, Inhabited

/-- The values the environment chooses for one step (R12, R16): CLKF, DIN, START_OK, and the draw of
CYCCNT that a successful INIT takes (R192, R19). Each has one value for the whole step. -/
structure Inputs where
  clkf : Word
  din : Bool
  startOk : Bool
  cycDraw : Word
  deriving DecidableEq, Repr, Inhabited

/-- One turn: which agent moves and what the environment chooses for it. -/
structure Turn where
  agent : Agent
  inp : Inputs
  deriving DecidableEq, Repr, Inhabited

end Sys2Proof.Machine
end

