-- ==== Sys2Proof/Config.lean ====
section
/-! DEFINITION. The implementation parameters of 00_scope.md R11, and the values the spec leaves free,
as constants with no body. -/

namespace Sys2Proof

/-- Whether the receive pin is the transmit pin (R11, R54). -/
inductive Wiring where
  | threeWire
  | fourWire
  deriving DecidableEq, Repr

/-- The parameters of R11. BASE is `window * WSPAN` (R81: BASE is a multiple of WSPAN). -/
structure Params where
  numSlaves : Nat
  rxDepth : Nat
  cpol : Bool
  cpha : Bool
  lsbFirst : Bool
  wiring : Wiring
  window : Nat
  timeoutMsReset : Word
  deriving DecidableEq, Repr

/-- R11: which of its windows the platform gives the block; BASE has no default. DESIGN CHOICE (log 5),
safe: a constant with no body. -/
opaque Config.windowIndex : Nat

/-- R11's defaults. DESIGN CHOICE (log 5): State.reset takes these; every statement about all states
holds for every parameter value. -/
def Params.default : Params where
  numSlaves := 4
  rxDepth := 64
  cpol := false
  cpha := true
  lsbFirst := false
  wiring := .threeWire
  window := Config.windowIndex
  timeoutMsReset := 100

/-- R11's ranges. -/
def Params.wf (p : Params) : Bool :=
  decide (1 ≤ p.numSlaves) && decide (p.numSlaves ≤ 4)
    && decide (1 ≤ p.rxDepth) && decide (p.rxDepth ≤ 65535)

/-- The turn taken when the agenda is empty (R306: any enabled agent; R12: any inputs), numbered by
`draws`. DESIGN CHOICE (log 1), safe. -/
opaque Config.freeTurn : Nat → Machine.Turn

/-- The input levels before the first step. DESIGN CHOICE (log 3), safe. -/
opaque Config.freeInputs : Machine.Inputs

/-- RXBUF[j] as the k-th draw leaves it at reset (R59: unspecified). DESIGN CHOICE (log 4), safe. -/
opaque Config.resetRxword : Nat → Nat → Half

/-- CYCCNT at reset (R59: unspecified). DESIGN CHOICE (log 4), safe. -/
opaque Config.resetCyccnt : Nat → Word

/-- WSTART at reset (R59: unspecified). DESIGN CHOICE (log 4), safe. -/
opaque Config.resetWstart : Nat → Word

/-- PSTART at reset (R59: unspecified). DESIGN CHOICE (log 4), safe. -/
opaque Config.resetPstart : Nat → Word

/-- SHR at reset (R59: unspecified). DESIGN CHOICE (log 4), safe. -/
opaque Config.resetShr : Nat → Half

/-- DOUT at reset (R59: unspecified). DESIGN CHOICE (log 4), safe. -/
opaque Config.resetDout : Nat → Bool

/-- What the platform answers to a read outside the window (R81). DESIGN CHOICE (log 8), safe. -/
opaque Config.platformData : Nat → Word

end Sys2Proof
end

