-- ==== Sys2Proof/Machine/State.lean ====
section
/-! DEFINITION. The state of 10_state.md, its reset value R59, and the reasons a step can stop. -/

namespace Sys2Proof.Machine

/-- The sequencer phases of R44; codes 14 and 15 are never taken. -/
inductive Phase where
  | off | idle
  | xStart | xTx | xGrace | xDirsw | xRx | xRelease | xRestore
  | tStart | tAssert | tHold | tRelease | tEnd
  deriving DecidableEq, Repr

/-- The result codes of R280; codes 7 to 15 are never written. -/
inductive ErrCode where
  | ok
  | peripheralTimeout
  | invalidSlaveSelection
  | initializationFailure
  | notInitialized
  | illegalCommand
  | invalidLength
  deriving DecidableEq, Repr

/-- The next SCK edge of the current bit (R48). -/
inductive Edge where
  | lead
  | trail
  deriving DecidableEq, Repr

/-- The block has no fault state of its own (R309), so no step faults and there is no constructor:
every error of R280 is a result code in the next state. Safe. -/
inductive Fault
  deriving DecidableEq, Repr

/-- Why a step has no meaning. -/
inductive Refusal where
  /-- Raised by an arm of `exec` whose instruction has no meaning yet. No arm raises it. Safe. -/
  | notModelled (mnemonic : String)
  /-- Raised by the host step on an access of 8 or 16 bits inside the window: R96 refuses it. Safe. -/
  | accessWidth
  /-- Raised by the host step on a 32-bit access at an offset that is no multiple of 4: R96 refuses it.
  Safe. -/
  | accessAlignment
  /-- Raised by X_START and T_ASSERT when a chip-select line other than that of SEL is active
  (93_implementation_defined.md U1: refuse, and unreachable by R327). Safe. -/
  | secondChipSelect
  deriving DecidableEq, Repr

/-- The state: the parameters, the five groups of R30, and the model's own fields. -/
structure State where
  /-- The parameters of R11; no step writes them. -/
  par : Params
  /-- INIT (R31). -/
  init : Bool
  /-- SELV (R32). -/
  selv : Bool
  /-- SEL (R32). -/
  sel : BitVec 2
  /-- DIR (R33): false transmit, true receive. -/
  dir : Bool
  /-- ERR (R34). -/
  err : ErrCode
  /-- CAV (R35). -/
  cav : Bool
  /-- PHASE (R44). -/
  phase : Phase
  /-- LASTCMD (R37). -/
  lastcmd : Word
  /-- TIMEOUT in milliseconds (R42). -/
  timeout : Word
  /-- GRACE in cycles (R41). -/
  grace : Word
  /-- RXCNT (R40). -/
  rxcnt : Half
  /-- TXD0 (R36). -/
  txd0 : Half
  /-- TXD1 (R36). -/
  txd1 : Half
  /-- RXBUF[0..RX_DEPTH-1] (R39), entry 0 first. -/
  rxbuf : List Half
  /-- CYCCNT (R43). -/
  cyccnt : Word
  /-- CNT_EN (R43). -/
  cntEn : Bool
  /-- RXLEN as latched (R38). -/
  rxlen : Half
  /-- LDATA as latched (R38). -/
  ldata : Bool
  /-- WSTART (R47). -/
  wstart : Word
  /-- PSTART (R47). -/
  pstart : Word
  /-- PLIMIT (R47). -/
  plimit : Word
  /-- SHR (R48). -/
  shr : Half
  /-- BIT, 0..15 (R48). -/
  bit : BitVec 4
  /-- EDGE (R48). -/
  edge : Edge
  /-- WIDX (R48). -/
  widx : Half
  /-- PERR (R49). -/
  perr : ErrCode
  /-- OVR (R50). -/
  ovr : Bool
  /-- CSN[3:0] (R51), 1 = deasserted; read a bit through `csLevel`. -/
  csn : BitVec 4
  /-- CS_DRV (R51). -/
  csDrv : Bool
  /-- SCK (R52). -/
  sck : Bool
  /-- SCK_DRV (R52). -/
  sckDrv : Bool
  /-- DOUT (R53). -/
  dout : Bool
  /-- DOE (R53). -/
  doe : Bool
  /-- Model's own: the inputs of the step being taken (R12, log 3). -/
  inp : Inputs
  /-- Model's own: the turns to come, the next one first (R101, R306, log 1). -/
  agenda : List Turn
  /-- Model's own: how many free values have been taken (log 4). -/
  draws : Nat
  /-- Model's own: what the host's last read returned, none before its first read (log 7). -/
  rdata : Option Word
  deriving DecidableEq, Repr

/-- The reset values of R59 for parameters `p`, with the `k`-th draw of the unspecified elements. -/
def State.atReset (p : Params) (k : Nat) (inp : Inputs) (agenda : List Turn)
    (rdata : Option Word) : State where
  par := p
  init := false
  selv := false
  sel := 0
  dir := false
  err := .ok
  cav := false
  phase := .off
  lastcmd := 0
  timeout := p.timeoutMsReset
  grace := 0
  rxcnt := 0
  txd0 := 0
  txd1 := 0
  rxbuf := (List.range p.rxDepth).map (Config.resetRxword k)
  cyccnt := Config.resetCyccnt k
  cntEn := false
  rxlen := 0
  ldata := false
  wstart := Config.resetWstart k
  pstart := Config.resetPstart k
  plimit := 0
  shr := Config.resetShr k
  bit := 0
  edge := .lead
  widx := 0
  perr := .ok
  ovr := false
  csn := 0b1111
  csDrv := false
  sck := p.cpol
  sckDrv := false
  dout := Config.resetDout k
  doe := false
  inp := inp
  agenda := agenda
  draws := k + 1
  rdata := rdata

/-- The machine right after reset (R59, R320), at R11's default parameters and with no turn placed. -/
def State.reset : State := State.atReset Params.default 0 Config.freeInputs [] none

end Sys2Proof.Machine
end

