-- ==== Sys2Proof/Machine/Ops.lean ====
section
/-! DEFINITION. The named reads and updates of the state: register updates, the chip-select
multiplexer and the direction switch of 40_engines.md, the abort path and the accept checks of
60_exceptions.md, reset and the taking of a turn. -/

namespace Sys2Proof.Machine

/-! ## Register updates -/

/-- ERR <- e. -/
def State.setErr (s : State) (e : ErrCode) : State := { s with err := e }

/-- PHASE <- p. -/
def State.setPhase (s : State) (p : Phase) : State := { s with phase := p }

/-- CAV <- b. -/
def State.setCav (s : State) (b : Bool) : State := { s with cav := b }

/-- LASTCMD <- w. -/
def State.setLastcmd (s : State) (w : Word) : State := { s with lastcmd := w }

/-- SEL <- k; SELV <- 1 (R32). -/
def State.bindSel (s : State) (k : BitVec 2) : State := { s with sel := k, selv := true }

/-- SELV <- 0; SEL keeps its value (R32). -/
def State.unbindSel (s : State) : State := { s with selv := false }

/-- The host's last read returned `w` (log 7). -/
def State.setRdata (s : State) (w : Word) : State := { s with rdata := some w }

/-- One more free value has been taken (log 4). -/
def State.takeDraw (s : State) : State := { s with draws := s.draws + 1 }

/-! ## Taking a turn -/

/-- The next turn: the first of the agenda, or a free one when the agenda is empty (R306, log 1). -/
def State.nextTurn (s : State) : Turn :=
  match s.agenda with
  | t :: _ => t
  | [] => Config.freeTurn s.draws

/-- The state in which the next turn's agent moves: the turn leaves the agenda, and its inputs hold for
the whole step (R16, log 3). -/
def State.takeTurn (s : State) : State :=
  match s.agenda with
  | t :: rest => { s with agenda := rest, inp := t.inp }
  | [] => { s with inp := (Config.freeTurn s.draws).inp, draws := s.draws + 1 }

/-- Reset (R320): every state element at its value of R59, the unspecified ones drawn anew. The
parameters, and the model's own fields, are no state elements of R59 (log 22). -/
def State.resetNow (s : State) : State :=
  State.atReset s.par s.draws s.inp s.agenda s.rdata

/-! ## BUSY -/

/-- BUSY (R45). -/
def State.busy (s : State) : Bool := !(s.phase == .off || s.phase == .idle)

/-! ## Chip-select multiplexer -/

/-- `v` with bit `k` set to `b`. -/
def writeBit (v : BitVec 4) (k : Nat) (b : Bool) : BitVec 4 :=
  if b then v ||| BitVec.twoPow 4 k else v &&& ~~~(BitVec.twoPow 4 k)

/-- CSN[k], 1 = deasserted; hardwired to 1 for `k >= NUM_SLAVES` (R51, log 11). -/
def State.csLevel (s : State) (k : Nat) : Bool :=
  if k < s.par.numSlaves then s.csn.getLsbD k else true

/-- CSN[k] <- b; a hardwired bit discards the write (R51, log 11). -/
def State.setCsn (s : State) (k : Nat) (b : Bool) : State :=
  { s with csn := if k < s.par.numSlaves then writeBit s.csn k b else s.csn }

/-- Some line other than that of SEL is asserted (93_implementation_defined.md U1). -/
def State.otherSelected (s : State) : Bool :=
  (List.range 4).any fun k => k != s.sel.toNat && !s.csLevel k

/-- CsAssert (R150); it refuses to assert a second line (U1, log 10). -/
def State.csAssert (s : State) : Host.Outcome State Fault Refusal :=
  if s.otherSelected then .refused .secondChipSelect else .next (s.setCsn s.sel.toNat false)

/-- CsDeassert (R151). -/
def State.csDeassert (s : State) : State := s.setCsn s.sel.toNat true

/-! ## Direction switch -/

/-- DirToRx (R167). -/
def State.dirToRx (s : State) : State := { s with doe := false, dir := true }

/-- DirToTx (R168). -/
def State.dirToTx (s : State) : State := { s with dir := false, doe := true }

/-! ## Abort path -/

/-- AbortXfer (R291), the block's one way into error handling; X_RELEASE and X_RESTORE end it. -/
def State.abortXfer (s : State) (e : ErrCode) : State :=
  { s with
    perr := e
    rxcnt := 0
    sck := s.par.cpol
    edge := .lead
    bit := 0
    phase := .xRelease }

/-! ## Accept -/

/-- The checks of Accept (R289) around a decoded command with word `w`: BUSY drops the command and
sets CAV (R288); otherwise LASTCMD is written, and a command that needs INIT = 1 gives NotInitialized
without it (R285); otherwise `body` runs. -/
def State.accept (s : State) (w : Word) (needsInit : Bool) (body : State → State) : State :=
  if s.busy then s.setCav true
  else if needsInit && !s.init then (s.setLastcmd w).setErr .notInitialized
  else body (s.setLastcmd w)

/-- Accept of an illegal word (R286, R289). -/
def State.acceptIllegal (s : State) (w : Word) : State :=
  if s.busy then s.setCav true else (s.setLastcmd w).setErr .illegalCommand

/-! ## Sequencing -/

/-- Go on with `f` after a step part that answered a next state. -/
def andThen (o : Host.Outcome State Fault Refusal) (f : State → State) :
    Host.Outcome State Fault Refusal :=
  match o with
  | .next s => .next (f s)
  | .fault r => .fault r
  | .refused r => .refused r

end Sys2Proof.Machine
end

