-- ==== Sys2Proof/Machine/Operands.lean ====
section
/-! DEFINITION. The operands of a command (30_encoding.md R114-R116) and the registers that a host
access names by its offset (20_memory.md R81, R82). -/

namespace Sys2Proof.Machine

/-! ## Command operands -/

/-- A SLAVE operand is valid when `s < NUM_SLAVES` (R114, R283). -/
def State.slaveValid (s : State) (k : Nat) : Bool := decide (k < s.par.numSlaves)

/-- An RXLEN operand is valid when `n <= RX_DEPTH` (R116, R287). -/
def State.lengthValid (s : State) (n : Nat) : Bool := decide (n ≤ s.par.rxDepth)

/-- s[1:0] of a SLAVE operand (R195). -/
def slaveSel (k : Nat) : BitVec 2 := BitVec.ofNat 2 k

/-- NTXW = 1 + LDATA (R38, R115). -/
def State.ntxw (s : State) : Nat := 1 + s.ldata.toNat

/-! ## The register window -/

/-- The first power of two from `p` on, by doubling at most `fuel` times, that is at least `t`. -/
def pow2From : (fuel p t : Nat) → Nat
  | 0, p, _ => p
  | fuel + 1, p, t => if t ≤ p then p else pow2From fuel (2 * p) t

/-- WSPAN, the least power of two that is at least 0x100 + 4 * RX_DEPTH (R81). -/
def wspan (p : Params) : Nat := pow2From (0x100 + 4 * p.rxDepth) 1 (0x100 + 4 * p.rxDepth)

/-- BASE, a multiple of WSPAN (R81). -/
def base (p : Params) : Nat := p.window * wspan p

/-- The offset at which an access reaches the block; none outside the window (R81). -/
def offsetOf (p : Params) : Target → Option Nat
  | .offset off => if off < wspan p then some off else none
  | .address a => if base p ≤ a ∧ a - base p < wspan p then some (a - base p) else none

/-- The registers of the window (R82). -/
inductive Reg where
  | cmd | status | txdata0 | txdata1 | rxcnt | grace | timeout | cyccnt | clkfreq | param
  | rxbuf (j : Nat)
  | reserved
  deriving DecidableEq, Repr

/-- The register at offset `off` (R82). -/
def regAt (p : Params) (off : Nat) : Reg :=
  if off = 0x000 then .cmd
  else if off = 0x004 then .status
  else if off = 0x008 then .txdata0
  else if off = 0x00C then .txdata1
  else if off = 0x010 then .rxcnt
  else if off = 0x014 then .grace
  else if off = 0x018 then .timeout
  else if off = 0x01C then .cyccnt
  else if off = 0x020 then .clkfreq
  else if off = 0x024 then .param
  else if off < 0x100 then .reserved
  else if off < 0x100 + 4 * p.rxDepth then .rxbuf ((off - 0x100) / 4)
  else .reserved

/-- RXBUF[j] (R39, R94). An index past the list, which no state of a legal length has, reads as a free
value (log 12). -/
def State.rxWord (s : State) (j : Nat) : Half := s.rxbuf.getD j (Config.resetRxword 0 j)

/-- RXBUF[j] <- w (R39). -/
def State.setRxWord (s : State) (j : Nat) (w : Half) : State := { s with rxbuf := s.rxbuf.set j w }

end Sys2Proof.Machine
end

