-- ==== Sys2Proof/Machine/Setup.lean ====
section
/-! DEFINITION. The setup commands NOP, INIT, SELECT and DEINIT (41_setup_commands.md). Each completes
inside its accept step. -/

namespace Sys2Proof.Machine

/-- ExecNOP (R191). -/
def State.nopBody (s : State) : State := s.setErr .ok

/-- ExecINIT's CS part, whatever START_OK is (R192, R194). -/
def State.initCs (s : State) : State := { s with csDrv := true, csn := 0b1111 }

/-- ExecINIT's success branch (R192); CYCCNT takes the step's draw (log 3). -/
def State.initOk (s : State) : State :=
  { s with
    cntEn := true
    cyccnt := s.inp.cycDraw
    sck := s.par.cpol
    sckDrv := true
    ovr := false
    dir := false
    doe := true
    init := true
    phase := .idle
    err := .ok }

/-- ExecINIT's failure branch (R192, R284). -/
def State.initFail (s : State) : State :=
  { s with
    cntEn := false
    sckDrv := false
    dir := false
    doe := false
    ovr := false
    init := false
    selv := false
    phase := .off
    err := .initializationFailure }

/-- ExecINIT (R192). -/
def State.initBody (s : State) : State :=
  let s1 := s.initCs
  if s1.inp.startOk then s1.initOk else s1.initFail

/-- ExecSELECT (R195). -/
def State.selectBody (k : Nat) (s : State) : State :=
  if s.slaveValid k then (s.bindSel (slaveSel k)).setErr .ok
  else s.unbindSel.setErr .invalidSlaveSelection

/-- ExecDEINIT (R198). -/
def State.deinitBody (s : State) : State :=
  { s with
    init := false
    selv := false
    cntEn := false
    dir := false
    doe := false
    sckDrv := false
    ovr := false
    phase := .off
    err := .ok }

/-- NOP (R191); it needs no INIT (R289). -/
def execNop (s : State) : Host.Outcome State Fault Refusal :=
  .next (s.accept (encode .nop) false State.nopBody)

/-- INIT (R192); it needs no INIT (R289). -/
def execInit (s : State) : Host.Outcome State Fault Refusal :=
  .next (s.accept (encode .init) false State.initBody)

/-- SELECT (R195). -/
def execSelect (k : Nat) (s : State) : Host.Outcome State Fault Refusal :=
  .next (s.accept (encode (.select k)) true (State.selectBody k))

/-- DEINIT (R198). -/
def execDeinit (s : State) : Host.Outcome State Fault Refusal :=
  .next (s.accept (encode .deinit) true State.deinitBody)

end Sys2Proof.Machine
end

