-- ==== Sys2Proof/Machine/Delay.lean ====
section
/-! DEFINITION. The timing delay engine and the watchdog (40_engines.md R140-R148). -/

namespace Sys2Proof.Machine

/-- ceil_div of R14, for `b > 0`: the quotient, one more when there is a remainder. The law
`ceilDiv_eq_formula` shows it equal to R14's `(a + b - 1) div b`. -/
def ceilDiv (a b : Nat) : Nat := a / b + if a % b = 0 then 0 else 1

/-- The counter tick (R140); with CNT_EN = 0 the counter clock has no step (log 2). -/
def State.tick (s : State) : State := if s.cntEn then { s with cyccnt := s.cyccnt + 1 } else s

/-- GraceCycles (R141). -/
def graceCycles (f : Nat) : Nat := ceilDiv (5 * f) 1000000

/-- Elapsed(b) (R143). -/
def State.elapsed (s : State) (b : Word) : Nat := (s.cyccnt - b).toNat

/-- GraceBegin (R142). -/
def State.graceBegin (s : State) : State :=
  { s with grace := BitVec.ofNat 32 (graceCycles s.inp.clkf.toNat), wstart := s.cyccnt }

/-- GraceDone (R144). -/
def State.graceDone (s : State) : Bool := decide (s.grace.toNat ≤ s.elapsed s.wstart)

/-- WatchdogCycles (R146). -/
def watchdogCycles (ms f : Nat) : Nat := min (ceilDiv (ms * f) 1000) (2 ^ 32 - 1)

/-- ArmWatchdog (R147). -/
def State.armWatchdog (s : State) : State :=
  { s with
    pstart := s.cyccnt
    plimit := BitVec.ofNat 32 (watchdogCycles s.timeout.toNat s.inp.clkf.toNat) }

/-- Expired (R148). -/
def State.expired (s : State) : Bool := decide (s.plimit.toNat ≤ s.elapsed s.pstart)

end Sys2Proof.Machine
end

