-- ==== Sys2Proof/Machine/Shift.lean ====
section
/-! DEFINITION. The bit-serial shift engine (40_engines.md R155-R160). -/

namespace Sys2Proof.Machine

/-- OutBit (R155), for `i <= 15`. -/
def outBit (lsbFirst : Bool) (w : Half) (i : Nat) : Bool :=
  if lsbFirst then w.getLsbD i else w.getLsbD (15 - i)

/-- ShiftIn (R156). -/
def shiftIn (lsbFirst : Bool) (r : Half) (b : Bool) : Half :=
  if lsbFirst then BitVec.ofBool b ++ r.extractLsb' 1 15 else r.extractLsb' 0 15 ++ BitVec.ofBool b

/-- DOUT <- OutBit(SHR, i). -/
def State.putBit (s : State) (i : Nat) : State := { s with dout := outBit s.par.lsbFirst s.shr i }

/-- LoadTx(j) (R158). -/
def State.loadTx (s : State) (j : Nat) : State :=
  let s1 := { s with shr := if j = 0 then s.txd0 else s.txd1, bit := 0, edge := .lead }
  if s.par.cpha then s1 else s1.putBit 0

/-- TxEdge (R159). -/
def State.txEdge (s : State) : State :=
  match s.edge with
  | .lead =>
    let s1 := { s with sck := !s.par.cpol }
    let s2 := if s.par.cpha then s1.putBit s.bit.toNat else s1
    { s2 with edge := .trail }
  | .trail =>
    let s1 := { s with sck := s.par.cpol, edge := .lead }
    if s.bit = 15 then
      let s2 := { s1 with widx := s.widx + 1, bit := 0 }
      if s2.widx.toNat < s.ntxw then s2.loadTx s2.widx.toNat else s2
    else
      let s2 := { s1 with bit := s.bit + 1 }
      if s.par.cpha then s2 else s2.putBit s2.bit.toNat

/-- SHR <- ShiftIn(SHR, DIN), with the input DIN of this step (R160, R176). -/
def State.sampleDin (s : State) : State :=
  { s with shr := shiftIn s.par.lsbFirst s.shr s.inp.din }

/-- RxEdge (R160). -/
def State.rxEdge (s : State) : State :=
  match s.edge with
  | .lead =>
    let s1 := { s with sck := !s.par.cpol }
    let s2 := if s.par.cpha then s1 else s1.sampleDin
    { s2 with edge := .trail }
  | .trail =>
    let s1 := { s with sck := s.par.cpol }
    let s2 := if s.par.cpha then s1.sampleDin else s1
    let s3 := { s2 with edge := .lead }
    if s.bit = 15 then
      let s4 := s3.setRxWord s.widx.toNat s3.shr
      { s4 with widx := s.widx + 1, bit := 0 }
    else { s3 with bit := s.bit + 1 }

end Sys2Proof.Machine
end

