-- ==== Sys2Proof/Machine/Transaction.lean ====
section
/-! DEFINITION. The transaction commands XFER and SENDRECV and their seven phases
(42_transaction_commands.md). -/

namespace Sys2Proof.Machine

/-! ## The commands -/

/-- StartXfer (R220). -/
def State.startXfer (s : State) (d : Bool) (n : Nat) : State :=
  { s with
    ldata := d
    rxlen := BitVec.ofNat 16 n
    rxcnt := 0
    perr := .ok
    err := .ok
    phase := .xStart }

/-- The length check, then the start (R220, R221, R287). -/
def State.checkedStart (s : State) (d : Bool) (n : Nat) : State :=
  if s.lengthValid n then s.startXfer d n else s.setErr .invalidLength

/-- ExecXFER (R220). -/
def State.xferBody (d : Bool) (n : Nat) (s : State) : State :=
  if s.selv then s.checkedStart d n else s.setErr .invalidSlaveSelection

/-- ExecSENDRECV (R221). -/
def State.sendrecvBody (k : Nat) (d : Bool) (n : Nat) (s : State) : State :=
  if s.slaveValid k then (s.bindSel (slaveSel k)).checkedStart d n
  else s.unbindSel.setErr .invalidSlaveSelection

/-- XFER and XFER.D (R220). -/
def execXfer (d : Bool) (n : Nat) (s : State) : Host.Outcome State Fault Refusal :=
  .next (s.accept (encode (.xfer d n)) true (State.xferBody d n))

/-- SENDRECV and SENDRECV.D (R221). -/
def execSendrecv (k : Nat) (d : Bool) (n : Nat) (s : State) : Host.Outcome State Fault Refusal :=
  .next (s.accept (encode (.sendrecv k d n)) true (State.sendrecvBody k d n))

/-! ## The phases -/

/-- X_START (R222). -/
def stepXStart (s : State) : Host.Outcome State Fault Refusal :=
  andThen s.csAssert fun s1 =>
    ({ s1.armWatchdog with widx := 0 }.loadTx 0).setPhase .xTx

/-- X_TX (R223): completion, then expiry, then one edge (R294). -/
def stepXTx (s : State) : State :=
  if s.widx.toNat = s.ntxw then s.graceBegin.setPhase .xGrace
  else if s.expired then s.abortXfer .peripheralTimeout
  else s.txEdge

/-- X_GRACE (R224); a poll changes nothing. -/
def stepXGrace (s : State) : State := if s.graceDone then s.setPhase .xDirsw else s

/-- X_DIRSW (R225). -/
def stepXDirsw (s : State) : State :=
  { s.dirToRx.armWatchdog with widx := 0, bit := 0, edge := .lead, shr := 0, phase := .xRx }

/-- X_RX (R226): completion, then expiry, then one edge (R294). -/
def stepXRx (s : State) : State :=
  if s.widx = s.rxlen then { s with rxcnt := s.rxlen, phase := .xRelease }
  else if s.expired then s.abortXfer .peripheralTimeout
  else s.rxEdge

/-- X_RELEASE (R227). -/
def stepXRelease (s : State) : State := s.csDeassert.setPhase .xRestore

/-- X_RESTORE (R228). -/
def stepXRestore (s : State) : State := (s.dirToTx.setErr s.perr).setPhase .idle

end Sys2Proof.Machine
end

