-- ==== Sys2Proof/Machine/Trigger.lean ====
section
/-! DEFINITION. The trigger command TRIG and its five phases (43_trigger_command.md). -/

namespace Sys2Proof.Machine

/-- ExecTRIG (R260). -/
def State.trigBody (s : State) : State :=
  if s.selv then (s.setErr .ok).setPhase .tStart else s.setErr .invalidSlaveSelection

/-- TRIG (R260). -/
def execTrig (s : State) : Host.Outcome State Fault Refusal :=
  .next (s.accept (encode .trig) true State.trigBody)

/-- T_START (R261). -/
def stepTStart (s : State) : State := { s with ovr := true, phase := .tAssert }

/-- T_ASSERT (R262). -/
def stepTAssert (s : State) : Host.Outcome State Fault Refusal :=
  andThen s.csAssert fun s1 => s1.graceBegin.setPhase .tHold

/-- T_HOLD (R263); a poll changes nothing. -/
def stepTHold (s : State) : State := if s.graceDone then s.setPhase .tRelease else s

/-- T_RELEASE (R264). -/
def stepTRelease (s : State) : State := s.csDeassert.setPhase .tEnd

/-- T_END (R265). -/
def stepTEnd (s : State) : State := { s with ovr := false, err := .ok, phase := .idle }

end Sys2Proof.Machine
end

