-- ==== Sys2Proof/Machine/Dispatch.lean ====
section
/-! DEFINITION. The meaning of each command: the host step that accepts it (60_exceptions.md R289). -/

namespace Sys2Proof.Machine

def exec (i : Instr) (s : State) : Host.Outcome State Fault Refusal :=
  match i with
  | .nop => Sys2Proof.Machine.execNop s
  | .init => Sys2Proof.Machine.execInit s
  | .select k => Sys2Proof.Machine.execSelect k s
  | .xfer d n => Sys2Proof.Machine.execXfer d n s
  | .sendrecv k d n => Sys2Proof.Machine.execSendrecv k d n s
  | .trig => Sys2Proof.Machine.execTrig s
  | .deinit => Sys2Proof.Machine.execDeinit s

end Sys2Proof.Machine
end

