-- ==== Sys2Proof/Machine/Flags.lean ====
section
/-! DEFINITION. The codes and status words the host reads: ERR (60_exceptions.md R280), PHASE
(10_state.md R44), STATUS and PARAM (20_memory.md R85, R93). -/

namespace Sys2Proof.Machine

/-- The number of a result code (R280). -/
def ErrCode.code : ErrCode → BitVec 4
  | .ok => 0
  | .peripheralTimeout => 1
  | .invalidSlaveSelection => 2
  | .initializationFailure => 3
  | .notInitialized => 4
  | .illegalCommand => 5
  | .invalidLength => 6

/-- The number of a phase (R44). -/
def Phase.code : Phase → BitVec 4
  | .off => 0
  | .idle => 1
  | .xStart => 2
  | .xTx => 3
  | .xGrace => 4
  | .xDirsw => 5
  | .xRx => 6
  | .xRelease => 7
  | .xRestore => 8
  | .tStart => 9
  | .tAssert => 10
  | .tHold => 11
  | .tRelease => 12
  | .tEnd => 13

/-- CSACT[k] = CS_DRV and (CSN[k] = 0) (R55). -/
def State.csActive (s : State) (k : Nat) : Bool := s.csDrv && !s.csLevel k

/-- CSACT[3:0] as STATUS bits 19:16 report it (R55). -/
def State.csactBits (s : State) : BitVec 4 :=
  BitVec.ofBool (s.csActive 3) ++ BitVec.ofBool (s.csActive 2)
    ++ BitVec.ofBool (s.csActive 1) ++ BitVec.ofBool (s.csActive 0)

/-- The STATUS word, bit 31 first (R85). -/
def State.statusWord (s : State) : Word :=
  0#9 ++ BitVec.ofBool s.sckDrv ++ BitVec.ofBool s.doe ++ BitVec.ofBool s.csDrv
    ++ s.csactBits ++ s.phase.code ++ s.err.code
    ++ BitVec.ofBool s.ovr ++ BitVec.ofBool s.cav ++ s.sel ++ BitVec.ofBool s.selv
    ++ BitVec.ofBool s.dir ++ BitVec.ofBool s.init ++ BitVec.ofBool s.busy

/-- The PARAM word, bit 31 first (R93). -/
def paramWord (p : Params) : Word :=
  BitVec.ofNat 16 p.rxDepth ++ 0#9 ++ BitVec.ofBool (p.wiring == .fourWire)
    ++ BitVec.ofBool p.lsbFirst ++ BitVec.ofBool p.cpha ++ BitVec.ofBool p.cpol
    ++ BitVec.ofNat 3 p.numSlaves

end Sys2Proof.Machine
end

