-- ==== Sys2Proof/Machine/Window.lean ====
section
/-! DEFINITION. The host's reads and writes of the register window (20_memory.md R82-R99). -/

namespace Sys2Proof.Machine

/-- What a read of register `r` returns (R84-R95); CLKFREQ reads the step's CLKF (R92). -/
def State.readReg (s : State) : Reg → Word
  | .cmd => s.lastcmd
  | .status => s.statusWord
  | .txdata0 => s.txd0.setWidth 32
  | .txdata1 => s.txd1.setWidth 32
  | .rxcnt => s.rxcnt.setWidth 32
  | .grace => s.grace
  | .timeout => s.timeout
  | .cyccnt => s.cyccnt
  | .clkfreq => s.inp.clkf
  | .param => paramWord s.par
  | .rxbuf j => (s.rxWord j).setWidth 32
  | .reserved => 0

/-- Accept(v) (R289). -/
def acceptWord (v : Word) (s : State) : Host.Outcome State Fault Refusal :=
  match decode v with
  | .legal i => exec i s
  | .illegal _ => .next (s.acceptIllegal v)

/-- A busy-guarded write: while BUSY = 1 it only sets CAV (R99, R288). -/
def State.guarded (s : State) (f : State → State) : State := if s.busy then s.setCav true else f s

/-- A write of `v` to register `r` (R83-R95); a write to a read-only register or a reserved offset is
ignored. -/
def writeReg (r : Reg) (v : Word) (s : State) : Host.Outcome State Fault Refusal :=
  match r with
  | .cmd => acceptWord v s
  | .status => .next (if v.getLsbD 6 then s.setCav false else s)
  | .txdata0 => .next (s.guarded fun s => { s with txd0 := v.setWidth 16 })
  | .txdata1 => .next (s.guarded fun s => { s with txd1 := v.setWidth 16 })
  | .timeout => .next (s.guarded fun s => { s with timeout := v })
  | .rxcnt | .grace | .cyccnt | .clkfreq | .param | .rxbuf _ | .reserved => .next s

/-- HostRead(off) (R15, R98). -/
def hostRead (off : Nat) (s : State) : State := s.setRdata (s.readReg (regAt s.par off))

/-- HostWrite(off, v) (R15, R99). -/
def hostWrite (off : Nat) (v : Word) (s : State) : Host.Outcome State Fault Refusal :=
  writeReg (regAt s.par off) v s

/-- An access outside the window does not reach the block (R81); the platform answers a read (log 8). -/
def outsideAccess (k : Direction) (s : State) : State :=
  match k with
  | .read => (s.setRdata (Config.platformData s.draws)).takeDraw
  | .write _ => s

/-- The host's step (R306): outside the window nothing happens to the block; inside it, an access that
is not 32 bits wide at a multiple of 4 is refused (R96). -/
def stepHost (a : HostAccess) (s : State) : Host.Outcome State Fault Refusal :=
  match offsetOf s.par a.target with
  | none => .next (outsideAccess a.kind s)
  | some off =>
    if a.width ≠ .word then .refused .accessWidth
    else if off % 4 ≠ 0 then .refused .accessAlignment
    else
      match a.kind with
      | .read => .next (hostRead off s)
      | .write v => hostWrite off v s

end Sys2Proof.Machine
end

