-- ==== Sys2Proof/Machine/Sequencer.lean ====
section
/-! DEFINITION. The steps of the agents of 60_exceptions.md R306. -/

namespace Sys2Proof.Machine

/-- The controller's step (R306): one phase step; in OFF and IDLE it has none (R44, log 2). -/
def stepController (s : State) : Host.Outcome State Fault Refusal :=
  match s.phase with
  | .off => .next s
  | .idle => .next s
  | .xStart => stepXStart s
  | .xTx => .next (stepXTx s)
  | .xGrace => .next (stepXGrace s)
  | .xDirsw => .next (stepXDirsw s)
  | .xRx => .next (stepXRx s)
  | .xRelease => .next (stepXRelease s)
  | .xRestore => .next (stepXRestore s)
  | .tStart => .next (stepTStart s)
  | .tAssert => stepTAssert s
  | .tHold => .next (stepTHold s)
  | .tRelease => .next (stepTRelease s)
  | .tEnd => .next (stepTEnd s)

/-- One step of agent `a` (R306); the environment only chooses inputs, and reset is R320. -/
def stepAgent (a : Agent) (s : State) : Host.Outcome State Fault Refusal :=
  match a with
  | .host x => stepHost x s
  | .controller => stepController s
  | .counter => .next s.tick
  | .environment => .next s
  | .reset => .next s.resetNow

/-- The turn in which the host writes command word `w` to CMD, with inputs `inp`. -/
def cmdTurn (w : Word) (inp : Inputs) : Turn where
  agent := .host { target := .offset 0, width := .word, kind := .write w }
  inp := inp

/-- `s` with that turn placed first, with the input values of `s` (log 6). -/
def State.placeCommand (s : State) (w : Word) : State :=
  { s with agenda := cmdTurn w s.inp :: s.agenda }

end Sys2Proof.Machine
end

