-- ==== Sys2Proof/Machine/Step.lean ====
section
/-! DEFINITION. One step of the machine: the next turn's agent moves (20_memory.md R101). -/

namespace Sys2Proof.Machine

/-- One atomic step of one agent (R16, R101). -/
def step (s : State) : Host.Outcome State Fault Refusal := stepAgent s.nextTurn.agent s.takeTurn

/-- The block fetches nothing: a command reaches it by the host's write to CMD (R104, R322), so the next
turn is that write (log 6). -/
def State.withFetchWord (s : State) (nbits w : Nat) : State := s.placeCommand (tableWord nbits w)

end Sys2Proof.Machine
end

