-- ==== Sys2Proof/Machine/Asm.lean ====
section
/-! DEFINITION. The host's programs: command syntax, host-access syntax and the pseudo-instructions
(30_encoding.md R122-R124), and the accesses a program makes. -/

namespace Sys2Proof.Machine

/-! ## Lines of a host program -/

/-- `WR off, v` (R123). -/
def wr (off : Nat) (v : Word) : HostAccess := ⟨.offset off, .word, .write v⟩

/-- `RD off` (R123). -/
def rd (off : Nat) : HostAccess := ⟨.offset off, .word, .read⟩

/-- An assembled line: one access, or `loop: <access>; if bit <bit> = 1 goto loop` (R124). -/
inductive HostLine where
  | once (a : HostAccess)
  | loopWhile (a : HostAccess) (bit : Nat)
  deriving DecidableEq, Repr

/-- `POLL`: read STATUS until BUSY, bit 0, is 0 (R124). -/
def poll : HostLine := .loopWhile (rd 0x004) 0

/-! ## The assembler -/

/-- A command as R122 spells it: a mnemonic with its operands, or `.word v`. -/
inductive CommandText where
  | mnemonic (i : Instr)
  | literal (v : Word)
  deriving DecidableEq, Repr

/-- The word of a command; none for an operand out of its range (R122). -/
def CommandText.assemble : CommandText → Option Word
  | .mnemonic i => Sys2Proof.assemble i
  | .literal v => some v

/-- A command on its own line: `WR CMD, <its encoding>` (R123; 95_test_vectors.md P5 has a `.word` line);
an assembly error writes nothing (R122). -/
def cmd (c : CommandText) : Option HostAccess := c.assemble.map (wr 0x000)

/-- The pseudo-instructions of R124. -/
inductive Pseudo where
  | poll
  | settx (w0 : Word)
  | settx2 (w0 w1 : Word)
  | sr (s : Nat) (w0 : Word) (n : Nat)
  | srd (s : Nat) (w0 w1 : Word) (n : Nat)
  | clrcav
  deriving DecidableEq, Repr

/-- Their expansions (R124); none where the SENDRECV in it is an assembly error (R122). -/
def Pseudo.expand : Pseudo → Option (List HostLine)
  | .poll => some [Sys2Proof.Machine.poll]
  | .settx w0 => some [.once (wr 0x008 w0)]
  | .settx2 w0 w1 => some [.once (wr 0x008 w0), .once (wr 0x00C w1)]
  | .sr s w0 n => (cmd (.mnemonic (.sendrecv s false n))).map fun c =>
    [.once (wr 0x008 w0), .once c, Sys2Proof.Machine.poll]
  | .srd s w0 w1 n => (cmd (.mnemonic (.sendrecv s true n))).map fun c =>
    [.once (wr 0x008 w0), .once (wr 0x00C w1), .once c, Sys2Proof.Machine.poll]
  | .clrcav => some [.once (wr 0x004 0x00000040)]

/-- A source line of a program (R122-R124). -/
inductive SourceLine where
  | command (c : CommandText)
  | write (off : Nat) (v : Word)
  | read (off : Nat)
  | pseudo (p : Pseudo)
  deriving DecidableEq, Repr

/-- What a source line assembles to; none is an assembly error. -/
def SourceLine.assemble : SourceLine → Option (List HostLine)
  | .command c => (cmd c).map fun a => [.once a]
  | .write off v => some [.once (wr off v)]
  | .read off => some [.once (rd off)]
  | .pseudo p => p.expand

/-- A whole program; an assembly error in any line leaves no program. -/
def assembleProgram : List SourceLine → Option (List HostLine)
  | [] => some []
  | l :: ls =>
    match l.assemble, assembleProgram ls with
    | some p, some q => some (p ++ q)
    | _, _ => none

/-! ## What the host does with a program -/

/-- The access a line makes. -/
def HostLine.access : HostLine → HostAccess
  | .once a | .loopWhile a _ => a

/-- The line is the next one again: the tested bit of the value its access read is 1 (R124). -/
def HostLine.repeats (read : Option Word) : HostLine → Bool
  | .once _ => false
  | .loopWhile _ bit =>
    match read with
    | some v => v.getLsbD bit
    | none => false

/-- One host step of a program: the first line's access, and the program still to run. The steps of
other agents stand between two of these (R101); that a loop ends is the host's duty (R124). -/
def programStep (p : List HostLine) (s : State) :
    Host.Outcome (List HostLine × State) Fault Refusal :=
  match p with
  | [] => .next ([], s)
  | l :: rest =>
    match stepHost l.access s with
    | .next t => .next (if l.repeats t.rdata then l :: rest else rest, t)
    | .fault r => .fault r
    | .refused r => .refused r

end Sys2Proof.Machine
end

