-- ==== Sys2Proof/Machine/Pins.lean ====
section
/-! DEFINITION. The output pins as functions of the state (10_state.md R54). -/

namespace Sys2Proof.Machine

/-- The level of an output pin; `z` is an undriven output (R17). -/
inductive Level where
  | low | high | z
  deriving DecidableEq, Repr

/-- A driven level (R17). -/
def Level.ofBool (b : Bool) : Level := if b then .high else .low

/-- `CS_N[k]`; there is no pin for `k >= NUM_SLAVES` (R51, R54). -/
def State.pinCsN (s : State) (k : Nat) : Option Level :=
  if k < s.par.numSlaves then some (if s.csDrv then Level.ofBool (s.csLevel k) else .z) else none

/-- The SCK pin (R54). -/
def State.pinSck (s : State) : Level :=
  if s.ovr then .low else if s.sckDrv then Level.ofBool s.sck else .z

/-- The SDIO pin, transmit side (R54). -/
def State.pinSdio (s : State) : Level :=
  if s.ovr then .high else if s.doe then Level.ofBool s.dout else .z

/-- The SDIO pin, receive side: the input DIN (R54). -/
def State.pinDin (s : State) : Bool := s.inp.din

/-- Whether the two SDIO rows of R54 are one physical pin. -/
def sharedDataPin (p : Params) : Bool := p.wiring == .threeWire

end Sys2Proof.Machine
end

