-- ==== Sys2Proof/Safety.lean ====
section
/-! DEFINITION. The invariants of 70_reset_and_hazards.md R326, and the words the statements use. -/

namespace Sys2Proof.Machine

/-! ## Groups of phases -/

/-- The phases in which CSN[SEL] = 0 (R44's CS column, R326 I1). -/
def Phase.selects : Phase → Bool
  | .xTx | .xGrace | .xDirsw | .xRx | .xRelease | .tHold | .tRelease => true
  | .off | .idle | .xStart | .xRestore | .tStart | .tAssert | .tEnd => false

/-- The phases in which DIR may be 1 (R326 I6). -/
def Phase.mayReceive : Phase → Bool
  | .xRx | .xRelease | .xRestore => true
  | .off | .idle | .xStart | .xTx | .xGrace | .xDirsw
  | .tStart | .tAssert | .tHold | .tRelease | .tEnd => false

/-- The phases in which the trigger pattern is applied (R326 I7). -/
def Phase.overrides : Phase → Bool
  | .tAssert | .tHold | .tRelease | .tEnd => true
  | .off | .idle | .xStart | .xTx | .xGrace | .xDirsw | .xRx | .xRelease | .xRestore | .tStart => false

/-- The phases of a transaction before its result is known (R326 I9). -/
def Phase.inTransfer : Phase → Bool
  | .xStart | .xTx | .xGrace | .xDirsw | .xRx => true
  | .off | .idle | .xRelease | .xRestore | .tStart | .tAssert | .tHold | .tRelease | .tEnd => false

/-! ## The invariants -/

/-- I1: a low CSN bit is that of SEL, in a selecting phase. -/
abbrev State.I1 (s : State) : Prop :=
  ∀ k, k < 4 → s.csn.getLsbD k = false → k = s.sel.toNat ∧ s.phase.selects = true

/-- I2. -/
abbrev State.I2 (s : State) : Prop := s.csDrv = false → s.csn = 0b1111

/-- I3. -/
abbrev State.I3 (s : State) : Prop := s.phase = .off ↔ s.init = false

/-- I4. -/
abbrev State.I4 (s : State) : Prop :=
  s.busy = true → s.init = true ∧ s.selv = true ∧ s.cntEn = true

/-- I5. -/
abbrev State.I5 (s : State) : Prop := s.doe = (s.init && !s.dir)

/-- I6. -/
abbrev State.I6 (s : State) : Prop := s.dir = true → s.phase.mayReceive = true

/-- I7. -/
abbrev State.I7 (s : State) : Prop := s.ovr = true ↔ s.phase.overrides = true

/-- I8, with its second sentence. -/
abbrev State.I8 (s : State) : Prop :=
  (s.sck = (!s.par.cpol) ↔ s.edge = .trail) ∧
  (s.phase ≠ .xTx → s.phase ≠ .xRx → s.sck = s.par.cpol)

/-- I9; ERR and PHASE hold only their legal codes. -/
abbrev State.I9 (s : State) : Prop :=
  s.err.code.toNat ≤ 6 ∧ s.phase.code.toNat ≤ 13 ∧ s.rxcnt.toNat ≤ s.par.rxDepth ∧
  (s.phase.inTransfer = true → s.rxcnt = 0)

/-- I10. -/
abbrev State.I10 (s : State) : Prop :=
  (s.phase = .xTx → s.widx.toNat ≤ s.ntxw) ∧
  (s.phase = .xRx → s.widx.toNat ≤ s.rxlen.toNat) ∧ s.bit.toNat ≤ 15

/-- I11. -/
abbrev State.I11 (s : State) : Prop := s.sckDrv = s.init ∧ s.cntEn = s.init

/-- The invariants of every reachable state: R326's eleven, and the facts of other rules that carry
them from step to step. -/
structure State.Inv (s : State) : Prop where
  i1 : s.I1
  i2 : s.I2
  i3 : s.I3
  i4 : s.I4
  i5 : s.I5
  i6 : s.I6
  i7 : s.I7
  i8 : s.I8
  i9 : s.I9
  i10 : s.I10
  i11 : s.I11
  /-- R11: the parameters are in their ranges. -/
  params : s.par.wf = true
  /-- R39: RXBUF has RX_DEPTH entries. -/
  bufLength : s.rxbuf.length = s.par.rxDepth
  /-- R32: a valid binding names a wired slave. -/
  binding : s.selv = true → s.sel.toNat < s.par.numSlaves
  /-- R51: the CSN bits without a pin are 1. -/
  hardwired : ∀ k, k < 4 → s.par.numSlaves ≤ k → s.csn.getLsbD k = true
  /-- R44's CS column: a selecting phase has CSN[SEL] = 0. -/
  selected : s.phase.selects = true → s.csn.getLsbD s.sel.toNat = false
  /-- R192, R51: an initialised block drives its CS outputs. -/
  csDriven : s.init = true → s.csDrv = true
  /-- R44's DIR column: X_RX receives. -/
  receiving : s.phase = .xRx → s.dir = true
  /-- R34: ERR reads 0 while a command runs. -/
  errBusy : s.busy = true → s.err = .ok
  /-- R287: the latched length fits the buffer until the transfer ends. -/
  lengthFits : s.phase.inTransfer = true → s.rxlen.toNat ≤ s.par.rxDepth
  /-- R49: no result is pending until the transfer ends or aborts. -/
  noPending : s.phase.inTransfer = true → s.perr = .ok
  /-- R161: outside a word the next edge is a leading one. -/
  txWordEnd : s.phase = .xTx → s.widx.toNat = s.ntxw → s.edge = .lead
  /-- R161, in the receive phase. -/
  rxWordEnd : s.phase = .xRx → s.widx = s.rxlen → s.edge = .lead

/-! ## Words of the statements -/

/-- The host's turn that writes `v` at offset `off` (R15). -/
abbrev writeTurn (off : Nat) (v : Word) (inp : Inputs) : Turn :=
  ⟨.host ⟨.offset off, .word, .write v⟩, inp⟩

/-- The host's turn that reads offset `off` (R15). -/
abbrev readTurn (off : Nat) (inp : Inputs) : Turn := ⟨.host ⟨.offset off, .word, .read⟩, inp⟩

/-- A command may start work: BUSY = 0 and INIT = 1 (R289). -/
abbrev State.ready (s : State) : Prop := s.busy = false ∧ s.init = true

/-- The safe idle state of R291: chip-selects deasserted, transmit mode, no trigger pattern. -/
abbrev State.safeIdle (s : State) : Prop :=
  s.csn = 0b1111 ∧ s.dir = false ∧ s.doe = true ∧ s.ovr = false ∧ s.phase = .idle

/-- The commands other than NOP and INIT need INIT = 1 (R289). -/
def needsInit : Instr → Bool
  | .nop | .init => false
  | .select _ | .xfer _ _ | .sendrecv _ _ _ | .trig | .deinit => true

/-- The values of R59 that the spec states, for the parameters of `s`; the unspecified elements are not
named. -/
structure State.HasResetValues (s : State) : Prop where
  init : s.init = false
  selv : s.selv = false
  sel : s.sel = 0
  dir : s.dir = false
  err : s.err.code = 0
  cav : s.cav = false
  phase : s.phase.code = 0
  txd0 : s.txd0 = 0x0000
  txd1 : s.txd1 = 0x0000
  lastcmd : s.lastcmd = 0x00000000
  rxlen : s.rxlen = 0x0000
  ldata : s.ldata = false
  rxcnt : s.rxcnt = 0x0000
  grace : s.grace = 0x00000000
  timeout : s.timeout = s.par.timeoutMsReset
  cntEn : s.cntEn = false
  plimit : s.plimit = 0x00000000
  bit : s.bit = 0
  edge : s.edge = .lead
  widx : s.widx = 0x0000
  perr : s.perr.code = 0
  ovr : s.ovr = false
  csn : s.csn = 0b1111
  csDrv : s.csDrv = false
  sck : s.sck = s.par.cpol
  sckDrv : s.sckDrv = false
  doe : s.doe = false

/-- Every turn of the list is the controller's. -/
abbrev allController (ts : List Turn) : Prop := ∀ t ∈ ts, t.agent = .controller

/-- Every turn of the list is a tick of the counter clock. -/
abbrev allCounter (ts : List Turn) : Prop := ∀ t ∈ ts, t.agent = .counter

/-- CLKF is `f` in every turn of the list. -/
abbrev clkfIs (f : Word) (ts : List Turn) : Prop := ∀ t ∈ ts, t.inp.clkf = f

/-- The level of DIN in turn `k` of a list. -/
def dinAt (ts : List Turn) (k : Nat) : Bool :=
  match ts[k]? with
  | some t => t.inp.din
  | none => false

/-- The column match of R113. -/
def tableMatch : Op → Word
  | .nop => 0x00000000
  | .init => 0x00000001
  | .select => 0x00000002
  | .xfer => 0x00000003
  | .sendrecv => 0x00000004
  | .trig => 0x00000005
  | .deinit => 0x00000006

/-- The column mask of R113. -/
def tableMask : Op → Word
  | .nop | .init | .trig | .deinit => 0xFFFFFFFF
  | .select => 0xFFFFFF0F
  | .xfer => 0x0000FEFF
  | .sendrecv => 0x0000FE0F

end Sys2Proof.Machine
end

