-- ==== Sys2Proof/Certificates/Slice0/Obligations.lean ====
section
/-! DEFINITION. The statements for the provers, each from the numbered rule its docstring names. A
next state written `{ s with … }` states the instruction's frame as well: every field not named, RXBUF
and every register among them, is as in `s`. -/

open Sys2Proof Sys2Proof.Machine

/-! ## Encoding (30_encoding.md) -/

/-- R125: the encoding examples decode to the commands they spell, and SELECT 4 is well-formed but fails
at execution when NUM_SLAVES = 4. The words of R122 without operands stand beside them. -/
def Obligations.SpecWordsDecodeAsSpelled : Prop :=
  decode 0x00000022 = .legal (.select 2) ∧
  decode 0x00020003 = .legal (.xfer false 2) ∧
  decode 0x00010103 = .legal (.xfer true 1) ∧
  decode 0x00020034 = .legal (.sendrecv 3 false 2) ∧
  decode 0x00000104 = .legal (.sendrecv 0 true 0) ∧
  decode 0x00000042 = .legal (.select 4) ∧
  (∀ s : State, s.ready → s.par.numSlaves = 4 → exec (.select 4) s = .next
    { s with lastcmd := 0x00000042, selv := false, err := .invalidSlaveSelection }) ∧
  decode 0x00000000 = .legal .nop ∧
  decode 0x00000001 = .legal .init ∧
  decode 0x00000005 = .legal .trig ∧
  decode 0x00000006 = .legal .deinit

/-- R111, R117, R122: decoding the word of a well-formed command gives the command back, with every
operand at every value its field holds. -/
def Obligations.DecodeOfEncodeIsTheCommand : Prop :=
  ∀ i : Instr, i.wellFormed = true → decode (encode i) = .legal i

/-- R117, R120, R122: every legal word is the encoding of exactly the well-formed command it decodes to;
it is the word the assembler writes for that command and for no other, and for an operand out of its range
the assembler writes no word. -/
def Obligations.LegalWordIsItsCommandsEncoding : Prop :=
  (∀ (c : Word) (i : Instr), decode c = .legal i → i.wellFormed = true ∧ encode i = c) ∧
  (∀ (c : Word) (i : Instr), assemble i = some c ↔ decode c = .legal i) ∧
  (∀ i : Instr, i.wellFormed = false → assemble i = none)

/-- R113: a word spells a mnemonic exactly when it has the opcode and no must-be-zero bit, and exactly
when `(c & mask) = match`. -/
def Obligations.WordSpellsMnemonicByMask : Prop :=
  ∀ (c : Word) (op : Op),
    ((∃ i, decode c = .legal i ∧ i.op = op) ↔ c &&& tableMask op = tableMatch op) ∧
    ((∃ i, decode c = .legal i ∧ i.op = op) ↔ opField c = op.code ∧ c &&& op.mbz = 0)

/-- R118, R119, R286: a reserved OP, or a nonzero must-be-zero bit, and nothing else, makes a word
illegal; accepted, it writes LASTCMD and ERR = 5 whatever INIT is, and nothing else. -/
def Obligations.IllegalWordOnlyReports : Prop :=
  (∀ c : Word, (∃ why, decode c = .illegal why) ↔
    (7 ≤ (opField c).toNat ∨ ∃ op : Op, op.code = opField c ∧ c &&& op.mbz ≠ 0)) ∧
  (∀ (c : Word) (s : State), (∃ why, decode c = .illegal why) → s.busy = false →
    acceptWord c s = .next { s with lastcmd := c, err := .illegalCommand }) ∧
  (∃ why, decode 0x00010001 = .illegal why) ∧ (∃ why, decode 0x00000203 = .illegal why)

/-! ## Steps (20_memory.md R101, 60_exceptions.md R306) -/

/-- R16, R101, R306: a step is the next turn's agent moving with that turn's inputs, a free turn with an
empty agenda (log 1). R84, R289: the step in which the host writes a legal word to CMD, by offset or by
bus address, is `exec` of the command it decodes to, on the state with the turn taken; and a word placed
by `withFetchWord` (log 6) is the very next command. -/
def Obligations.StepRunsTheDecodedCommand : Prop :=
  (∀ (s : State) (t : Turn) (rest : List Turn), s.agenda = t :: rest →
    step s = stepAgent t.agent { s with agenda := rest, inp := t.inp }) ∧
  (∀ s : State, s.agenda = [] →
    step s = stepAgent (Config.freeTurn s.draws).agent
      { s with inp := (Config.freeTurn s.draws).inp, draws := s.draws + 1 }) ∧
  (∀ (s : State) (v : Word) (i : Instr) (inp : Inputs) (rest : List Turn),
    s.agenda = writeTurn 0x000 v inp :: rest → decode v = .legal i →
    step s = exec i { s with agenda := rest, inp := inp }) ∧
  (∀ (s : State) (v : Word) (i : Instr) (inp : Inputs) (rest : List Turn),
    s.agenda = ⟨.host ⟨.address (base s.par), .word, .write v⟩, inp⟩ :: rest →
    decode v = .legal i → step s = exec i { s with agenda := rest, inp := inp }) ∧
  (∀ (s : State) (nbits w : Nat) (i : Instr), decodeTableWord nbits w = some i →
    step (s.withFetchWord nbits w) = exec i s)

/-! ## Acceptance (60_exceptions.md) -/

/-- R288, R99: a write to a busy-guarded register while BUSY = 1 sets CAV and changes nothing else, for
every value written, legal command or not. -/
def Obligations.BusyGuardedWriteOnlySetsCav : Prop :=
  ∀ (s : State) (off : Nat) (v : Word), s.busy = true →
    (off = 0x000 ∨ off = 0x008 ∨ off = 0x00C ∨ off = 0x018) →
    hostWrite off v s = .next { s with cav := true }

/-- R35, R288: CAV rises only at a busy-guarded write while BUSY = 1, and falls only at a STATUS write
with bit 6 set or at reset. -/
def Obligations.CavChangesOnlyAtItsWriters : Prop :=
  ∀ s t : State, step s = .next t →
    (s.cav = false → t.cav = true → s.busy = true ∧ ∃ tgt v off,
      s.nextTurn.agent = .host ⟨tgt, .word, .write v⟩ ∧ offsetOf s.par tgt = some off ∧
      (off = 0x000 ∨ off = 0x008 ∨ off = 0x00C ∨ off = 0x018)) ∧
    (s.cav = true → t.cav = false → s.nextTurn.agent = .reset ∨ ∃ tgt v,
      s.nextTurn.agent = .host ⟨tgt, .word, .write v⟩ ∧ offsetOf s.par tgt = some 0x004 ∧
      v.getLsbD 6 = true)

/-- R285: a command other than NOP and INIT accepted while INIT = 0 gives ERR = 4 and LASTCMD, and
nothing else. -/
def Obligations.CommandsBeforeInitReportNotInitialized : Prop :=
  ∀ (i : Instr) (s : State), i ≠ .nop → i ≠ .init → s.busy = false → s.init = false →
    exec i s = .next { s with lastcmd := encode i, err := .notInitialized }

/-- R290: the result code after an accepted command word is that of the first condition that applies, in
the order of the rule. -/
def Obligations.FirstConditionWins : Prop :=
  ∀ (v : Word) (s t : State), s.busy = false → acceptWord v s = .next t →
    t.err = match decode v with
      | .illegal _ => .illegalCommand
      | .legal i =>
        if i ≠ .nop ∧ i ≠ .init ∧ s.init = false then .notInitialized
        else match i with
          | .nop => .ok
          | .init => if s.inp.startOk then .ok else .initializationFailure
          | .select k => if s.par.numSlaves ≤ k then .invalidSlaveSelection else .ok
          | .xfer _ n =>
            if s.selv = false then .invalidSlaveSelection
            else if s.par.rxDepth < n then .invalidLength else .ok
          | .sendrecv k _ n =>
            if s.par.numSlaves ≤ k then .invalidSlaveSelection
            else if s.par.rxDepth < n then .invalidLength else .ok
          | .trig => if s.selv = false then .invalidSlaveSelection else .ok
          | .deinit => .ok

/-! ## Setup commands (41_setup_commands.md) -/

/-- R191: NOP writes ERR = 0 (and LASTCMD), whatever INIT is; while BUSY it is a CAV. -/
def Obligations.NopClearsErr : Prop :=
  ∀ s : State,
    (s.busy = false → exec .nop s = .next { s with lastcmd := 0x00000000, err := .ok }) ∧
    (s.busy = true → exec .nop s = .next { s with cav := true })

/-- R192, R284: INIT with START_OK true initialises the bus and keeps the binding and the data registers;
with START_OK false it leaves the block OFF with ERR = 3; both configure the CS lines. CYCCNT takes the
step's draw, a free value. The last clause is the rule's example. -/
def Obligations.InitStartsOrFails : Prop :=
  ∀ s : State,
    (s.busy = false → s.inp.startOk = true → exec .init s = .next { s with
      lastcmd := 0x00000001, csDrv := true, csn := 0b1111, cntEn := true,
      cyccnt := s.inp.cycDraw, sck := s.par.cpol, sckDrv := true, ovr := false,
      dir := false, doe := true, init := true, phase := .idle, err := .ok }) ∧
    (s.busy = false → s.inp.startOk = false → exec .init s = .next { s with
      lastcmd := 0x00000001, csDrv := true, csn := 0b1111, cntEn := false,
      sckDrv := false, dir := false, doe := false, ovr := false, init := false,
      selv := false, phase := .off, err := .initializationFailure }) ∧
    (s.busy = true → exec .init s = .next { s with cav := true }) ∧
    (s.HasResetValues → s.inp.startOk = true →
      ∃ t, exec .init s = .next t ∧ t.statusWord = 0x00701002)

/-- R195: SELECT of a wired slave binds it, of another slave clears the binding with ERR = 2 and keeps
SEL, so that XFER and TRIG then fail; no pin register is written. -/
def Obligations.SelectBindsOrUnbinds : Prop :=
  ∀ (k : Nat) (s : State),
    (s.ready → k < s.par.numSlaves → exec (.select k) s = .next { s with
      lastcmd := encode (.select k), sel := BitVec.ofNat 2 k, selv := true, err := .ok }) ∧
    (s.ready → s.par.numSlaves ≤ k → ∃ t, exec (.select k) s = .next t ∧
      t = { s with
        lastcmd := encode (.select k), selv := false, err := .invalidSlaveSelection } ∧
      exec .trig t = .next { t with lastcmd := 0x00000005, err := .invalidSlaveSelection } ∧
      ∀ (d : Bool) (n : Nat), exec (.xfer d n) t = .next { t with
        lastcmd := encode (.xfer d n), err := .invalidSlaveSelection }) ∧
    (s.ready → 2 < s.par.numSlaves → ∃ t, exec (.select 2) s = .next t ∧
      t.lastcmd = 0x00000022 ∧ t.statusWord.extractLsb' 3 3 = 0b101) ∧
    (s.busy = false → s.init = false → exec (.select k) s = .next { s with
      lastcmd := encode (.select k), err := .notInitialized }) ∧
    (s.busy = true → exec (.select k) s = .next { s with cav := true })

/-- R198: DEINIT releases the bus, keeps the CS lines driven and the data registers as they are; after
it every command but NOP and INIT gives NotInitialized. -/
def Obligations.DeinitReleasesTheBus : Prop :=
  ∀ s : State,
    (s.ready → ∃ t, exec .deinit s = .next t ∧
      t = { s with
        lastcmd := 0x00000006, init := false, selv := false, cntEn := false, dir := false,
        doe := false, sckDrv := false, ovr := false, phase := .off, err := .ok } ∧
      (∀ i : Instr, i ≠ .nop → i ≠ .init →
        exec i t = .next { t with lastcmd := encode i, err := .notInitialized }) ∧
      (s.csDrv = true → s.csn = 0b1111 → s.sel = 0 → s.cav = false →
        t.statusWord = 0x00100000)) ∧
    (s.busy = false → s.init = false → exec .deinit s = .next { s with
      lastcmd := 0x00000006, err := .notInitialized }) ∧
    (s.busy = true → exec .deinit s = .next { s with cav := true })

/-! ## Transaction and trigger commands (42_transaction_commands.md, 43_trigger_command.md) -/

/-- R220: XFER with a binding and a length that fits latches its operands and starts; otherwise it
reports the first failing check and moves nothing. -/
def Obligations.XferStartsOrReports : Prop :=
  ∀ (d : Bool) (n : Nat) (s : State),
    (s.ready → s.selv = true → n ≤ s.par.rxDepth → exec (.xfer d n) s = .next { s with
      lastcmd := encode (.xfer d n), ldata := d, rxlen := BitVec.ofNat 16 n, rxcnt := 0,
      perr := .ok, err := .ok, phase := .xStart }) ∧
    (s.ready → s.selv = false → exec (.xfer d n) s = .next { s with
      lastcmd := encode (.xfer d n), err := .invalidSlaveSelection }) ∧
    (s.ready → s.selv = true → s.par.rxDepth < n → exec (.xfer d n) s = .next { s with
      lastcmd := encode (.xfer d n), err := .invalidLength }) ∧
    (s.busy = true → exec (.xfer d n) s = .next { s with cav := true })

/-- R221: SENDRECV binds and starts in one step; an invalid slave clears the binding; a length that does
not fit leaves the new binding in place. -/
def Obligations.SendrecvBindsThenStarts : Prop :=
  ∀ (k : Nat) (d : Bool) (n : Nat) (s : State),
    (s.ready → k < s.par.numSlaves → n ≤ s.par.rxDepth → exec (.sendrecv k d n) s = .next { s with
      lastcmd := encode (.sendrecv k d n), sel := BitVec.ofNat 2 k, selv := true, ldata := d,
      rxlen := BitVec.ofNat 16 n, rxcnt := 0, perr := .ok, err := .ok, phase := .xStart }) ∧
    (s.ready → k < s.par.numSlaves → s.par.rxDepth < n → exec (.sendrecv k d n) s = .next { s with
      lastcmd := encode (.sendrecv k d n), sel := BitVec.ofNat 2 k, selv := true,
      err := .invalidLength }) ∧
    (s.ready → s.par.numSlaves ≤ k → exec (.sendrecv k d n) s = .next { s with
      lastcmd := encode (.sendrecv k d n), selv := false, err := .invalidSlaveSelection }) ∧
    (s.busy = true → exec (.sendrecv k d n) s = .next { s with cav := true })

/-- R260: TRIG uses the current binding and does not re-bind; without one it reports ERR = 2. -/
def Obligations.TrigStartsOnTheBinding : Prop :=
  ∀ s : State,
    (s.ready → s.selv = true → exec .trig s = .next { s with
      lastcmd := 0x00000005, err := .ok, phase := .tStart }) ∧
    (s.ready → s.selv = false → exec .trig s = .next { s with
      lastcmd := 0x00000005, err := .invalidSlaveSelection }) ∧
    (s.busy = true → exec .trig s = .next { s with cav := true })

/-- The frame of every command's accept step: it answers a next state, and of the data registers, the
delay engine's and shift engine's registers, DOUT and the parameters it changes none but CYCCNT at
INIT. -/
def Obligations.CommandsKeepDataAndEngines : Prop :=
  ∀ (i : Instr) (s : State), ∃ t, exec i s = .next t ∧
    t.par = s.par ∧ t.txd0 = s.txd0 ∧ t.txd1 = s.txd1 ∧ t.rxbuf = s.rxbuf ∧
    t.timeout = s.timeout ∧ t.grace = s.grace ∧ t.wstart = s.wstart ∧ t.pstart = s.pstart ∧
    t.plimit = s.plimit ∧ t.shr = s.shr ∧ t.bit = s.bit ∧ t.edge = s.edge ∧ t.widx = s.widx ∧
    t.dout = s.dout ∧ t.rdata = s.rdata ∧ t.inp = s.inp ∧ t.agenda = s.agenda ∧
    (i ≠ .init → t.cyccnt = s.cyccnt ∧ t.csn = s.csn ∧ t.csDrv = s.csDrv ∧ t.sck = s.sck)

/-! ## The phases of a transaction (42_transaction_commands.md) -/

/-- R222: X_START asserts CS, arms the watchdog and loads the first word. The hypotheses are those under
which R150 calls CsAssert. -/
def Obligations.XStartAssertsAndLoads : Prop :=
  ∀ s : State, s.phase = .xStart → s.csn = 0b1111 → s.sel.toNat < s.par.numSlaves →
    stepController s = .next { s with
      csn := ~~~(BitVec.twoPow 4 s.sel.toNat)
      pstart := s.cyccnt
      plimit := BitVec.ofNat 32 (watchdogCycles s.timeout.toNat s.inp.clkf.toNat)
      widx := 0
      shr := s.txd0
      bit := 0
      edge := .lead
      dout := if s.par.cpha then s.dout else outBit s.par.lsbFirst s.txd0 0
      phase := .xTx }

/-- R223, R294, R291: X_TX tests completion, then expiry, then shifts one edge. -/
def Obligations.XTxCompletesExpiresOrShifts : Prop :=
  ∀ s : State, s.phase = .xTx →
    (s.widx.toNat = s.ntxw → stepController s = .next { s with
      grace := BitVec.ofNat 32 (graceCycles s.inp.clkf.toNat), wstart := s.cyccnt,
      phase := .xGrace }) ∧
    (s.widx.toNat ≠ s.ntxw → s.plimit.toNat ≤ s.elapsed s.pstart →
      stepController s = .next { s with
        perr := .peripheralTimeout, rxcnt := 0, sck := s.par.cpol, edge := .lead, bit := 0,
        phase := .xRelease }) ∧
    (s.widx.toNat ≠ s.ntxw → s.elapsed s.pstart < s.plimit.toNat →
      stepController s = .next s.txEdge)

/-- R144, R224, R263: a grace wait, after transmit or in a trigger, ends at the first controller step at
which GraceDone holds; before it a step changes nothing. -/
def Obligations.GraceWaitEndsExactlyWhenDone : Prop :=
  ∀ s : State,
    (s.phase = .xGrace → s.grace.toNat ≤ s.elapsed s.wstart →
      stepController s = .next { s with phase := .xDirsw }) ∧
    (s.phase = .tHold → s.grace.toNat ≤ s.elapsed s.wstart →
      stepController s = .next { s with phase := .tRelease }) ∧
    (s.phase = .xGrace ∨ s.phase = .tHold → s.elapsed s.wstart < s.grace.toNat →
      stepController s = .next s)

/-- R225, R167: X_DIRSW releases the data line and switches to receive in one step, with CS unchanged,
and arms a fresh deadline. -/
def Obligations.XDirswSwitchesToReceive : Prop :=
  ∀ s : State, s.phase = .xDirsw →
    stepController s = .next { s with
      doe := false
      dir := true
      pstart := s.cyccnt
      plimit := BitVec.ofNat 32 (watchdogCycles s.timeout.toNat s.inp.clkf.toNat)
      widx := 0
      bit := 0
      edge := .lead
      shr := 0x0000
      phase := .xRx }

/-- R226, R294, R291: X_RX tests completion, then expiry, then shifts one edge. -/
def Obligations.XRxCompletesExpiresOrShifts : Prop :=
  ∀ s : State, s.phase = .xRx →
    (s.widx = s.rxlen → stepController s = .next { s with
      rxcnt := s.rxlen, phase := .xRelease }) ∧
    (s.widx ≠ s.rxlen → s.plimit.toNat ≤ s.elapsed s.pstart →
      stepController s = .next { s with
        perr := .peripheralTimeout, rxcnt := 0, sck := s.par.cpol, edge := .lead, bit := 0,
        phase := .xRelease }) ∧
    (s.widx ≠ s.rxlen → s.elapsed s.pstart < s.plimit.toNat →
      stepController s = .next s.rxEdge)

/-- R151, R227, R228, R168: X_RELEASE deasserts CS and X_RESTORE goes back to transmit mode, reports PERR
and ends the command. -/
def Obligations.ReleaseThenRestore : Prop :=
  ∀ s : State,
    (s.phase = .xRelease → s.sel.toNat < s.par.numSlaves →
      stepController s = .next { s with
        csn := s.csn ||| BitVec.twoPow 4 s.sel.toNat, phase := .xRestore }) ∧
    (s.phase = .xRestore → stepController s = .next { s with
      dir := false, doe := true, err := s.perr, phase := .idle })

/-- R261, R262, R264, R265: the steps of a trigger: pattern on, CS asserted with the grace wait begun, CS
deasserted, pattern off. -/
def Obligations.TriggerPhaseSteps : Prop :=
  ∀ s : State,
    (s.phase = .tStart → stepController s = .next { s with ovr := true, phase := .tAssert }) ∧
    (s.phase = .tAssert → s.csn = 0b1111 → s.sel.toNat < s.par.numSlaves →
      stepController s = .next { s with
        csn := ~~~(BitVec.twoPow 4 s.sel.toNat)
        grace := BitVec.ofNat 32 (graceCycles s.inp.clkf.toNat)
        wstart := s.cyccnt
        phase := .tHold }) ∧
    (s.phase = .tRelease → s.sel.toNat < s.par.numSlaves →
      stepController s = .next { s with
        csn := s.csn ||| BitVec.twoPow 4 s.sel.toNat, phase := .tEnd }) ∧
    (s.phase = .tEnd → stepController s = .next { s with
      ovr := false, err := .ok, phase := .idle })

/-- 93_implementation_defined.md U1 (log 10): asserting a line while another one is asserted is
refused. -/
def Obligations.SecondChipSelectIsRefused : Prop :=
  ∀ (s : State) (k : Nat), s.phase = .xStart ∨ s.phase = .tAssert →
    k < s.par.numSlaves → k < 4 → k ≠ s.sel.toNat → s.csn.getLsbD k = false →
    stepController s = .refused .secondChipSelect

/-! ## Engines (40_engines.md) -/

/-- R140, R300: a tick adds one modulo 2^32 while CNT_EN = 1; with CNT_EN = 0 there is no step. -/
def Obligations.TickCountsWhileEnabled : Prop :=
  ∀ s : State,
    (s.cntEn = true → stepAgent .counter s = .next { s with cyccnt := s.cyccnt + 1 }) ∧
    (s.cntEn = false → stepAgent .counter s = .next s)

/-- R143: Elapsed(b) is `(CYCCNT - b) mod 2^32`, and after `k` ticks since CYCCNT held `b` it is `k`,
across one wrap. -/
def Obligations.ElapsedCountsTicks : Prop :=
  (∀ (s : State) (b : Word), (s.elapsed b : Int) = ((s.cyccnt.toNat : Int) - b.toNat) % 2 ^ 32) ∧
  (∀ (s : State) (ticks rest : List Turn), s.cntEn = true → s.agenda = ticks ++ rest →
    allCounter ticks → ticks.length < 2 ^ 32 →
    ∃ t, Host.Core.run core ticks.length s = .next t ∧ t.agenda = rest ∧
      t.elapsed s.cyccnt = ticks.length)

/-- R141, R142: GraceBegin writes exactly `ceil_div(5 * CLKF, 1000000)`, at most 21475, and the count at
which the wait begins. -/
def Obligations.GraceThresholdIsExact : Prop :=
  (∀ f : Nat, graceCycles f = (5 * f + 1000000 - 1) / 1000000) ∧
  (∀ f : Word, graceCycles f.toNat ≤ 21475) ∧
  graceCycles (2 ^ 32 - 1) = 21475 ∧
  (∀ s : State, s.graceBegin = { s with grace := s.graceBegin.grace, wstart := s.cyccnt } ∧
    s.graceBegin.grace.toNat = graceCycles s.inp.clkf.toNat)

/-- R145 (a) to (d): the threshold reaches 5 us, by less than one cycle; how it scales when the frequency
doubles; and 0 Hz waits for nothing. -/
def Obligations.GraceThresholdLaws : Prop :=
  (∀ f : Nat, 5 * f ≤ 1000000 * graceCycles f) ∧
  (∀ f : Nat, 1000000 * graceCycles f < 5 * f + 1000000) ∧
  (∀ f : Nat, 2 * f < 2 ^ 32 →
    (graceCycles (2 * f) = 2 * graceCycles f ↔ f % 200000 = 0 ∨ 100000 < f % 200000) ∧
    (¬(f % 200000 = 0 ∨ 100000 < f % 200000) →
      graceCycles (2 * f) = 2 * graceCycles f - 1)) ∧
  graceCycles 0 = 0

/-- R146, R147: ArmWatchdog writes exactly `min(ceil_div(TIMEOUT * CLKF, 1000), 2^32 - 1)` and the count
at which the phase begins; a limit of 0, which TIMEOUT = 0 or CLKF = 0 gives, has expired at once. -/
def Obligations.WatchdogLimitIsExact : Prop :=
  (∀ ms f : Nat, watchdogCycles ms f = min ((ms * f + 1000 - 1) / 1000) (2 ^ 32 - 1)) ∧
  (∀ s : State, s.armWatchdog = { s with pstart := s.cyccnt, plimit := s.armWatchdog.plimit } ∧
    s.armWatchdog.plimit.toNat = watchdogCycles s.timeout.toNat s.inp.clkf.toNat) ∧
  (∀ s : State, s.timeout = 0 ∨ s.inp.clkf = 0 →
    s.armWatchdog.plimit = 0 ∧ s.armWatchdog.expired = true)

/-- R158, R159: LoadTx and the four cases of TxEdge. -/
def Obligations.TxEdgeRule : Prop :=
  ∀ s : State,
    (∀ j, s.loadTx j = { s with
      shr := if j = 0 then s.txd0 else s.txd1, bit := 0, edge := .lead,
      dout := if s.par.cpha then s.dout
        else outBit s.par.lsbFirst (if j = 0 then s.txd0 else s.txd1) 0 }) ∧
    (s.edge = .lead → s.txEdge = { s with
      sck := !s.par.cpol, edge := .trail,
      dout := if s.par.cpha then outBit s.par.lsbFirst s.shr s.bit.toNat else s.dout }) ∧
    (s.edge = .trail → s.bit ≠ 15 → s.txEdge = { s with
      sck := s.par.cpol, edge := .lead, bit := s.bit + 1,
      dout := if s.par.cpha then s.dout
        else outBit s.par.lsbFirst s.shr (s.bit + 1).toNat }) ∧
    (s.edge = .trail → s.bit = 15 → (s.widx + 1).toNat < s.ntxw →
      s.txEdge = ({ s with
        sck := s.par.cpol, edge := .lead, bit := 0, widx := s.widx + 1 } : State).loadTx
          (s.widx + 1).toNat) ∧
    (s.edge = .trail → s.bit = 15 → s.ntxw ≤ (s.widx + 1).toNat → s.txEdge = { s with
      sck := s.par.cpol, edge := .lead, bit := 0, widx := s.widx + 1 })

/-- R160: the cases of RxEdge; it writes neither DOUT nor DOE. -/
def Obligations.RxEdgeRule : Prop :=
  ∀ s : State,
    (s.edge = .lead → s.rxEdge = { s with
      sck := !s.par.cpol, edge := .trail,
      shr := if s.par.cpha then s.shr else shiftIn s.par.lsbFirst s.shr s.inp.din }) ∧
    (s.edge = .trail → s.bit ≠ 15 → s.rxEdge = { s with
      sck := s.par.cpol, edge := .lead, bit := s.bit + 1,
      shr := if s.par.cpha then shiftIn s.par.lsbFirst s.shr s.inp.din else s.shr }) ∧
    (s.edge = .trail → s.bit = 15 → s.rxEdge = { s with
      sck := s.par.cpol, edge := .lead, bit := 0, widx := s.widx + 1,
      shr := if s.par.cpha then shiftIn s.par.lsbFirst s.shr s.inp.din else s.shr,
      rxbuf := s.rxbuf.set s.widx.toNat
        (if s.par.cpha then shiftIn s.par.lsbFirst s.shr s.inp.din else s.shr) })

/-- R156: ShiftIn puts the new bit at one end; after 16 calls of it the bits received stand in order,
the first in bit 15 (LSB_FIRST = 0) or in bit 0 (LSB_FIRST = 1), whatever SHR held before. -/
def Obligations.ReceivedBitsStandInOrder : Prop :=
  (∀ (r : Half) (b : Bool), shiftIn true r b = BitVec.ofBool b ++ r.extractLsb' 1 15 ∧
    shiftIn false r b = r.extractLsb' 0 15 ++ BitVec.ofBool b) ∧
  ∀ (lsb : Bool) (r : Half) (bits : List Bool) (i : Nat), bits.length = 16 → i < 16 →
    (bits.foldl (shiftIn lsb) r).getLsbD (if lsb then i else 15 - i) = bits.getD i false

/-- R155, R156: receiving the bits of a word in the order in which they are sent gives the word back, in
either wire order. -/
def Obligations.ReceivingWhatIsSentGivesTheWord : Prop :=
  ∀ (lsb : Bool) (w r : Half),
    ((List.range 16).map (outBit lsb w)).foldl (shiftIn lsb) r = w

/-- R161, R157, R158, R159, R223, R234: in X_TX, from the start of a word, before expiry, 32 controller
steps send one word: at the leading edge of bit `k` SCK is at its active level and DOUT is the word's
`k`-th bit on the wire. Then, if a word is left, TXD1 stands in SHR, with CPHA = 0 its first bit on DOUT
(the premise of this statement, so that two words chain); after the last word SHR and the last bit sent
stay. All else is as before, but for WIDX and the turns taken. The premise on DOUT is what LoadTx leaves
with CPHA = 0. -/
def Obligations.WordIsSentInThirtyTwoEdges : Prop :=
  ∀ (s : State) (ts rest : List Turn), s.phase = .xTx → s.edge = .lead → s.bit = 0 →
    s.widx.toNat < s.ntxw → s.elapsed s.pstart < s.plimit.toNat →
    (s.par.cpha = false → s.dout = outBit s.par.lsbFirst s.shr 0) →
    s.agenda = ts ++ rest → ts.length = 32 → allController ts →
    (∀ k, k < 16 → ∃ t, Host.Core.run core (2 * k + 1) s = .next t ∧
      t.sck = (!s.par.cpol) ∧ t.dout = outBit s.par.lsbFirst s.shr k) ∧
    ∃ t, Host.Core.run core 32 s = .next t ∧
      t = { s with
        agenda := rest, inp := t.inp, phase := .xTx, widx := s.widx + 1, bit := 0, edge := .lead,
        sck := s.par.cpol, shr := t.shr, dout := t.dout } ∧
      (s.widx.toNat + 1 < s.ntxw → t.shr = s.txd1 ∧
        t.dout = if s.par.cpha then outBit s.par.lsbFirst s.shr 15
          else outBit s.par.lsbFirst t.shr 0) ∧
      (s.widx.toNat + 1 = s.ntxw → t.shr = s.shr ∧
        t.dout = outBit s.par.lsbFirst s.shr 15)

/-- R161, R157, R226: in X_RX, from the start of a word, before expiry, 32 controller steps receive one
word: RXBUF[WIDX] holds the bits of DIN sampled at the 16 edges that CPHA names, no other entry changes,
and the next word stands ready. -/
def Obligations.WordIsReceivedInThirtyTwoEdges : Prop :=
  ∀ (s : State) (ts rest : List Turn), s.phase = .xRx → s.edge = .lead → s.bit = 0 →
    s.widx.toNat < s.rxlen.toNat → s.widx.toNat < s.rxbuf.length →
    s.elapsed s.pstart < s.plimit.toNat →
    s.agenda = ts ++ rest → ts.length = 32 → allController ts →
    ∃ t, Host.Core.run core 32 s = .next t ∧ t.agenda = rest ∧ t.phase = .xRx ∧
      t.rxWord s.widx.toNat = ((List.range 16).map fun k =>
        dinAt ts (2 * k + s.par.cpha.toNat)).foldl (shiftIn s.par.lsbFirst) s.shr ∧
      (∀ j, j ≠ s.widx.toNat → t.rxWord j = s.rxWord j) ∧
      t.widx = s.widx + 1 ∧ t.bit = 0 ∧ t.edge = .lead ∧ t.sck = s.par.cpol ∧
      t.dout = s.dout ∧ t.doe = s.doe

/-! ## The register window (20_memory.md) -/

/-- R81: WSPAN is the least power of two that is at least 0x100 + 4 * RX_DEPTH, BASE is a multiple of
it, and an access is at offset `addr - BASE` inside the window and does not reach the block outside it:
the block's state is unchanged, and a read's data is a free value (log 8). -/
def Obligations.WindowIsWspanBytesAtBase : Prop :=
  ∀ p : Params,
    (0x100 + 4 * p.rxDepth ≤ wspan p ∧ (∃ e, wspan p = 2 ^ e) ∧
      ∀ e, 0x100 + 4 * p.rxDepth ≤ 2 ^ e → wspan p ≤ 2 ^ e) ∧
    (p.rxDepth = 64 → wspan p = 0x200) ∧
    base p % wspan p = 0 ∧
    (∀ off, off < wspan p → offsetOf p (.address (base p + off)) = some off) ∧
    (∀ a, a < base p ∨ base p + wspan p ≤ a → offsetOf p (.address a) = none) ∧
    (∀ (s : State) (tgt : Target) (w : Width) (k : Direction), s.par = p →
      offsetOf p tgt = none →
      ∃ rdata draws, stepHost ⟨tgt, w, k⟩ s = .next { s with rdata := rdata, draws := draws })

/-- R96: an access of 8 or 16 bits, or at an offset that is no multiple of 4, is refused; every 32-bit
access at a multiple of 4 is answered. -/
def Obligations.OddAccessIsRefused : Prop :=
  ∀ (s : State) (tgt : Target) (w : Width) (k : Direction) (off : Nat),
    offsetOf s.par tgt = some off →
    (w ≠ .word ∨ off % 4 ≠ 0 → ∃ r, stepHost ⟨tgt, w, k⟩ s = .refused r) ∧
    (w = .word → off % 4 = 0 → ∃ t, stepHost ⟨tgt, w, k⟩ s = .next t)

/-- R98: a read at any offset of the window changes no state of the block; the host has the value of the
register there. -/
def Obligations.ReadHasNoSideEffect : Prop :=
  ∀ (s : State) (off : Nat) (inp : Inputs) (rest : List Turn),
    s.agenda = readTurn off inp :: rest → off < wspan s.par → off % 4 = 0 →
    step s = .next { s with
      agenda := rest
      inp := inp
      rdata := some (({ s with inp := inp } : State).readReg (regAt s.par off)) }

/-- R84, R87 to R95: what a read returns at each offset of the map. -/
def Obligations.ReadsReturnTheRegisters : Prop :=
  ∀ s : State,
    s.readReg (regAt s.par 0x000) = s.lastcmd ∧
    s.readReg (regAt s.par 0x004) = s.statusWord ∧
    s.readReg (regAt s.par 0x008) = s.txd0.setWidth 32 ∧
    s.readReg (regAt s.par 0x00C) = s.txd1.setWidth 32 ∧
    s.readReg (regAt s.par 0x010) = s.rxcnt.setWidth 32 ∧
    s.readReg (regAt s.par 0x014) = s.grace ∧
    s.readReg (regAt s.par 0x018) = s.timeout ∧
    s.readReg (regAt s.par 0x01C) = s.cyccnt ∧
    s.readReg (regAt s.par 0x020) = s.inp.clkf ∧
    s.readReg (regAt s.par 0x024) = paramWord s.par ∧
    (∀ j, j < s.par.rxDepth →
      s.readReg (regAt s.par (0x100 + 4 * j)) = (s.rxWord j).setWidth 32) ∧
    (∀ off, (0x028 ≤ off ∧ off ≤ 0x0FC) ∨ 0x100 + 4 * s.par.rxDepth ≤ off →
      off % 4 = 0 → s.readReg (regAt s.par off) = 0)

/-- R85: the fields of STATUS. -/
def Obligations.StatusFields : Prop :=
  ∀ s : State,
    s.statusWord.getLsbD 0 = s.busy ∧ s.statusWord.getLsbD 1 = s.init ∧
    s.statusWord.getLsbD 2 = s.dir ∧ s.statusWord.getLsbD 3 = s.selv ∧
    s.statusWord.extractLsb' 4 2 = s.sel ∧ s.statusWord.getLsbD 6 = s.cav ∧
    s.statusWord.getLsbD 7 = s.ovr ∧ s.statusWord.extractLsb' 8 4 = s.err.code ∧
    s.statusWord.extractLsb' 12 4 = s.phase.code ∧
    (∀ k, k < 4 → s.statusWord.getLsbD (16 + k) = (s.csDrv && !s.csLevel k)) ∧
    s.statusWord.getLsbD 20 = s.csDrv ∧ s.statusWord.getLsbD 21 = s.doe ∧
    s.statusWord.getLsbD 22 = s.sckDrv ∧ s.statusWord.extractLsb' 23 9 = 0 ∧
    (s.HasResetValues → s.statusWord = 0x00000000)

/-- R93: the fields of PARAM, for parameters in their ranges, and its default value. -/
def Obligations.ParamFields : Prop :=
  (∀ p : Params, p.wf = true →
    ((paramWord p).extractLsb' 0 3).toNat = p.numSlaves ∧ (paramWord p).getLsbD 3 = p.cpol ∧
    (paramWord p).getLsbD 4 = p.cpha ∧ (paramWord p).getLsbD 5 = p.lsbFirst ∧
    (paramWord p).getLsbD 6 = (p.wiring == .fourWire) ∧ (paramWord p).extractLsb' 7 9 = 0 ∧
    ((paramWord p).extractLsb' 16 16).toNat = p.rxDepth) ∧
  paramWord Params.default = 0x00400014

/-- R83, R86, R87, R90, R95: what a write does at each offset other than CMD: STATUS bit 6 clears CAV
whether BUSY is 0 or 1; TXDATA0, TXDATA1 and TIMEOUT take the value while BUSY = 0; every other write is
ignored. -/
def Obligations.WritesReachOnlyTheirRegister : Prop :=
  ∀ (s : State) (v : Word),
    (v.getLsbD 6 = true → hostWrite 0x004 v s = .next { s with cav := false }) ∧
    (v.getLsbD 6 = false → hostWrite 0x004 v s = .next s) ∧
    (s.busy = false → hostWrite 0x008 v s = .next { s with txd0 := v.setWidth 16 }) ∧
    (s.busy = false → hostWrite 0x00C v s = .next { s with txd1 := v.setWidth 16 }) ∧
    (s.busy = false → hostWrite 0x018 v s = .next { s with timeout := v }) ∧
    (∀ off, off ≠ 0x000 → off ≠ 0x004 → off ≠ 0x008 → off ≠ 0x00C → off ≠ 0x018 →
      hostWrite off v s = .next s)

/-- R54: the pins as functions of the state. -/
def Obligations.PinsFollowTheState : Prop :=
  ∀ s : State,
    (∀ k, k < s.par.numSlaves → s.csDrv = false → s.pinCsN k = some .z) ∧
    (∀ k, k < s.par.numSlaves → s.csDrv = true →
      s.pinCsN k = some (Level.ofBool (s.csn.getLsbD k))) ∧
    (∀ k, s.par.numSlaves ≤ k → s.pinCsN k = none) ∧
    (s.ovr = true → s.pinSck = .low ∧ s.pinSdio = .high) ∧
    (s.ovr = false → s.sckDrv = true → s.pinSck = Level.ofBool s.sck) ∧
    (s.ovr = false → s.sckDrv = false → s.pinSck = .z) ∧
    (s.ovr = false → s.doe = true → s.pinSdio = Level.ofBool s.dout) ∧
    (s.ovr = false → s.doe = false → s.pinSdio = .z) ∧
    s.pinDin = s.inp.din

/-! ## Reset and invariants (10_state.md R59, 70_reset_and_hazards.md) -/

/-- R59, R320: reset leaves every element at the value the spec states, at State.reset and after a reset
turn in any state. -/
def Obligations.ResetLeavesTheSpecsValues : Prop :=
  State.reset.HasResetValues ∧
  State.reset.timeout = 0x00000064 ∧
  ∀ (s : State) (inp : Inputs) (rest : List Turn), s.agenda = ⟨.reset, inp⟩ :: rest →
    ∃ t, step s = .next t ∧ t.HasResetValues ∧ t.par = s.par ∧
      t.rxbuf.length = s.par.rxDepth

/-- R321: after reset no output is driven, STATUS reads 0, and PARAM reads its parameter value. -/
def Obligations.NoOutputIsDrivenAfterReset : Prop :=
  (∀ s : State, s.HasResetValues →
    (∀ k, k < s.par.numSlaves → s.pinCsN k = some .z) ∧ s.pinSck = .z ∧ s.pinSdio = .z ∧
    s.readReg (regAt s.par 0x004) = 0x00000000 ∧
    s.readReg (regAt s.par 0x024) = paramWord s.par) ∧
  State.reset.readReg (regAt State.reset.par 0x024) = 0x00400014

/-- R326: the invariants hold after reset. -/
def Obligations.ResetMeetsTheInvariants : Prop := State.reset.Inv

/-- R326: every step of every agent keeps the invariants I1 to I11. -/
def Obligations.EveryStepKeepsTheInvariants : Prop :=
  ∀ s t : State, s.Inv → step s = .next t → t.Inv

/-- R327: from a state with the invariants no step is refused for a second chip-select: CsAssert runs only
with every CSN bit 1. -/
def Obligations.SecondChipSelectIsUnreachable : Prop :=
  ∀ s : State, s.Inv → step s ≠ .refused .secondChipSelect

/-- R153: at most one chip-select line is active. -/
def Obligations.AtMostOneChipSelectIsActive : Prop :=
  ∀ s : State, s.Inv → ∀ j k, j < 4 → k < 4 →
    s.csActive j = true → s.csActive k = true → j = k

/-- R154: no step changes a CSN bit of a slave other than the bound one, and CSN changes at all only at
reset and in the four phases that assert or deassert (INIT finds every bit 1 already). -/
def Obligations.OtherChipSelectsNeverToggle : Prop :=
  ∀ s t : State, s.Inv → step s = .next t →
    (∀ k, k < 4 → k ≠ s.sel.toNat → t.csn.getLsbD k = s.csn.getLsbD k) ∧
    (t.csn ≠ s.csn → s.nextTurn.agent = .reset ∨ (s.nextTurn.agent = .controller ∧
      (s.phase = .xStart ∨ s.phase = .xRelease ∨ s.phase = .tAssert ∨ s.phase = .tRelease)))

/-- R163: the direction goes to receive only in X_DIRSW with CS asserted, and back to transmit only in
X_RESTORE with CS deasserted, or at a reset in mid-command (R320). -/
def Obligations.DirectionSwitchesOnlyInItsPhases : Prop :=
  ∀ s t : State, s.Inv → step s = .next t →
    (s.dir = false → t.dir = true →
      s.nextTurn.agent = .controller ∧ s.phase = .xDirsw ∧ s.csn.getLsbD s.sel.toNat = false ∧
      t.csn = s.csn) ∧
    (s.dir = true → t.dir = false →
      (s.nextTurn.agent = .controller ∧ s.phase = .xRestore ∧ s.csn = 0b1111) ∨
      s.nextTurn.agent = .reset)

/-- R104, R36: TXD0 and TXD1, and the latched RXLEN and LDATA, cannot change while BUSY, except by
reset. -/
def Obligations.TransmitWordsAreFixedWhileBusy : Prop :=
  ∀ s t : State, s.busy = true → s.nextTurn.agent ≠ .reset → step s = .next t →
    t.txd0 = s.txd0 ∧ t.txd1 = s.txd1 ∧ t.rxlen = s.rxlen ∧ t.ldata = s.ldata ∧
    t.timeout = s.timeout ∧ t.sel = s.sel ∧ t.lastcmd = s.lastcmd

/-- R175: CLKF is read only in GraceBegin (the end of X_TX, T_ASSERT), in ArmWatchdog (X_START, X_DIRSW)
and by a CLKFREQ read: every other step of an agent does the same whatever CLKF is. -/
def Obligations.ClkfIsReadOnlyAtItsReaders : Prop :=
  ∀ (s : State) (a : Agent) (f : Word),
    ¬(a = .controller ∧ (s.phase = .xStart ∨ s.phase = .xDirsw ∨ s.phase = .tAssert ∨
      (s.phase = .xTx ∧ s.widx.toNat = s.ntxw))) →
    (∀ tgt w, a = .host ⟨tgt, w, .read⟩ → offsetOf s.par tgt ≠ some 0x020) →
    stepAgent a { s with inp := { s.inp with clkf := f } } =
      andThen (stepAgent a s) fun t => { t with inp := { s.inp with clkf := f } }

/-- R176, R160: DIN is sampled only by the edge of the receive phase that CPHA names: every other step of
an agent does the same whatever DIN is. -/
def Obligations.DinIsReadOnlyWhereSampled : Prop :=
  ∀ (s : State) (a : Agent) (b : Bool),
    ¬(a = .controller ∧ s.phase = .xRx ∧ s.widx ≠ s.rxlen ∧ s.expired = false ∧
      (s.edge = .trail ↔ s.par.cpha = true)) →
    stepAgent a { s with inp := { s.inp with din := b } } =
      andThen (stepAgent a s) fun t => { t with inp := { s.inp with din := b } }

/-! ## Whole commands -/

/-- R169 (c), R229 (e), R291, R293: whenever the controller ends a command, the bus is in its safe idle
state. -/
def Obligations.EveryCommandEndsSafelyIdle : Prop :=
  ∀ s t : State, s.Inv → s.busy = true → s.nextTurn.agent = .controller → step s = .next t →
    t.busy = false → t.safeIdle

/-- R282, R291, R230, R235: an expired, incomplete transmit or receive phase ends after three controller
steps in the safe idle state with ERR = 1 and RXCNT = 0, the binding and RXBUF unchanged (log 12), and
the next XFER that fits is accepted. -/
def Obligations.TimeoutAbortsAndRecovers : Prop :=
  ∀ (s : State) (t1 t2 t3 : Turn) (rest : List Turn), s.Inv →
    s.agenda = t1 :: t2 :: t3 :: rest → allController [t1, t2, t3] →
    ((s.phase = .xTx ∧ s.widx.toNat < s.ntxw) ∨
      (s.phase = .xRx ∧ s.widx.toNat < s.rxlen.toNat)) →
    s.plimit.toNat ≤ s.elapsed s.pstart →
    ∃ t, Host.Core.run core 3 s = .next t ∧ t.safeIdle ∧ t.agenda = rest ∧
      t.err = .peripheralTimeout ∧ t.rxcnt = 0 ∧ t.selv = true ∧ t.sel = s.sel ∧
      t.sck = s.par.cpol ∧ t.rxbuf = s.rxbuf ∧
      ∀ (d : Bool) (n : Nat), n ≤ s.par.rxDepth →
        ∃ u, exec (.xfer d n) t = .next u ∧ u.phase = .xStart ∧ u.err = .ok

/-- R266, R345: a started TRIG whose hold sees the ticks that CLKF at T_ASSERT asks for ends after five
controller steps in the safe idle state with ERR = 0; in the hold CS is low with the pattern on the pins,
and no word register is touched. -/
def Obligations.TriggerRunsToItsEnd : Prop :=
  ∀ (s : State) (t1 t2 t3 t4 t5 : Turn) (ticks rest : List Turn), s.Inv → s.phase = .tStart →
    allController [t1, t2, t3, t4, t5] → allCounter ticks →
    ticks.length = graceCycles t2.inp.clkf.toNat →
    s.agenda = t1 :: t2 :: (ticks ++ t3 :: t4 :: t5 :: rest) →
    (∃ h, Host.Core.run core (2 + ticks.length) s = .next h ∧ h.phase = .tHold ∧
      h.csn = ~~~(BitVec.twoPow 4 s.sel.toNat) ∧ h.pinSck = .low ∧ h.pinSdio = .high) ∧
    ∃ t, Host.Core.run core (5 + ticks.length) s = .next t ∧ t.safeIdle ∧ t.err = .ok ∧
      t.agenda = rest ∧ t.grace.toNat = graceCycles t2.inp.clkf.toNat ∧
      t.rxbuf = s.rxbuf ∧ t.rxcnt = s.rxcnt ∧ t.txd0 = s.txd0 ∧ t.txd1 = s.txd1

/-- R229, R230, R231: a started transaction, with CLKF = f > 0 and TIMEOUT > 0, whose controller is not
overtaken by the watchdog (no tick falls in its shift phases) and whose grace wait sees its ticks, takes
`1 + 32 * NTXW + 1 + 1 + 1 + 32 * RXLEN + 3` controller steps and ends in the safe idle state with
ERR = 0, RXCNT = RXLEN and RXBUF[0..RXLEN-1] holding the words received, in order: entry `j` the 16 levels
of DIN at the edges of word `j` that CPHA names, the first two turns of `rx` being those of X_GRACE and
X_DIRSW. No other entry changes (R39). -/
def Obligations.TransactionRunsToItsEnd : Prop :=
  ∀ (s : State) (f : Word) (tx ticks rx rest : List Turn), s.Inv → s.phase = .xStart →
    0 < f.toNat → 0 < s.timeout.toNat →
    allController tx → clkfIs f tx → tx.length = 1 + 32 * s.ntxw + 1 →
    allCounter ticks → ticks.length = graceCycles f.toNat →
    allController rx → clkfIs f rx → rx.length = 1 + 1 + 32 * s.rxlen.toNat + 3 →
    s.agenda = tx ++ (ticks ++ (rx ++ rest)) →
    ∃ t, Host.Core.run core (tx.length + (ticks.length + rx.length)) s = .next t ∧
      t.safeIdle ∧ t.err = .ok ∧ t.rxcnt = s.rxlen ∧ t.agenda = rest ∧
      (∀ j, j < s.rxlen.toNat → t.rxWord j = ((List.range 16).map fun k =>
        dinAt rx (2 + 32 * j + 2 * k + s.par.cpha.toNat)).foldl (shiftIn s.par.lsbFirst) 0) ∧
      (∀ j, s.rxlen.toNat ≤ j → t.rxWord j = s.rxWord j) ∧
      t.grace.toNat = graceCycles f.toNat ∧ t.sel = s.sel ∧ t.selv = true ∧
      t.lastcmd = s.lastcmd ∧ t.sck = s.par.cpol
end

