-- ==== Sys2Proof/Laws/State.lean ====
section
/-! SUPPORT. What each named update does to each field of State, so that no proof unfolds a record update. -/

namespace Sys2Proof.Machine

variable (s : State)

/-! ## `setErr` -/

@[simp] theorem State.setErr_par (e : ErrCode) : (s.setErr e).par = s.par := rfl
@[simp] theorem State.setErr_init (e : ErrCode) : (s.setErr e).init = s.init := rfl
@[simp] theorem State.setErr_selv (e : ErrCode) : (s.setErr e).selv = s.selv := rfl
@[simp] theorem State.setErr_sel (e : ErrCode) : (s.setErr e).sel = s.sel := rfl
@[simp] theorem State.setErr_dir (e : ErrCode) : (s.setErr e).dir = s.dir := rfl
@[simp] theorem State.setErr_err (e : ErrCode) : (s.setErr e).err = e := rfl
@[simp] theorem State.setErr_cav (e : ErrCode) : (s.setErr e).cav = s.cav := rfl
@[simp] theorem State.setErr_phase (e : ErrCode) : (s.setErr e).phase = s.phase := rfl
@[simp] theorem State.setErr_lastcmd (e : ErrCode) : (s.setErr e).lastcmd = s.lastcmd := rfl
@[simp] theorem State.setErr_timeout (e : ErrCode) : (s.setErr e).timeout = s.timeout := rfl
@[simp] theorem State.setErr_grace (e : ErrCode) : (s.setErr e).grace = s.grace := rfl
@[simp] theorem State.setErr_rxcnt (e : ErrCode) : (s.setErr e).rxcnt = s.rxcnt := rfl
@[simp] theorem State.setErr_txd0 (e : ErrCode) : (s.setErr e).txd0 = s.txd0 := rfl
@[simp] theorem State.setErr_txd1 (e : ErrCode) : (s.setErr e).txd1 = s.txd1 := rfl
@[simp] theorem State.setErr_rxbuf (e : ErrCode) : (s.setErr e).rxbuf = s.rxbuf := rfl
@[simp] theorem State.setErr_cyccnt (e : ErrCode) : (s.setErr e).cyccnt = s.cyccnt := rfl
@[simp] theorem State.setErr_cntEn (e : ErrCode) : (s.setErr e).cntEn = s.cntEn := rfl
@[simp] theorem State.setErr_rxlen (e : ErrCode) : (s.setErr e).rxlen = s.rxlen := rfl
@[simp] theorem State.setErr_ldata (e : ErrCode) : (s.setErr e).ldata = s.ldata := rfl
@[simp] theorem State.setErr_wstart (e : ErrCode) : (s.setErr e).wstart = s.wstart := rfl
@[simp] theorem State.setErr_pstart (e : ErrCode) : (s.setErr e).pstart = s.pstart := rfl
@[simp] theorem State.setErr_plimit (e : ErrCode) : (s.setErr e).plimit = s.plimit := rfl
@[simp] theorem State.setErr_shr (e : ErrCode) : (s.setErr e).shr = s.shr := rfl
@[simp] theorem State.setErr_bit (e : ErrCode) : (s.setErr e).bit = s.bit := rfl
@[simp] theorem State.setErr_edge (e : ErrCode) : (s.setErr e).edge = s.edge := rfl
@[simp] theorem State.setErr_widx (e : ErrCode) : (s.setErr e).widx = s.widx := rfl
@[simp] theorem State.setErr_perr (e : ErrCode) : (s.setErr e).perr = s.perr := rfl
@[simp] theorem State.setErr_ovr (e : ErrCode) : (s.setErr e).ovr = s.ovr := rfl
@[simp] theorem State.setErr_csn (e : ErrCode) : (s.setErr e).csn = s.csn := rfl
@[simp] theorem State.setErr_csDrv (e : ErrCode) : (s.setErr e).csDrv = s.csDrv := rfl
@[simp] theorem State.setErr_sck (e : ErrCode) : (s.setErr e).sck = s.sck := rfl
@[simp] theorem State.setErr_sckDrv (e : ErrCode) : (s.setErr e).sckDrv = s.sckDrv := rfl
@[simp] theorem State.setErr_dout (e : ErrCode) : (s.setErr e).dout = s.dout := rfl
@[simp] theorem State.setErr_doe (e : ErrCode) : (s.setErr e).doe = s.doe := rfl
@[simp] theorem State.setErr_inp (e : ErrCode) : (s.setErr e).inp = s.inp := rfl
@[simp] theorem State.setErr_agenda (e : ErrCode) : (s.setErr e).agenda = s.agenda := rfl
@[simp] theorem State.setErr_draws (e : ErrCode) : (s.setErr e).draws = s.draws := rfl
@[simp] theorem State.setErr_rdata (e : ErrCode) : (s.setErr e).rdata = s.rdata := rfl

/-! ## `setPhase` -/

@[simp] theorem State.setPhase_par (p : Phase) : (s.setPhase p).par = s.par := rfl
@[simp] theorem State.setPhase_init (p : Phase) : (s.setPhase p).init = s.init := rfl
@[simp] theorem State.setPhase_selv (p : Phase) : (s.setPhase p).selv = s.selv := rfl
@[simp] theorem State.setPhase_sel (p : Phase) : (s.setPhase p).sel = s.sel := rfl
@[simp] theorem State.setPhase_dir (p : Phase) : (s.setPhase p).dir = s.dir := rfl
@[simp] theorem State.setPhase_err (p : Phase) : (s.setPhase p).err = s.err := rfl
@[simp] theorem State.setPhase_cav (p : Phase) : (s.setPhase p).cav = s.cav := rfl
@[simp] theorem State.setPhase_phase (p : Phase) : (s.setPhase p).phase = p := rfl
@[simp] theorem State.setPhase_lastcmd (p : Phase) : (s.setPhase p).lastcmd = s.lastcmd := rfl
@[simp] theorem State.setPhase_timeout (p : Phase) : (s.setPhase p).timeout = s.timeout := rfl
@[simp] theorem State.setPhase_grace (p : Phase) : (s.setPhase p).grace = s.grace := rfl
@[simp] theorem State.setPhase_rxcnt (p : Phase) : (s.setPhase p).rxcnt = s.rxcnt := rfl
@[simp] theorem State.setPhase_txd0 (p : Phase) : (s.setPhase p).txd0 = s.txd0 := rfl
@[simp] theorem State.setPhase_txd1 (p : Phase) : (s.setPhase p).txd1 = s.txd1 := rfl
@[simp] theorem State.setPhase_rxbuf (p : Phase) : (s.setPhase p).rxbuf = s.rxbuf := rfl
@[simp] theorem State.setPhase_cyccnt (p : Phase) : (s.setPhase p).cyccnt = s.cyccnt := rfl
@[simp] theorem State.setPhase_cntEn (p : Phase) : (s.setPhase p).cntEn = s.cntEn := rfl
@[simp] theorem State.setPhase_rxlen (p : Phase) : (s.setPhase p).rxlen = s.rxlen := rfl
@[simp] theorem State.setPhase_ldata (p : Phase) : (s.setPhase p).ldata = s.ldata := rfl
@[simp] theorem State.setPhase_wstart (p : Phase) : (s.setPhase p).wstart = s.wstart := rfl
@[simp] theorem State.setPhase_pstart (p : Phase) : (s.setPhase p).pstart = s.pstart := rfl
@[simp] theorem State.setPhase_plimit (p : Phase) : (s.setPhase p).plimit = s.plimit := rfl
@[simp] theorem State.setPhase_shr (p : Phase) : (s.setPhase p).shr = s.shr := rfl
@[simp] theorem State.setPhase_bit (p : Phase) : (s.setPhase p).bit = s.bit := rfl
@[simp] theorem State.setPhase_edge (p : Phase) : (s.setPhase p).edge = s.edge := rfl
@[simp] theorem State.setPhase_widx (p : Phase) : (s.setPhase p).widx = s.widx := rfl
@[simp] theorem State.setPhase_perr (p : Phase) : (s.setPhase p).perr = s.perr := rfl
@[simp] theorem State.setPhase_ovr (p : Phase) : (s.setPhase p).ovr = s.ovr := rfl
@[simp] theorem State.setPhase_csn (p : Phase) : (s.setPhase p).csn = s.csn := rfl
@[simp] theorem State.setPhase_csDrv (p : Phase) : (s.setPhase p).csDrv = s.csDrv := rfl
@[simp] theorem State.setPhase_sck (p : Phase) : (s.setPhase p).sck = s.sck := rfl
@[simp] theorem State.setPhase_sckDrv (p : Phase) : (s.setPhase p).sckDrv = s.sckDrv := rfl
@[simp] theorem State.setPhase_dout (p : Phase) : (s.setPhase p).dout = s.dout := rfl
@[simp] theorem State.setPhase_doe (p : Phase) : (s.setPhase p).doe = s.doe := rfl
@[simp] theorem State.setPhase_inp (p : Phase) : (s.setPhase p).inp = s.inp := rfl
@[simp] theorem State.setPhase_agenda (p : Phase) : (s.setPhase p).agenda = s.agenda := rfl
@[simp] theorem State.setPhase_draws (p : Phase) : (s.setPhase p).draws = s.draws := rfl
@[simp] theorem State.setPhase_rdata (p : Phase) : (s.setPhase p).rdata = s.rdata := rfl

/-! ## `setCav` -/

@[simp] theorem State.setCav_par (b : Bool) : (s.setCav b).par = s.par := rfl
@[simp] theorem State.setCav_init (b : Bool) : (s.setCav b).init = s.init := rfl
@[simp] theorem State.setCav_selv (b : Bool) : (s.setCav b).selv = s.selv := rfl
@[simp] theorem State.setCav_sel (b : Bool) : (s.setCav b).sel = s.sel := rfl
@[simp] theorem State.setCav_dir (b : Bool) : (s.setCav b).dir = s.dir := rfl
@[simp] theorem State.setCav_err (b : Bool) : (s.setCav b).err = s.err := rfl
@[simp] theorem State.setCav_cav (b : Bool) : (s.setCav b).cav = b := rfl
@[simp] theorem State.setCav_phase (b : Bool) : (s.setCav b).phase = s.phase := rfl
@[simp] theorem State.setCav_lastcmd (b : Bool) : (s.setCav b).lastcmd = s.lastcmd := rfl
@[simp] theorem State.setCav_timeout (b : Bool) : (s.setCav b).timeout = s.timeout := rfl
@[simp] theorem State.setCav_grace (b : Bool) : (s.setCav b).grace = s.grace := rfl
@[simp] theorem State.setCav_rxcnt (b : Bool) : (s.setCav b).rxcnt = s.rxcnt := rfl
@[simp] theorem State.setCav_txd0 (b : Bool) : (s.setCav b).txd0 = s.txd0 := rfl
@[simp] theorem State.setCav_txd1 (b : Bool) : (s.setCav b).txd1 = s.txd1 := rfl
@[simp] theorem State.setCav_rxbuf (b : Bool) : (s.setCav b).rxbuf = s.rxbuf := rfl
@[simp] theorem State.setCav_cyccnt (b : Bool) : (s.setCav b).cyccnt = s.cyccnt := rfl
@[simp] theorem State.setCav_cntEn (b : Bool) : (s.setCav b).cntEn = s.cntEn := rfl
@[simp] theorem State.setCav_rxlen (b : Bool) : (s.setCav b).rxlen = s.rxlen := rfl
@[simp] theorem State.setCav_ldata (b : Bool) : (s.setCav b).ldata = s.ldata := rfl
@[simp] theorem State.setCav_wstart (b : Bool) : (s.setCav b).wstart = s.wstart := rfl
@[simp] theorem State.setCav_pstart (b : Bool) : (s.setCav b).pstart = s.pstart := rfl
@[simp] theorem State.setCav_plimit (b : Bool) : (s.setCav b).plimit = s.plimit := rfl
@[simp] theorem State.setCav_shr (b : Bool) : (s.setCav b).shr = s.shr := rfl
@[simp] theorem State.setCav_bit (b : Bool) : (s.setCav b).bit = s.bit := rfl
@[simp] theorem State.setCav_edge (b : Bool) : (s.setCav b).edge = s.edge := rfl
@[simp] theorem State.setCav_widx (b : Bool) : (s.setCav b).widx = s.widx := rfl
@[simp] theorem State.setCav_perr (b : Bool) : (s.setCav b).perr = s.perr := rfl
@[simp] theorem State.setCav_ovr (b : Bool) : (s.setCav b).ovr = s.ovr := rfl
@[simp] theorem State.setCav_csn (b : Bool) : (s.setCav b).csn = s.csn := rfl
@[simp] theorem State.setCav_csDrv (b : Bool) : (s.setCav b).csDrv = s.csDrv := rfl
@[simp] theorem State.setCav_sck (b : Bool) : (s.setCav b).sck = s.sck := rfl
@[simp] theorem State.setCav_sckDrv (b : Bool) : (s.setCav b).sckDrv = s.sckDrv := rfl
@[simp] theorem State.setCav_dout (b : Bool) : (s.setCav b).dout = s.dout := rfl
@[simp] theorem State.setCav_doe (b : Bool) : (s.setCav b).doe = s.doe := rfl
@[simp] theorem State.setCav_inp (b : Bool) : (s.setCav b).inp = s.inp := rfl
@[simp] theorem State.setCav_agenda (b : Bool) : (s.setCav b).agenda = s.agenda := rfl
@[simp] theorem State.setCav_draws (b : Bool) : (s.setCav b).draws = s.draws := rfl
@[simp] theorem State.setCav_rdata (b : Bool) : (s.setCav b).rdata = s.rdata := rfl

/-! ## `setLastcmd` -/

@[simp] theorem State.setLastcmd_par (w : Word) : (s.setLastcmd w).par = s.par := rfl
@[simp] theorem State.setLastcmd_init (w : Word) : (s.setLastcmd w).init = s.init := rfl
@[simp] theorem State.setLastcmd_selv (w : Word) : (s.setLastcmd w).selv = s.selv := rfl
@[simp] theorem State.setLastcmd_sel (w : Word) : (s.setLastcmd w).sel = s.sel := rfl
@[simp] theorem State.setLastcmd_dir (w : Word) : (s.setLastcmd w).dir = s.dir := rfl
@[simp] theorem State.setLastcmd_err (w : Word) : (s.setLastcmd w).err = s.err := rfl
@[simp] theorem State.setLastcmd_cav (w : Word) : (s.setLastcmd w).cav = s.cav := rfl
@[simp] theorem State.setLastcmd_phase (w : Word) : (s.setLastcmd w).phase = s.phase := rfl
@[simp] theorem State.setLastcmd_lastcmd (w : Word) : (s.setLastcmd w).lastcmd = w := rfl
@[simp] theorem State.setLastcmd_timeout (w : Word) : (s.setLastcmd w).timeout = s.timeout := rfl
@[simp] theorem State.setLastcmd_grace (w : Word) : (s.setLastcmd w).grace = s.grace := rfl
@[simp] theorem State.setLastcmd_rxcnt (w : Word) : (s.setLastcmd w).rxcnt = s.rxcnt := rfl
@[simp] theorem State.setLastcmd_txd0 (w : Word) : (s.setLastcmd w).txd0 = s.txd0 := rfl
@[simp] theorem State.setLastcmd_txd1 (w : Word) : (s.setLastcmd w).txd1 = s.txd1 := rfl
@[simp] theorem State.setLastcmd_rxbuf (w : Word) : (s.setLastcmd w).rxbuf = s.rxbuf := rfl
@[simp] theorem State.setLastcmd_cyccnt (w : Word) : (s.setLastcmd w).cyccnt = s.cyccnt := rfl
@[simp] theorem State.setLastcmd_cntEn (w : Word) : (s.setLastcmd w).cntEn = s.cntEn := rfl
@[simp] theorem State.setLastcmd_rxlen (w : Word) : (s.setLastcmd w).rxlen = s.rxlen := rfl
@[simp] theorem State.setLastcmd_ldata (w : Word) : (s.setLastcmd w).ldata = s.ldata := rfl
@[simp] theorem State.setLastcmd_wstart (w : Word) : (s.setLastcmd w).wstart = s.wstart := rfl
@[simp] theorem State.setLastcmd_pstart (w : Word) : (s.setLastcmd w).pstart = s.pstart := rfl
@[simp] theorem State.setLastcmd_plimit (w : Word) : (s.setLastcmd w).plimit = s.plimit := rfl
@[simp] theorem State.setLastcmd_shr (w : Word) : (s.setLastcmd w).shr = s.shr := rfl
@[simp] theorem State.setLastcmd_bit (w : Word) : (s.setLastcmd w).bit = s.bit := rfl
@[simp] theorem State.setLastcmd_edge (w : Word) : (s.setLastcmd w).edge = s.edge := rfl
@[simp] theorem State.setLastcmd_widx (w : Word) : (s.setLastcmd w).widx = s.widx := rfl
@[simp] theorem State.setLastcmd_perr (w : Word) : (s.setLastcmd w).perr = s.perr := rfl
@[simp] theorem State.setLastcmd_ovr (w : Word) : (s.setLastcmd w).ovr = s.ovr := rfl
@[simp] theorem State.setLastcmd_csn (w : Word) : (s.setLastcmd w).csn = s.csn := rfl
@[simp] theorem State.setLastcmd_csDrv (w : Word) : (s.setLastcmd w).csDrv = s.csDrv := rfl
@[simp] theorem State.setLastcmd_sck (w : Word) : (s.setLastcmd w).sck = s.sck := rfl
@[simp] theorem State.setLastcmd_sckDrv (w : Word) : (s.setLastcmd w).sckDrv = s.sckDrv := rfl
@[simp] theorem State.setLastcmd_dout (w : Word) : (s.setLastcmd w).dout = s.dout := rfl
@[simp] theorem State.setLastcmd_doe (w : Word) : (s.setLastcmd w).doe = s.doe := rfl
@[simp] theorem State.setLastcmd_inp (w : Word) : (s.setLastcmd w).inp = s.inp := rfl
@[simp] theorem State.setLastcmd_agenda (w : Word) : (s.setLastcmd w).agenda = s.agenda := rfl
@[simp] theorem State.setLastcmd_draws (w : Word) : (s.setLastcmd w).draws = s.draws := rfl
@[simp] theorem State.setLastcmd_rdata (w : Word) : (s.setLastcmd w).rdata = s.rdata := rfl

/-! ## `bindSel` -/

@[simp] theorem State.bindSel_par (k : BitVec 2) : (s.bindSel k).par = s.par := rfl
@[simp] theorem State.bindSel_init (k : BitVec 2) : (s.bindSel k).init = s.init := rfl
@[simp] theorem State.bindSel_selv (k : BitVec 2) : (s.bindSel k).selv = true := rfl
@[simp] theorem State.bindSel_sel (k : BitVec 2) : (s.bindSel k).sel = k := rfl
@[simp] theorem State.bindSel_dir (k : BitVec 2) : (s.bindSel k).dir = s.dir := rfl
@[simp] theorem State.bindSel_err (k : BitVec 2) : (s.bindSel k).err = s.err := rfl
@[simp] theorem State.bindSel_cav (k : BitVec 2) : (s.bindSel k).cav = s.cav := rfl
@[simp] theorem State.bindSel_phase (k : BitVec 2) : (s.bindSel k).phase = s.phase := rfl
@[simp] theorem State.bindSel_lastcmd (k : BitVec 2) : (s.bindSel k).lastcmd = s.lastcmd := rfl
@[simp] theorem State.bindSel_timeout (k : BitVec 2) : (s.bindSel k).timeout = s.timeout := rfl
@[simp] theorem State.bindSel_grace (k : BitVec 2) : (s.bindSel k).grace = s.grace := rfl
@[simp] theorem State.bindSel_rxcnt (k : BitVec 2) : (s.bindSel k).rxcnt = s.rxcnt := rfl
@[simp] theorem State.bindSel_txd0 (k : BitVec 2) : (s.bindSel k).txd0 = s.txd0 := rfl
@[simp] theorem State.bindSel_txd1 (k : BitVec 2) : (s.bindSel k).txd1 = s.txd1 := rfl
@[simp] theorem State.bindSel_rxbuf (k : BitVec 2) : (s.bindSel k).rxbuf = s.rxbuf := rfl
@[simp] theorem State.bindSel_cyccnt (k : BitVec 2) : (s.bindSel k).cyccnt = s.cyccnt := rfl
@[simp] theorem State.bindSel_cntEn (k : BitVec 2) : (s.bindSel k).cntEn = s.cntEn := rfl
@[simp] theorem State.bindSel_rxlen (k : BitVec 2) : (s.bindSel k).rxlen = s.rxlen := rfl
@[simp] theorem State.bindSel_ldata (k : BitVec 2) : (s.bindSel k).ldata = s.ldata := rfl
@[simp] theorem State.bindSel_wstart (k : BitVec 2) : (s.bindSel k).wstart = s.wstart := rfl
@[simp] theorem State.bindSel_pstart (k : BitVec 2) : (s.bindSel k).pstart = s.pstart := rfl
@[simp] theorem State.bindSel_plimit (k : BitVec 2) : (s.bindSel k).plimit = s.plimit := rfl
@[simp] theorem State.bindSel_shr (k : BitVec 2) : (s.bindSel k).shr = s.shr := rfl
@[simp] theorem State.bindSel_bit (k : BitVec 2) : (s.bindSel k).bit = s.bit := rfl
@[simp] theorem State.bindSel_edge (k : BitVec 2) : (s.bindSel k).edge = s.edge := rfl
@[simp] theorem State.bindSel_widx (k : BitVec 2) : (s.bindSel k).widx = s.widx := rfl
@[simp] theorem State.bindSel_perr (k : BitVec 2) : (s.bindSel k).perr = s.perr := rfl
@[simp] theorem State.bindSel_ovr (k : BitVec 2) : (s.bindSel k).ovr = s.ovr := rfl
@[simp] theorem State.bindSel_csn (k : BitVec 2) : (s.bindSel k).csn = s.csn := rfl
@[simp] theorem State.bindSel_csDrv (k : BitVec 2) : (s.bindSel k).csDrv = s.csDrv := rfl
@[simp] theorem State.bindSel_sck (k : BitVec 2) : (s.bindSel k).sck = s.sck := rfl
@[simp] theorem State.bindSel_sckDrv (k : BitVec 2) : (s.bindSel k).sckDrv = s.sckDrv := rfl
@[simp] theorem State.bindSel_dout (k : BitVec 2) : (s.bindSel k).dout = s.dout := rfl
@[simp] theorem State.bindSel_doe (k : BitVec 2) : (s.bindSel k).doe = s.doe := rfl
@[simp] theorem State.bindSel_inp (k : BitVec 2) : (s.bindSel k).inp = s.inp := rfl
@[simp] theorem State.bindSel_agenda (k : BitVec 2) : (s.bindSel k).agenda = s.agenda := rfl
@[simp] theorem State.bindSel_draws (k : BitVec 2) : (s.bindSel k).draws = s.draws := rfl
@[simp] theorem State.bindSel_rdata (k : BitVec 2) : (s.bindSel k).rdata = s.rdata := rfl

/-! ## `unbindSel` -/

@[simp] theorem State.unbindSel_par : s.unbindSel.par = s.par := rfl
@[simp] theorem State.unbindSel_init : s.unbindSel.init = s.init := rfl
@[simp] theorem State.unbindSel_selv : s.unbindSel.selv = false := rfl
@[simp] theorem State.unbindSel_sel : s.unbindSel.sel = s.sel := rfl
@[simp] theorem State.unbindSel_dir : s.unbindSel.dir = s.dir := rfl
@[simp] theorem State.unbindSel_err : s.unbindSel.err = s.err := rfl
@[simp] theorem State.unbindSel_cav : s.unbindSel.cav = s.cav := rfl
@[simp] theorem State.unbindSel_phase : s.unbindSel.phase = s.phase := rfl
@[simp] theorem State.unbindSel_lastcmd : s.unbindSel.lastcmd = s.lastcmd := rfl
@[simp] theorem State.unbindSel_timeout : s.unbindSel.timeout = s.timeout := rfl
@[simp] theorem State.unbindSel_grace : s.unbindSel.grace = s.grace := rfl
@[simp] theorem State.unbindSel_rxcnt : s.unbindSel.rxcnt = s.rxcnt := rfl
@[simp] theorem State.unbindSel_txd0 : s.unbindSel.txd0 = s.txd0 := rfl
@[simp] theorem State.unbindSel_txd1 : s.unbindSel.txd1 = s.txd1 := rfl
@[simp] theorem State.unbindSel_rxbuf : s.unbindSel.rxbuf = s.rxbuf := rfl
@[simp] theorem State.unbindSel_cyccnt : s.unbindSel.cyccnt = s.cyccnt := rfl
@[simp] theorem State.unbindSel_cntEn : s.unbindSel.cntEn = s.cntEn := rfl
@[simp] theorem State.unbindSel_rxlen : s.unbindSel.rxlen = s.rxlen := rfl
@[simp] theorem State.unbindSel_ldata : s.unbindSel.ldata = s.ldata := rfl
@[simp] theorem State.unbindSel_wstart : s.unbindSel.wstart = s.wstart := rfl
@[simp] theorem State.unbindSel_pstart : s.unbindSel.pstart = s.pstart := rfl
@[simp] theorem State.unbindSel_plimit : s.unbindSel.plimit = s.plimit := rfl
@[simp] theorem State.unbindSel_shr : s.unbindSel.shr = s.shr := rfl
@[simp] theorem State.unbindSel_bit : s.unbindSel.bit = s.bit := rfl
@[simp] theorem State.unbindSel_edge : s.unbindSel.edge = s.edge := rfl
@[simp] theorem State.unbindSel_widx : s.unbindSel.widx = s.widx := rfl
@[simp] theorem State.unbindSel_perr : s.unbindSel.perr = s.perr := rfl
@[simp] theorem State.unbindSel_ovr : s.unbindSel.ovr = s.ovr := rfl
@[simp] theorem State.unbindSel_csn : s.unbindSel.csn = s.csn := rfl
@[simp] theorem State.unbindSel_csDrv : s.unbindSel.csDrv = s.csDrv := rfl
@[simp] theorem State.unbindSel_sck : s.unbindSel.sck = s.sck := rfl
@[simp] theorem State.unbindSel_sckDrv : s.unbindSel.sckDrv = s.sckDrv := rfl
@[simp] theorem State.unbindSel_dout : s.unbindSel.dout = s.dout := rfl
@[simp] theorem State.unbindSel_doe : s.unbindSel.doe = s.doe := rfl
@[simp] theorem State.unbindSel_inp : s.unbindSel.inp = s.inp := rfl
@[simp] theorem State.unbindSel_agenda : s.unbindSel.agenda = s.agenda := rfl
@[simp] theorem State.unbindSel_draws : s.unbindSel.draws = s.draws := rfl
@[simp] theorem State.unbindSel_rdata : s.unbindSel.rdata = s.rdata := rfl

/-! ## `setRdata` -/

@[simp] theorem State.setRdata_par (w : Word) : (s.setRdata w).par = s.par := rfl
@[simp] theorem State.setRdata_init (w : Word) : (s.setRdata w).init = s.init := rfl
@[simp] theorem State.setRdata_selv (w : Word) : (s.setRdata w).selv = s.selv := rfl
@[simp] theorem State.setRdata_sel (w : Word) : (s.setRdata w).sel = s.sel := rfl
@[simp] theorem State.setRdata_dir (w : Word) : (s.setRdata w).dir = s.dir := rfl
@[simp] theorem State.setRdata_err (w : Word) : (s.setRdata w).err = s.err := rfl
@[simp] theorem State.setRdata_cav (w : Word) : (s.setRdata w).cav = s.cav := rfl
@[simp] theorem State.setRdata_phase (w : Word) : (s.setRdata w).phase = s.phase := rfl
@[simp] theorem State.setRdata_lastcmd (w : Word) : (s.setRdata w).lastcmd = s.lastcmd := rfl
@[simp] theorem State.setRdata_timeout (w : Word) : (s.setRdata w).timeout = s.timeout := rfl
@[simp] theorem State.setRdata_grace (w : Word) : (s.setRdata w).grace = s.grace := rfl
@[simp] theorem State.setRdata_rxcnt (w : Word) : (s.setRdata w).rxcnt = s.rxcnt := rfl
@[simp] theorem State.setRdata_txd0 (w : Word) : (s.setRdata w).txd0 = s.txd0 := rfl
@[simp] theorem State.setRdata_txd1 (w : Word) : (s.setRdata w).txd1 = s.txd1 := rfl
@[simp] theorem State.setRdata_rxbuf (w : Word) : (s.setRdata w).rxbuf = s.rxbuf := rfl
@[simp] theorem State.setRdata_cyccnt (w : Word) : (s.setRdata w).cyccnt = s.cyccnt := rfl
@[simp] theorem State.setRdata_cntEn (w : Word) : (s.setRdata w).cntEn = s.cntEn := rfl
@[simp] theorem State.setRdata_rxlen (w : Word) : (s.setRdata w).rxlen = s.rxlen := rfl
@[simp] theorem State.setRdata_ldata (w : Word) : (s.setRdata w).ldata = s.ldata := rfl
@[simp] theorem State.setRdata_wstart (w : Word) : (s.setRdata w).wstart = s.wstart := rfl
@[simp] theorem State.setRdata_pstart (w : Word) : (s.setRdata w).pstart = s.pstart := rfl
@[simp] theorem State.setRdata_plimit (w : Word) : (s.setRdata w).plimit = s.plimit := rfl
@[simp] theorem State.setRdata_shr (w : Word) : (s.setRdata w).shr = s.shr := rfl
@[simp] theorem State.setRdata_bit (w : Word) : (s.setRdata w).bit = s.bit := rfl
@[simp] theorem State.setRdata_edge (w : Word) : (s.setRdata w).edge = s.edge := rfl
@[simp] theorem State.setRdata_widx (w : Word) : (s.setRdata w).widx = s.widx := rfl
@[simp] theorem State.setRdata_perr (w : Word) : (s.setRdata w).perr = s.perr := rfl
@[simp] theorem State.setRdata_ovr (w : Word) : (s.setRdata w).ovr = s.ovr := rfl
@[simp] theorem State.setRdata_csn (w : Word) : (s.setRdata w).csn = s.csn := rfl
@[simp] theorem State.setRdata_csDrv (w : Word) : (s.setRdata w).csDrv = s.csDrv := rfl
@[simp] theorem State.setRdata_sck (w : Word) : (s.setRdata w).sck = s.sck := rfl
@[simp] theorem State.setRdata_sckDrv (w : Word) : (s.setRdata w).sckDrv = s.sckDrv := rfl
@[simp] theorem State.setRdata_dout (w : Word) : (s.setRdata w).dout = s.dout := rfl
@[simp] theorem State.setRdata_doe (w : Word) : (s.setRdata w).doe = s.doe := rfl
@[simp] theorem State.setRdata_inp (w : Word) : (s.setRdata w).inp = s.inp := rfl
@[simp] theorem State.setRdata_agenda (w : Word) : (s.setRdata w).agenda = s.agenda := rfl
@[simp] theorem State.setRdata_draws (w : Word) : (s.setRdata w).draws = s.draws := rfl
@[simp] theorem State.setRdata_rdata (w : Word) : (s.setRdata w).rdata = some w := rfl

/-! ## `takeDraw` -/

@[simp] theorem State.takeDraw_par : s.takeDraw.par = s.par := rfl
@[simp] theorem State.takeDraw_init : s.takeDraw.init = s.init := rfl
@[simp] theorem State.takeDraw_selv : s.takeDraw.selv = s.selv := rfl
@[simp] theorem State.takeDraw_sel : s.takeDraw.sel = s.sel := rfl
@[simp] theorem State.takeDraw_dir : s.takeDraw.dir = s.dir := rfl
@[simp] theorem State.takeDraw_err : s.takeDraw.err = s.err := rfl
@[simp] theorem State.takeDraw_cav : s.takeDraw.cav = s.cav := rfl
@[simp] theorem State.takeDraw_phase : s.takeDraw.phase = s.phase := rfl
@[simp] theorem State.takeDraw_lastcmd : s.takeDraw.lastcmd = s.lastcmd := rfl
@[simp] theorem State.takeDraw_timeout : s.takeDraw.timeout = s.timeout := rfl
@[simp] theorem State.takeDraw_grace : s.takeDraw.grace = s.grace := rfl
@[simp] theorem State.takeDraw_rxcnt : s.takeDraw.rxcnt = s.rxcnt := rfl
@[simp] theorem State.takeDraw_txd0 : s.takeDraw.txd0 = s.txd0 := rfl
@[simp] theorem State.takeDraw_txd1 : s.takeDraw.txd1 = s.txd1 := rfl
@[simp] theorem State.takeDraw_rxbuf : s.takeDraw.rxbuf = s.rxbuf := rfl
@[simp] theorem State.takeDraw_cyccnt : s.takeDraw.cyccnt = s.cyccnt := rfl
@[simp] theorem State.takeDraw_cntEn : s.takeDraw.cntEn = s.cntEn := rfl
@[simp] theorem State.takeDraw_rxlen : s.takeDraw.rxlen = s.rxlen := rfl
@[simp] theorem State.takeDraw_ldata : s.takeDraw.ldata = s.ldata := rfl
@[simp] theorem State.takeDraw_wstart : s.takeDraw.wstart = s.wstart := rfl
@[simp] theorem State.takeDraw_pstart : s.takeDraw.pstart = s.pstart := rfl
@[simp] theorem State.takeDraw_plimit : s.takeDraw.plimit = s.plimit := rfl
@[simp] theorem State.takeDraw_shr : s.takeDraw.shr = s.shr := rfl
@[simp] theorem State.takeDraw_bit : s.takeDraw.bit = s.bit := rfl
@[simp] theorem State.takeDraw_edge : s.takeDraw.edge = s.edge := rfl
@[simp] theorem State.takeDraw_widx : s.takeDraw.widx = s.widx := rfl
@[simp] theorem State.takeDraw_perr : s.takeDraw.perr = s.perr := rfl
@[simp] theorem State.takeDraw_ovr : s.takeDraw.ovr = s.ovr := rfl
@[simp] theorem State.takeDraw_csn : s.takeDraw.csn = s.csn := rfl
@[simp] theorem State.takeDraw_csDrv : s.takeDraw.csDrv = s.csDrv := rfl
@[simp] theorem State.takeDraw_sck : s.takeDraw.sck = s.sck := rfl
@[simp] theorem State.takeDraw_sckDrv : s.takeDraw.sckDrv = s.sckDrv := rfl
@[simp] theorem State.takeDraw_dout : s.takeDraw.dout = s.dout := rfl
@[simp] theorem State.takeDraw_doe : s.takeDraw.doe = s.doe := rfl
@[simp] theorem State.takeDraw_inp : s.takeDraw.inp = s.inp := rfl
@[simp] theorem State.takeDraw_agenda : s.takeDraw.agenda = s.agenda := rfl
@[simp] theorem State.takeDraw_draws : s.takeDraw.draws = s.draws + 1 := rfl
@[simp] theorem State.takeDraw_rdata : s.takeDraw.rdata = s.rdata := rfl

/-! ## `setCsn` -/

@[simp] theorem State.setCsn_par (k : Nat) (b : Bool) : (s.setCsn k b).par = s.par := rfl
@[simp] theorem State.setCsn_init (k : Nat) (b : Bool) : (s.setCsn k b).init = s.init := rfl
@[simp] theorem State.setCsn_selv (k : Nat) (b : Bool) : (s.setCsn k b).selv = s.selv := rfl
@[simp] theorem State.setCsn_sel (k : Nat) (b : Bool) : (s.setCsn k b).sel = s.sel := rfl
@[simp] theorem State.setCsn_dir (k : Nat) (b : Bool) : (s.setCsn k b).dir = s.dir := rfl
@[simp] theorem State.setCsn_err (k : Nat) (b : Bool) : (s.setCsn k b).err = s.err := rfl
@[simp] theorem State.setCsn_cav (k : Nat) (b : Bool) : (s.setCsn k b).cav = s.cav := rfl
@[simp] theorem State.setCsn_phase (k : Nat) (b : Bool) : (s.setCsn k b).phase = s.phase := rfl
@[simp] theorem State.setCsn_lastcmd (k : Nat) (b : Bool) :
    (s.setCsn k b).lastcmd = s.lastcmd := rfl
@[simp] theorem State.setCsn_timeout (k : Nat) (b : Bool) :
    (s.setCsn k b).timeout = s.timeout := rfl
@[simp] theorem State.setCsn_grace (k : Nat) (b : Bool) : (s.setCsn k b).grace = s.grace := rfl
@[simp] theorem State.setCsn_rxcnt (k : Nat) (b : Bool) : (s.setCsn k b).rxcnt = s.rxcnt := rfl
@[simp] theorem State.setCsn_txd0 (k : Nat) (b : Bool) : (s.setCsn k b).txd0 = s.txd0 := rfl
@[simp] theorem State.setCsn_txd1 (k : Nat) (b : Bool) : (s.setCsn k b).txd1 = s.txd1 := rfl
@[simp] theorem State.setCsn_rxbuf (k : Nat) (b : Bool) : (s.setCsn k b).rxbuf = s.rxbuf := rfl
@[simp] theorem State.setCsn_cyccnt (k : Nat) (b : Bool) : (s.setCsn k b).cyccnt = s.cyccnt := rfl
@[simp] theorem State.setCsn_cntEn (k : Nat) (b : Bool) : (s.setCsn k b).cntEn = s.cntEn := rfl
@[simp] theorem State.setCsn_rxlen (k : Nat) (b : Bool) : (s.setCsn k b).rxlen = s.rxlen := rfl
@[simp] theorem State.setCsn_ldata (k : Nat) (b : Bool) : (s.setCsn k b).ldata = s.ldata := rfl
@[simp] theorem State.setCsn_wstart (k : Nat) (b : Bool) : (s.setCsn k b).wstart = s.wstart := rfl
@[simp] theorem State.setCsn_pstart (k : Nat) (b : Bool) : (s.setCsn k b).pstart = s.pstart := rfl
@[simp] theorem State.setCsn_plimit (k : Nat) (b : Bool) : (s.setCsn k b).plimit = s.plimit := rfl
@[simp] theorem State.setCsn_shr (k : Nat) (b : Bool) : (s.setCsn k b).shr = s.shr := rfl
@[simp] theorem State.setCsn_bit (k : Nat) (b : Bool) : (s.setCsn k b).bit = s.bit := rfl
@[simp] theorem State.setCsn_edge (k : Nat) (b : Bool) : (s.setCsn k b).edge = s.edge := rfl
@[simp] theorem State.setCsn_widx (k : Nat) (b : Bool) : (s.setCsn k b).widx = s.widx := rfl
@[simp] theorem State.setCsn_perr (k : Nat) (b : Bool) : (s.setCsn k b).perr = s.perr := rfl
@[simp] theorem State.setCsn_ovr (k : Nat) (b : Bool) : (s.setCsn k b).ovr = s.ovr := rfl
@[simp] theorem State.setCsn_csn (k : Nat) (b : Bool) :
    (s.setCsn k b).csn = if k < s.par.numSlaves then writeBit s.csn k b else s.csn := rfl
@[simp] theorem State.setCsn_csDrv (k : Nat) (b : Bool) : (s.setCsn k b).csDrv = s.csDrv := rfl
@[simp] theorem State.setCsn_sck (k : Nat) (b : Bool) : (s.setCsn k b).sck = s.sck := rfl
@[simp] theorem State.setCsn_sckDrv (k : Nat) (b : Bool) : (s.setCsn k b).sckDrv = s.sckDrv := rfl
@[simp] theorem State.setCsn_dout (k : Nat) (b : Bool) : (s.setCsn k b).dout = s.dout := rfl
@[simp] theorem State.setCsn_doe (k : Nat) (b : Bool) : (s.setCsn k b).doe = s.doe := rfl
@[simp] theorem State.setCsn_inp (k : Nat) (b : Bool) : (s.setCsn k b).inp = s.inp := rfl
@[simp] theorem State.setCsn_agenda (k : Nat) (b : Bool) : (s.setCsn k b).agenda = s.agenda := rfl
@[simp] theorem State.setCsn_draws (k : Nat) (b : Bool) : (s.setCsn k b).draws = s.draws := rfl
@[simp] theorem State.setCsn_rdata (k : Nat) (b : Bool) : (s.setCsn k b).rdata = s.rdata := rfl

/-! ## `setRxWord` -/

@[simp] theorem State.setRxWord_par (j : Nat) (w : Half) : (s.setRxWord j w).par = s.par := rfl
@[simp] theorem State.setRxWord_init (j : Nat) (w : Half) : (s.setRxWord j w).init = s.init := rfl
@[simp] theorem State.setRxWord_selv (j : Nat) (w : Half) : (s.setRxWord j w).selv = s.selv := rfl
@[simp] theorem State.setRxWord_sel (j : Nat) (w : Half) : (s.setRxWord j w).sel = s.sel := rfl
@[simp] theorem State.setRxWord_dir (j : Nat) (w : Half) : (s.setRxWord j w).dir = s.dir := rfl
@[simp] theorem State.setRxWord_err (j : Nat) (w : Half) : (s.setRxWord j w).err = s.err := rfl
@[simp] theorem State.setRxWord_cav (j : Nat) (w : Half) : (s.setRxWord j w).cav = s.cav := rfl
@[simp] theorem State.setRxWord_phase (j : Nat) (w : Half) :
    (s.setRxWord j w).phase = s.phase := rfl
@[simp] theorem State.setRxWord_lastcmd (j : Nat) (w : Half) :
    (s.setRxWord j w).lastcmd = s.lastcmd := rfl
@[simp] theorem State.setRxWord_timeout (j : Nat) (w : Half) :
    (s.setRxWord j w).timeout = s.timeout := rfl
@[simp] theorem State.setRxWord_grace (j : Nat) (w : Half) :
    (s.setRxWord j w).grace = s.grace := rfl
@[simp] theorem State.setRxWord_rxcnt (j : Nat) (w : Half) :
    (s.setRxWord j w).rxcnt = s.rxcnt := rfl
@[simp] theorem State.setRxWord_txd0 (j : Nat) (w : Half) : (s.setRxWord j w).txd0 = s.txd0 := rfl
@[simp] theorem State.setRxWord_txd1 (j : Nat) (w : Half) : (s.setRxWord j w).txd1 = s.txd1 := rfl
@[simp] theorem State.setRxWord_rxbuf (j : Nat) (w : Half) :
    (s.setRxWord j w).rxbuf = s.rxbuf.set j w := rfl
@[simp] theorem State.setRxWord_cyccnt (j : Nat) (w : Half) :
    (s.setRxWord j w).cyccnt = s.cyccnt := rfl
@[simp] theorem State.setRxWord_cntEn (j : Nat) (w : Half) :
    (s.setRxWord j w).cntEn = s.cntEn := rfl
@[simp] theorem State.setRxWord_rxlen (j : Nat) (w : Half) :
    (s.setRxWord j w).rxlen = s.rxlen := rfl
@[simp] theorem State.setRxWord_ldata (j : Nat) (w : Half) :
    (s.setRxWord j w).ldata = s.ldata := rfl
@[simp] theorem State.setRxWord_wstart (j : Nat) (w : Half) :
    (s.setRxWord j w).wstart = s.wstart := rfl
@[simp] theorem State.setRxWord_pstart (j : Nat) (w : Half) :
    (s.setRxWord j w).pstart = s.pstart := rfl
@[simp] theorem State.setRxWord_plimit (j : Nat) (w : Half) :
    (s.setRxWord j w).plimit = s.plimit := rfl
@[simp] theorem State.setRxWord_shr (j : Nat) (w : Half) : (s.setRxWord j w).shr = s.shr := rfl
@[simp] theorem State.setRxWord_bit (j : Nat) (w : Half) : (s.setRxWord j w).bit = s.bit := rfl
@[simp] theorem State.setRxWord_edge (j : Nat) (w : Half) : (s.setRxWord j w).edge = s.edge := rfl
@[simp] theorem State.setRxWord_widx (j : Nat) (w : Half) : (s.setRxWord j w).widx = s.widx := rfl
@[simp] theorem State.setRxWord_perr (j : Nat) (w : Half) : (s.setRxWord j w).perr = s.perr := rfl
@[simp] theorem State.setRxWord_ovr (j : Nat) (w : Half) : (s.setRxWord j w).ovr = s.ovr := rfl
@[simp] theorem State.setRxWord_csn (j : Nat) (w : Half) : (s.setRxWord j w).csn = s.csn := rfl
@[simp] theorem State.setRxWord_csDrv (j : Nat) (w : Half) :
    (s.setRxWord j w).csDrv = s.csDrv := rfl
@[simp] theorem State.setRxWord_sck (j : Nat) (w : Half) : (s.setRxWord j w).sck = s.sck := rfl
@[simp] theorem State.setRxWord_sckDrv (j : Nat) (w : Half) :
    (s.setRxWord j w).sckDrv = s.sckDrv := rfl
@[simp] theorem State.setRxWord_dout (j : Nat) (w : Half) : (s.setRxWord j w).dout = s.dout := rfl
@[simp] theorem State.setRxWord_doe (j : Nat) (w : Half) : (s.setRxWord j w).doe = s.doe := rfl
@[simp] theorem State.setRxWord_inp (j : Nat) (w : Half) : (s.setRxWord j w).inp = s.inp := rfl
@[simp] theorem State.setRxWord_agenda (j : Nat) (w : Half) :
    (s.setRxWord j w).agenda = s.agenda := rfl
@[simp] theorem State.setRxWord_draws (j : Nat) (w : Half) :
    (s.setRxWord j w).draws = s.draws := rfl
@[simp] theorem State.setRxWord_rdata (j : Nat) (w : Half) :
    (s.setRxWord j w).rdata = s.rdata := rfl

/-! ## `dirToRx` -/

@[simp] theorem State.dirToRx_par : s.dirToRx.par = s.par := rfl
@[simp] theorem State.dirToRx_init : s.dirToRx.init = s.init := rfl
@[simp] theorem State.dirToRx_selv : s.dirToRx.selv = s.selv := rfl
@[simp] theorem State.dirToRx_sel : s.dirToRx.sel = s.sel := rfl
@[simp] theorem State.dirToRx_dir : s.dirToRx.dir = true := rfl
@[simp] theorem State.dirToRx_err : s.dirToRx.err = s.err := rfl
@[simp] theorem State.dirToRx_cav : s.dirToRx.cav = s.cav := rfl
@[simp] theorem State.dirToRx_phase : s.dirToRx.phase = s.phase := rfl
@[simp] theorem State.dirToRx_lastcmd : s.dirToRx.lastcmd = s.lastcmd := rfl
@[simp] theorem State.dirToRx_timeout : s.dirToRx.timeout = s.timeout := rfl
@[simp] theorem State.dirToRx_grace : s.dirToRx.grace = s.grace := rfl
@[simp] theorem State.dirToRx_rxcnt : s.dirToRx.rxcnt = s.rxcnt := rfl
@[simp] theorem State.dirToRx_txd0 : s.dirToRx.txd0 = s.txd0 := rfl
@[simp] theorem State.dirToRx_txd1 : s.dirToRx.txd1 = s.txd1 := rfl
@[simp] theorem State.dirToRx_rxbuf : s.dirToRx.rxbuf = s.rxbuf := rfl
@[simp] theorem State.dirToRx_cyccnt : s.dirToRx.cyccnt = s.cyccnt := rfl
@[simp] theorem State.dirToRx_cntEn : s.dirToRx.cntEn = s.cntEn := rfl
@[simp] theorem State.dirToRx_rxlen : s.dirToRx.rxlen = s.rxlen := rfl
@[simp] theorem State.dirToRx_ldata : s.dirToRx.ldata = s.ldata := rfl
@[simp] theorem State.dirToRx_wstart : s.dirToRx.wstart = s.wstart := rfl
@[simp] theorem State.dirToRx_pstart : s.dirToRx.pstart = s.pstart := rfl
@[simp] theorem State.dirToRx_plimit : s.dirToRx.plimit = s.plimit := rfl
@[simp] theorem State.dirToRx_shr : s.dirToRx.shr = s.shr := rfl
@[simp] theorem State.dirToRx_bit : s.dirToRx.bit = s.bit := rfl
@[simp] theorem State.dirToRx_edge : s.dirToRx.edge = s.edge := rfl
@[simp] theorem State.dirToRx_widx : s.dirToRx.widx = s.widx := rfl
@[simp] theorem State.dirToRx_perr : s.dirToRx.perr = s.perr := rfl
@[simp] theorem State.dirToRx_ovr : s.dirToRx.ovr = s.ovr := rfl
@[simp] theorem State.dirToRx_csn : s.dirToRx.csn = s.csn := rfl
@[simp] theorem State.dirToRx_csDrv : s.dirToRx.csDrv = s.csDrv := rfl
@[simp] theorem State.dirToRx_sck : s.dirToRx.sck = s.sck := rfl
@[simp] theorem State.dirToRx_sckDrv : s.dirToRx.sckDrv = s.sckDrv := rfl
@[simp] theorem State.dirToRx_dout : s.dirToRx.dout = s.dout := rfl
@[simp] theorem State.dirToRx_doe : s.dirToRx.doe = false := rfl
@[simp] theorem State.dirToRx_inp : s.dirToRx.inp = s.inp := rfl
@[simp] theorem State.dirToRx_agenda : s.dirToRx.agenda = s.agenda := rfl
@[simp] theorem State.dirToRx_draws : s.dirToRx.draws = s.draws := rfl
@[simp] theorem State.dirToRx_rdata : s.dirToRx.rdata = s.rdata := rfl

/-! ## `dirToTx` -/

@[simp] theorem State.dirToTx_par : s.dirToTx.par = s.par := rfl
@[simp] theorem State.dirToTx_init : s.dirToTx.init = s.init := rfl
@[simp] theorem State.dirToTx_selv : s.dirToTx.selv = s.selv := rfl
@[simp] theorem State.dirToTx_sel : s.dirToTx.sel = s.sel := rfl
@[simp] theorem State.dirToTx_dir : s.dirToTx.dir = false := rfl
@[simp] theorem State.dirToTx_err : s.dirToTx.err = s.err := rfl
@[simp] theorem State.dirToTx_cav : s.dirToTx.cav = s.cav := rfl
@[simp] theorem State.dirToTx_phase : s.dirToTx.phase = s.phase := rfl
@[simp] theorem State.dirToTx_lastcmd : s.dirToTx.lastcmd = s.lastcmd := rfl
@[simp] theorem State.dirToTx_timeout : s.dirToTx.timeout = s.timeout := rfl
@[simp] theorem State.dirToTx_grace : s.dirToTx.grace = s.grace := rfl
@[simp] theorem State.dirToTx_rxcnt : s.dirToTx.rxcnt = s.rxcnt := rfl
@[simp] theorem State.dirToTx_txd0 : s.dirToTx.txd0 = s.txd0 := rfl
@[simp] theorem State.dirToTx_txd1 : s.dirToTx.txd1 = s.txd1 := rfl
@[simp] theorem State.dirToTx_rxbuf : s.dirToTx.rxbuf = s.rxbuf := rfl
@[simp] theorem State.dirToTx_cyccnt : s.dirToTx.cyccnt = s.cyccnt := rfl
@[simp] theorem State.dirToTx_cntEn : s.dirToTx.cntEn = s.cntEn := rfl
@[simp] theorem State.dirToTx_rxlen : s.dirToTx.rxlen = s.rxlen := rfl
@[simp] theorem State.dirToTx_ldata : s.dirToTx.ldata = s.ldata := rfl
@[simp] theorem State.dirToTx_wstart : s.dirToTx.wstart = s.wstart := rfl
@[simp] theorem State.dirToTx_pstart : s.dirToTx.pstart = s.pstart := rfl
@[simp] theorem State.dirToTx_plimit : s.dirToTx.plimit = s.plimit := rfl
@[simp] theorem State.dirToTx_shr : s.dirToTx.shr = s.shr := rfl
@[simp] theorem State.dirToTx_bit : s.dirToTx.bit = s.bit := rfl
@[simp] theorem State.dirToTx_edge : s.dirToTx.edge = s.edge := rfl
@[simp] theorem State.dirToTx_widx : s.dirToTx.widx = s.widx := rfl
@[simp] theorem State.dirToTx_perr : s.dirToTx.perr = s.perr := rfl
@[simp] theorem State.dirToTx_ovr : s.dirToTx.ovr = s.ovr := rfl
@[simp] theorem State.dirToTx_csn : s.dirToTx.csn = s.csn := rfl
@[simp] theorem State.dirToTx_csDrv : s.dirToTx.csDrv = s.csDrv := rfl
@[simp] theorem State.dirToTx_sck : s.dirToTx.sck = s.sck := rfl
@[simp] theorem State.dirToTx_sckDrv : s.dirToTx.sckDrv = s.sckDrv := rfl
@[simp] theorem State.dirToTx_dout : s.dirToTx.dout = s.dout := rfl
@[simp] theorem State.dirToTx_doe : s.dirToTx.doe = true := rfl
@[simp] theorem State.dirToTx_inp : s.dirToTx.inp = s.inp := rfl
@[simp] theorem State.dirToTx_agenda : s.dirToTx.agenda = s.agenda := rfl
@[simp] theorem State.dirToTx_draws : s.dirToTx.draws = s.draws := rfl
@[simp] theorem State.dirToTx_rdata : s.dirToTx.rdata = s.rdata := rfl

/-! ## `graceBegin` -/

@[simp] theorem State.graceBegin_par : s.graceBegin.par = s.par := rfl
@[simp] theorem State.graceBegin_init : s.graceBegin.init = s.init := rfl
@[simp] theorem State.graceBegin_selv : s.graceBegin.selv = s.selv := rfl
@[simp] theorem State.graceBegin_sel : s.graceBegin.sel = s.sel := rfl
@[simp] theorem State.graceBegin_dir : s.graceBegin.dir = s.dir := rfl
@[simp] theorem State.graceBegin_err : s.graceBegin.err = s.err := rfl
@[simp] theorem State.graceBegin_cav : s.graceBegin.cav = s.cav := rfl
@[simp] theorem State.graceBegin_phase : s.graceBegin.phase = s.phase := rfl
@[simp] theorem State.graceBegin_lastcmd : s.graceBegin.lastcmd = s.lastcmd := rfl
@[simp] theorem State.graceBegin_timeout : s.graceBegin.timeout = s.timeout := rfl
@[simp] theorem State.graceBegin_grace :
    s.graceBegin.grace = BitVec.ofNat 32 (graceCycles s.inp.clkf.toNat) := rfl
@[simp] theorem State.graceBegin_rxcnt : s.graceBegin.rxcnt = s.rxcnt := rfl
@[simp] theorem State.graceBegin_txd0 : s.graceBegin.txd0 = s.txd0 := rfl
@[simp] theorem State.graceBegin_txd1 : s.graceBegin.txd1 = s.txd1 := rfl
@[simp] theorem State.graceBegin_rxbuf : s.graceBegin.rxbuf = s.rxbuf := rfl
@[simp] theorem State.graceBegin_cyccnt : s.graceBegin.cyccnt = s.cyccnt := rfl
@[simp] theorem State.graceBegin_cntEn : s.graceBegin.cntEn = s.cntEn := rfl
@[simp] theorem State.graceBegin_rxlen : s.graceBegin.rxlen = s.rxlen := rfl
@[simp] theorem State.graceBegin_ldata : s.graceBegin.ldata = s.ldata := rfl
@[simp] theorem State.graceBegin_wstart : s.graceBegin.wstart = s.cyccnt := rfl
@[simp] theorem State.graceBegin_pstart : s.graceBegin.pstart = s.pstart := rfl
@[simp] theorem State.graceBegin_plimit : s.graceBegin.plimit = s.plimit := rfl
@[simp] theorem State.graceBegin_shr : s.graceBegin.shr = s.shr := rfl
@[simp] theorem State.graceBegin_bit : s.graceBegin.bit = s.bit := rfl
@[simp] theorem State.graceBegin_edge : s.graceBegin.edge = s.edge := rfl
@[simp] theorem State.graceBegin_widx : s.graceBegin.widx = s.widx := rfl
@[simp] theorem State.graceBegin_perr : s.graceBegin.perr = s.perr := rfl
@[simp] theorem State.graceBegin_ovr : s.graceBegin.ovr = s.ovr := rfl
@[simp] theorem State.graceBegin_csn : s.graceBegin.csn = s.csn := rfl
@[simp] theorem State.graceBegin_csDrv : s.graceBegin.csDrv = s.csDrv := rfl
@[simp] theorem State.graceBegin_sck : s.graceBegin.sck = s.sck := rfl
@[simp] theorem State.graceBegin_sckDrv : s.graceBegin.sckDrv = s.sckDrv := rfl
@[simp] theorem State.graceBegin_dout : s.graceBegin.dout = s.dout := rfl
@[simp] theorem State.graceBegin_doe : s.graceBegin.doe = s.doe := rfl
@[simp] theorem State.graceBegin_inp : s.graceBegin.inp = s.inp := rfl
@[simp] theorem State.graceBegin_agenda : s.graceBegin.agenda = s.agenda := rfl
@[simp] theorem State.graceBegin_draws : s.graceBegin.draws = s.draws := rfl
@[simp] theorem State.graceBegin_rdata : s.graceBegin.rdata = s.rdata := rfl

/-! ## `armWatchdog` -/

@[simp] theorem State.armWatchdog_par : s.armWatchdog.par = s.par := rfl
@[simp] theorem State.armWatchdog_init : s.armWatchdog.init = s.init := rfl
@[simp] theorem State.armWatchdog_selv : s.armWatchdog.selv = s.selv := rfl
@[simp] theorem State.armWatchdog_sel : s.armWatchdog.sel = s.sel := rfl
@[simp] theorem State.armWatchdog_dir : s.armWatchdog.dir = s.dir := rfl
@[simp] theorem State.armWatchdog_err : s.armWatchdog.err = s.err := rfl
@[simp] theorem State.armWatchdog_cav : s.armWatchdog.cav = s.cav := rfl
@[simp] theorem State.armWatchdog_phase : s.armWatchdog.phase = s.phase := rfl
@[simp] theorem State.armWatchdog_lastcmd : s.armWatchdog.lastcmd = s.lastcmd := rfl
@[simp] theorem State.armWatchdog_timeout : s.armWatchdog.timeout = s.timeout := rfl
@[simp] theorem State.armWatchdog_grace : s.armWatchdog.grace = s.grace := rfl
@[simp] theorem State.armWatchdog_rxcnt : s.armWatchdog.rxcnt = s.rxcnt := rfl
@[simp] theorem State.armWatchdog_txd0 : s.armWatchdog.txd0 = s.txd0 := rfl
@[simp] theorem State.armWatchdog_txd1 : s.armWatchdog.txd1 = s.txd1 := rfl
@[simp] theorem State.armWatchdog_rxbuf : s.armWatchdog.rxbuf = s.rxbuf := rfl
@[simp] theorem State.armWatchdog_cyccnt : s.armWatchdog.cyccnt = s.cyccnt := rfl
@[simp] theorem State.armWatchdog_cntEn : s.armWatchdog.cntEn = s.cntEn := rfl
@[simp] theorem State.armWatchdog_rxlen : s.armWatchdog.rxlen = s.rxlen := rfl
@[simp] theorem State.armWatchdog_ldata : s.armWatchdog.ldata = s.ldata := rfl
@[simp] theorem State.armWatchdog_wstart : s.armWatchdog.wstart = s.wstart := rfl
@[simp] theorem State.armWatchdog_pstart : s.armWatchdog.pstart = s.cyccnt := rfl
@[simp] theorem State.armWatchdog_plimit :
    s.armWatchdog.plimit = BitVec.ofNat 32 (watchdogCycles s.timeout.toNat s.inp.clkf.toNat) := rfl
@[simp] theorem State.armWatchdog_shr : s.armWatchdog.shr = s.shr := rfl
@[simp] theorem State.armWatchdog_bit : s.armWatchdog.bit = s.bit := rfl
@[simp] theorem State.armWatchdog_edge : s.armWatchdog.edge = s.edge := rfl
@[simp] theorem State.armWatchdog_widx : s.armWatchdog.widx = s.widx := rfl
@[simp] theorem State.armWatchdog_perr : s.armWatchdog.perr = s.perr := rfl
@[simp] theorem State.armWatchdog_ovr : s.armWatchdog.ovr = s.ovr := rfl
@[simp] theorem State.armWatchdog_csn : s.armWatchdog.csn = s.csn := rfl
@[simp] theorem State.armWatchdog_csDrv : s.armWatchdog.csDrv = s.csDrv := rfl
@[simp] theorem State.armWatchdog_sck : s.armWatchdog.sck = s.sck := rfl
@[simp] theorem State.armWatchdog_sckDrv : s.armWatchdog.sckDrv = s.sckDrv := rfl
@[simp] theorem State.armWatchdog_dout : s.armWatchdog.dout = s.dout := rfl
@[simp] theorem State.armWatchdog_doe : s.armWatchdog.doe = s.doe := rfl
@[simp] theorem State.armWatchdog_inp : s.armWatchdog.inp = s.inp := rfl
@[simp] theorem State.armWatchdog_agenda : s.armWatchdog.agenda = s.agenda := rfl
@[simp] theorem State.armWatchdog_draws : s.armWatchdog.draws = s.draws := rfl
@[simp] theorem State.armWatchdog_rdata : s.armWatchdog.rdata = s.rdata := rfl

/-! ## `abortXfer` -/

@[simp] theorem State.abortXfer_par (e : ErrCode) : (s.abortXfer e).par = s.par := rfl
@[simp] theorem State.abortXfer_init (e : ErrCode) : (s.abortXfer e).init = s.init := rfl
@[simp] theorem State.abortXfer_selv (e : ErrCode) : (s.abortXfer e).selv = s.selv := rfl
@[simp] theorem State.abortXfer_sel (e : ErrCode) : (s.abortXfer e).sel = s.sel := rfl
@[simp] theorem State.abortXfer_dir (e : ErrCode) : (s.abortXfer e).dir = s.dir := rfl
@[simp] theorem State.abortXfer_err (e : ErrCode) : (s.abortXfer e).err = s.err := rfl
@[simp] theorem State.abortXfer_cav (e : ErrCode) : (s.abortXfer e).cav = s.cav := rfl
@[simp] theorem State.abortXfer_phase (e : ErrCode) : (s.abortXfer e).phase = .xRelease := rfl
@[simp] theorem State.abortXfer_lastcmd (e : ErrCode) : (s.abortXfer e).lastcmd = s.lastcmd := rfl
@[simp] theorem State.abortXfer_timeout (e : ErrCode) : (s.abortXfer e).timeout = s.timeout := rfl
@[simp] theorem State.abortXfer_grace (e : ErrCode) : (s.abortXfer e).grace = s.grace := rfl
@[simp] theorem State.abortXfer_rxcnt (e : ErrCode) : (s.abortXfer e).rxcnt = 0 := rfl
@[simp] theorem State.abortXfer_txd0 (e : ErrCode) : (s.abortXfer e).txd0 = s.txd0 := rfl
@[simp] theorem State.abortXfer_txd1 (e : ErrCode) : (s.abortXfer e).txd1 = s.txd1 := rfl
@[simp] theorem State.abortXfer_rxbuf (e : ErrCode) : (s.abortXfer e).rxbuf = s.rxbuf := rfl
@[simp] theorem State.abortXfer_cyccnt (e : ErrCode) : (s.abortXfer e).cyccnt = s.cyccnt := rfl
@[simp] theorem State.abortXfer_cntEn (e : ErrCode) : (s.abortXfer e).cntEn = s.cntEn := rfl
@[simp] theorem State.abortXfer_rxlen (e : ErrCode) : (s.abortXfer e).rxlen = s.rxlen := rfl
@[simp] theorem State.abortXfer_ldata (e : ErrCode) : (s.abortXfer e).ldata = s.ldata := rfl
@[simp] theorem State.abortXfer_wstart (e : ErrCode) : (s.abortXfer e).wstart = s.wstart := rfl
@[simp] theorem State.abortXfer_pstart (e : ErrCode) : (s.abortXfer e).pstart = s.pstart := rfl
@[simp] theorem State.abortXfer_plimit (e : ErrCode) : (s.abortXfer e).plimit = s.plimit := rfl
@[simp] theorem State.abortXfer_shr (e : ErrCode) : (s.abortXfer e).shr = s.shr := rfl
@[simp] theorem State.abortXfer_bit (e : ErrCode) : (s.abortXfer e).bit = 0 := rfl
@[simp] theorem State.abortXfer_edge (e : ErrCode) : (s.abortXfer e).edge = .lead := rfl
@[simp] theorem State.abortXfer_widx (e : ErrCode) : (s.abortXfer e).widx = s.widx := rfl
@[simp] theorem State.abortXfer_perr (e : ErrCode) : (s.abortXfer e).perr = e := rfl
@[simp] theorem State.abortXfer_ovr (e : ErrCode) : (s.abortXfer e).ovr = s.ovr := rfl
@[simp] theorem State.abortXfer_csn (e : ErrCode) : (s.abortXfer e).csn = s.csn := rfl
@[simp] theorem State.abortXfer_csDrv (e : ErrCode) : (s.abortXfer e).csDrv = s.csDrv := rfl
@[simp] theorem State.abortXfer_sck (e : ErrCode) : (s.abortXfer e).sck = s.par.cpol := rfl
@[simp] theorem State.abortXfer_sckDrv (e : ErrCode) : (s.abortXfer e).sckDrv = s.sckDrv := rfl
@[simp] theorem State.abortXfer_dout (e : ErrCode) : (s.abortXfer e).dout = s.dout := rfl
@[simp] theorem State.abortXfer_doe (e : ErrCode) : (s.abortXfer e).doe = s.doe := rfl
@[simp] theorem State.abortXfer_inp (e : ErrCode) : (s.abortXfer e).inp = s.inp := rfl
@[simp] theorem State.abortXfer_agenda (e : ErrCode) : (s.abortXfer e).agenda = s.agenda := rfl
@[simp] theorem State.abortXfer_draws (e : ErrCode) : (s.abortXfer e).draws = s.draws := rfl
@[simp] theorem State.abortXfer_rdata (e : ErrCode) : (s.abortXfer e).rdata = s.rdata := rfl

/-! ## `putBit` -/

@[simp] theorem State.putBit_par (i : Nat) : (s.putBit i).par = s.par := rfl
@[simp] theorem State.putBit_init (i : Nat) : (s.putBit i).init = s.init := rfl
@[simp] theorem State.putBit_selv (i : Nat) : (s.putBit i).selv = s.selv := rfl
@[simp] theorem State.putBit_sel (i : Nat) : (s.putBit i).sel = s.sel := rfl
@[simp] theorem State.putBit_dir (i : Nat) : (s.putBit i).dir = s.dir := rfl
@[simp] theorem State.putBit_err (i : Nat) : (s.putBit i).err = s.err := rfl
@[simp] theorem State.putBit_cav (i : Nat) : (s.putBit i).cav = s.cav := rfl
@[simp] theorem State.putBit_phase (i : Nat) : (s.putBit i).phase = s.phase := rfl
@[simp] theorem State.putBit_lastcmd (i : Nat) : (s.putBit i).lastcmd = s.lastcmd := rfl
@[simp] theorem State.putBit_timeout (i : Nat) : (s.putBit i).timeout = s.timeout := rfl
@[simp] theorem State.putBit_grace (i : Nat) : (s.putBit i).grace = s.grace := rfl
@[simp] theorem State.putBit_rxcnt (i : Nat) : (s.putBit i).rxcnt = s.rxcnt := rfl
@[simp] theorem State.putBit_txd0 (i : Nat) : (s.putBit i).txd0 = s.txd0 := rfl
@[simp] theorem State.putBit_txd1 (i : Nat) : (s.putBit i).txd1 = s.txd1 := rfl
@[simp] theorem State.putBit_rxbuf (i : Nat) : (s.putBit i).rxbuf = s.rxbuf := rfl
@[simp] theorem State.putBit_cyccnt (i : Nat) : (s.putBit i).cyccnt = s.cyccnt := rfl
@[simp] theorem State.putBit_cntEn (i : Nat) : (s.putBit i).cntEn = s.cntEn := rfl
@[simp] theorem State.putBit_rxlen (i : Nat) : (s.putBit i).rxlen = s.rxlen := rfl
@[simp] theorem State.putBit_ldata (i : Nat) : (s.putBit i).ldata = s.ldata := rfl
@[simp] theorem State.putBit_wstart (i : Nat) : (s.putBit i).wstart = s.wstart := rfl
@[simp] theorem State.putBit_pstart (i : Nat) : (s.putBit i).pstart = s.pstart := rfl
@[simp] theorem State.putBit_plimit (i : Nat) : (s.putBit i).plimit = s.plimit := rfl
@[simp] theorem State.putBit_shr (i : Nat) : (s.putBit i).shr = s.shr := rfl
@[simp] theorem State.putBit_bit (i : Nat) : (s.putBit i).bit = s.bit := rfl
@[simp] theorem State.putBit_edge (i : Nat) : (s.putBit i).edge = s.edge := rfl
@[simp] theorem State.putBit_widx (i : Nat) : (s.putBit i).widx = s.widx := rfl
@[simp] theorem State.putBit_perr (i : Nat) : (s.putBit i).perr = s.perr := rfl
@[simp] theorem State.putBit_ovr (i : Nat) : (s.putBit i).ovr = s.ovr := rfl
@[simp] theorem State.putBit_csn (i : Nat) : (s.putBit i).csn = s.csn := rfl
@[simp] theorem State.putBit_csDrv (i : Nat) : (s.putBit i).csDrv = s.csDrv := rfl
@[simp] theorem State.putBit_sck (i : Nat) : (s.putBit i).sck = s.sck := rfl
@[simp] theorem State.putBit_sckDrv (i : Nat) : (s.putBit i).sckDrv = s.sckDrv := rfl
@[simp] theorem State.putBit_dout (i : Nat) :
    (s.putBit i).dout = outBit s.par.lsbFirst s.shr i := rfl
@[simp] theorem State.putBit_doe (i : Nat) : (s.putBit i).doe = s.doe := rfl
@[simp] theorem State.putBit_inp (i : Nat) : (s.putBit i).inp = s.inp := rfl
@[simp] theorem State.putBit_agenda (i : Nat) : (s.putBit i).agenda = s.agenda := rfl
@[simp] theorem State.putBit_draws (i : Nat) : (s.putBit i).draws = s.draws := rfl
@[simp] theorem State.putBit_rdata (i : Nat) : (s.putBit i).rdata = s.rdata := rfl

/-! ## `sampleDin` -/

@[simp] theorem State.sampleDin_par : s.sampleDin.par = s.par := rfl
@[simp] theorem State.sampleDin_init : s.sampleDin.init = s.init := rfl
@[simp] theorem State.sampleDin_selv : s.sampleDin.selv = s.selv := rfl
@[simp] theorem State.sampleDin_sel : s.sampleDin.sel = s.sel := rfl
@[simp] theorem State.sampleDin_dir : s.sampleDin.dir = s.dir := rfl
@[simp] theorem State.sampleDin_err : s.sampleDin.err = s.err := rfl
@[simp] theorem State.sampleDin_cav : s.sampleDin.cav = s.cav := rfl
@[simp] theorem State.sampleDin_phase : s.sampleDin.phase = s.phase := rfl
@[simp] theorem State.sampleDin_lastcmd : s.sampleDin.lastcmd = s.lastcmd := rfl
@[simp] theorem State.sampleDin_timeout : s.sampleDin.timeout = s.timeout := rfl
@[simp] theorem State.sampleDin_grace : s.sampleDin.grace = s.grace := rfl
@[simp] theorem State.sampleDin_rxcnt : s.sampleDin.rxcnt = s.rxcnt := rfl
@[simp] theorem State.sampleDin_txd0 : s.sampleDin.txd0 = s.txd0 := rfl
@[simp] theorem State.sampleDin_txd1 : s.sampleDin.txd1 = s.txd1 := rfl
@[simp] theorem State.sampleDin_rxbuf : s.sampleDin.rxbuf = s.rxbuf := rfl
@[simp] theorem State.sampleDin_cyccnt : s.sampleDin.cyccnt = s.cyccnt := rfl
@[simp] theorem State.sampleDin_cntEn : s.sampleDin.cntEn = s.cntEn := rfl
@[simp] theorem State.sampleDin_rxlen : s.sampleDin.rxlen = s.rxlen := rfl
@[simp] theorem State.sampleDin_ldata : s.sampleDin.ldata = s.ldata := rfl
@[simp] theorem State.sampleDin_wstart : s.sampleDin.wstart = s.wstart := rfl
@[simp] theorem State.sampleDin_pstart : s.sampleDin.pstart = s.pstart := rfl
@[simp] theorem State.sampleDin_plimit : s.sampleDin.plimit = s.plimit := rfl
@[simp] theorem State.sampleDin_shr :
    s.sampleDin.shr = shiftIn s.par.lsbFirst s.shr s.inp.din := rfl
@[simp] theorem State.sampleDin_bit : s.sampleDin.bit = s.bit := rfl
@[simp] theorem State.sampleDin_edge : s.sampleDin.edge = s.edge := rfl
@[simp] theorem State.sampleDin_widx : s.sampleDin.widx = s.widx := rfl
@[simp] theorem State.sampleDin_perr : s.sampleDin.perr = s.perr := rfl
@[simp] theorem State.sampleDin_ovr : s.sampleDin.ovr = s.ovr := rfl
@[simp] theorem State.sampleDin_csn : s.sampleDin.csn = s.csn := rfl
@[simp] theorem State.sampleDin_csDrv : s.sampleDin.csDrv = s.csDrv := rfl
@[simp] theorem State.sampleDin_sck : s.sampleDin.sck = s.sck := rfl
@[simp] theorem State.sampleDin_sckDrv : s.sampleDin.sckDrv = s.sckDrv := rfl
@[simp] theorem State.sampleDin_dout : s.sampleDin.dout = s.dout := rfl
@[simp] theorem State.sampleDin_doe : s.sampleDin.doe = s.doe := rfl
@[simp] theorem State.sampleDin_inp : s.sampleDin.inp = s.inp := rfl
@[simp] theorem State.sampleDin_agenda : s.sampleDin.agenda = s.agenda := rfl
@[simp] theorem State.sampleDin_draws : s.sampleDin.draws = s.draws := rfl
@[simp] theorem State.sampleDin_rdata : s.sampleDin.rdata = s.rdata := rfl

/-! ## `takeTurn` -/

@[simp] theorem State.takeTurn_par : s.takeTurn.par = s.par := by
  unfold State.takeTurn; split <;> rfl
@[simp] theorem State.takeTurn_init : s.takeTurn.init = s.init := by
  unfold State.takeTurn; split <;> rfl
@[simp] theorem State.takeTurn_selv : s.takeTurn.selv = s.selv := by
  unfold State.takeTurn; split <;> rfl
@[simp] theorem State.takeTurn_sel : s.takeTurn.sel = s.sel := by
  unfold State.takeTurn; split <;> rfl
@[simp] theorem State.takeTurn_dir : s.takeTurn.dir = s.dir := by
  unfold State.takeTurn; split <;> rfl
@[simp] theorem State.takeTurn_err : s.takeTurn.err = s.err := by
  unfold State.takeTurn; split <;> rfl
@[simp] theorem State.takeTurn_cav : s.takeTurn.cav = s.cav := by
  unfold State.takeTurn; split <;> rfl
@[simp] theorem State.takeTurn_phase : s.takeTurn.phase = s.phase := by
  unfold State.takeTurn; split <;> rfl
@[simp] theorem State.takeTurn_lastcmd : s.takeTurn.lastcmd = s.lastcmd := by
  unfold State.takeTurn; split <;> rfl
@[simp] theorem State.takeTurn_timeout : s.takeTurn.timeout = s.timeout := by
  unfold State.takeTurn; split <;> rfl
@[simp] theorem State.takeTurn_grace : s.takeTurn.grace = s.grace := by
  unfold State.takeTurn; split <;> rfl
@[simp] theorem State.takeTurn_rxcnt : s.takeTurn.rxcnt = s.rxcnt := by
  unfold State.takeTurn; split <;> rfl
@[simp] theorem State.takeTurn_txd0 : s.takeTurn.txd0 = s.txd0 := by
  unfold State.takeTurn; split <;> rfl
@[simp] theorem State.takeTurn_txd1 : s.takeTurn.txd1 = s.txd1 := by
  unfold State.takeTurn; split <;> rfl
@[simp] theorem State.takeTurn_rxbuf : s.takeTurn.rxbuf = s.rxbuf := by
  unfold State.takeTurn; split <;> rfl
@[simp] theorem State.takeTurn_cyccnt : s.takeTurn.cyccnt = s.cyccnt := by
  unfold State.takeTurn; split <;> rfl
@[simp] theorem State.takeTurn_cntEn : s.takeTurn.cntEn = s.cntEn := by
  unfold State.takeTurn; split <;> rfl
@[simp] theorem State.takeTurn_rxlen : s.takeTurn.rxlen = s.rxlen := by
  unfold State.takeTurn; split <;> rfl
@[simp] theorem State.takeTurn_ldata : s.takeTurn.ldata = s.ldata := by
  unfold State.takeTurn; split <;> rfl
@[simp] theorem State.takeTurn_wstart : s.takeTurn.wstart = s.wstart := by
  unfold State.takeTurn; split <;> rfl
@[simp] theorem State.takeTurn_pstart : s.takeTurn.pstart = s.pstart := by
  unfold State.takeTurn; split <;> rfl
@[simp] theorem State.takeTurn_plimit : s.takeTurn.plimit = s.plimit := by
  unfold State.takeTurn; split <;> rfl
@[simp] theorem State.takeTurn_shr : s.takeTurn.shr = s.shr := by
  unfold State.takeTurn; split <;> rfl
@[simp] theorem State.takeTurn_bit : s.takeTurn.bit = s.bit := by
  unfold State.takeTurn; split <;> rfl
@[simp] theorem State.takeTurn_edge : s.takeTurn.edge = s.edge := by
  unfold State.takeTurn; split <;> rfl
@[simp] theorem State.takeTurn_widx : s.takeTurn.widx = s.widx := by
  unfold State.takeTurn; split <;> rfl
@[simp] theorem State.takeTurn_perr : s.takeTurn.perr = s.perr := by
  unfold State.takeTurn; split <;> rfl
@[simp] theorem State.takeTurn_ovr : s.takeTurn.ovr = s.ovr := by
  unfold State.takeTurn; split <;> rfl
@[simp] theorem State.takeTurn_csn : s.takeTurn.csn = s.csn := by
  unfold State.takeTurn; split <;> rfl
@[simp] theorem State.takeTurn_csDrv : s.takeTurn.csDrv = s.csDrv := by
  unfold State.takeTurn; split <;> rfl
@[simp] theorem State.takeTurn_sck : s.takeTurn.sck = s.sck := by
  unfold State.takeTurn; split <;> rfl
@[simp] theorem State.takeTurn_sckDrv : s.takeTurn.sckDrv = s.sckDrv := by
  unfold State.takeTurn; split <;> rfl
@[simp] theorem State.takeTurn_dout : s.takeTurn.dout = s.dout := by
  unfold State.takeTurn; split <;> rfl
@[simp] theorem State.takeTurn_doe : s.takeTurn.doe = s.doe := by
  unfold State.takeTurn; split <;> rfl
@[simp] theorem State.takeTurn_rdata : s.takeTurn.rdata = s.rdata := by
  unfold State.takeTurn; split <;> rfl

end Sys2Proof.Machine
end

