-- ==== Sys2Proof/Laws/Ops.lean ====
section
/-! SUPPORT. What each shared operation of Machine/Ops.lean and Machine/Operands.lean can do, said once. -/

namespace Sys2Proof.Machine

variable (s : State)

/-! ## BUSY -/

theorem State.busy_false_iff : s.busy = false ↔ s.phase = .off ∨ s.phase = .idle := by
  cases h : s.phase <;> simp [State.busy, h]

theorem State.busy_true_iff : s.busy = true ↔ s.phase ≠ .off ∧ s.phase ≠ .idle := by
  cases h : s.phase <;> simp [State.busy, h]

@[simp] theorem State.busy_setCav (b : Bool) : (s.setCav b).busy = s.busy := rfl
@[simp] theorem State.busy_setErr (e : ErrCode) : (s.setErr e).busy = s.busy := rfl
@[simp] theorem State.busy_setLastcmd (w : Word) : (s.setLastcmd w).busy = s.busy := rfl

/-! ## Taking a turn -/

theorem State.nextTurn_cons {t : Turn} {rest : List Turn} (h : s.agenda = t :: rest) :
    s.nextTurn = t := by
  simp [State.nextTurn, h]

theorem State.takeTurn_cons {t : Turn} {rest : List Turn} (h : s.agenda = t :: rest) :
    s.takeTurn = { s with agenda := rest, inp := t.inp } := by
  simp [State.takeTurn, h]

/-- Whatever the agenda holds, taking a turn changes only the model's own fields. -/
theorem State.takeTurn_eq :
    ∃ agenda inp draws, s.takeTurn = { s with agenda := agenda, inp := inp, draws := draws } := by
  unfold State.takeTurn
  split <;> exact ⟨_, _, _, rfl⟩

@[simp] theorem State.busy_takeTurn : s.takeTurn.busy = s.busy := by simp [State.busy]

/-! ## Accept -/

/-- Everything the accept checks can do. -/
theorem State.accept_cases (w : Word) (needs : Bool) (body : State → State) :
    (s.busy = true ∧ s.accept w needs body = s.setCav true) ∨
    (s.busy = false ∧ needs = true ∧ s.init = false ∧
      s.accept w needs body = (s.setLastcmd w).setErr .notInitialized) ∨
    (s.busy = false ∧ (needs = true → s.init = true) ∧
      s.accept w needs body = body (s.setLastcmd w)) := by
  unfold State.accept
  cases s.busy <;> cases needs <;> cases s.init <;> simp

theorem State.accept_busy {w : Word} {needs : Bool} {body : State → State} (h : s.busy = true) :
    s.accept w needs body = s.setCav true := by
  simp [State.accept, h]

theorem State.accept_notInit {w : Word} {body : State → State} (h : s.busy = false)
    (hi : s.init = false) :
    s.accept w true body = (s.setLastcmd w).setErr .notInitialized := by
  simp [State.accept, h, hi]

theorem State.accept_run {w : Word} {needs : Bool} {body : State → State} (h : s.busy = false)
    (hi : needs = true → s.init = true) : s.accept w needs body = body (s.setLastcmd w) := by
  cases needs <;> simp_all [State.accept]

theorem State.acceptIllegal_cases (w : Word) :
    (s.busy = true ∧ s.acceptIllegal w = s.setCav true) ∨
    (s.busy = false ∧ s.acceptIllegal w = (s.setLastcmd w).setErr .illegalCommand) := by
  unfold State.acceptIllegal
  cases s.busy <;> simp

/-! ## Chip-select multiplexer -/

theorem writeBit_getLsbD (v : BitVec 4) (k j : Nat) (b : Bool) (hj : j < 4) :
    (writeBit v k b).getLsbD j = if j = k then b else v.getLsbD j := by
  unfold writeBit
  by_cases h : j = k
  · subst h; cases b <;> simp [hj]
  · cases b <;> simp [h, hj]

theorem State.csn_setCsn_getLsbD (k j : Nat) (b : Bool) (hj : j < 4) :
    (s.setCsn k b).csn.getLsbD j
      = if j = k ∧ k < s.par.numSlaves then b else s.csn.getLsbD j := by
  by_cases hk : k < s.par.numSlaves
  · simp [hk, writeBit_getLsbD _ _ _ _ hj]
  · simp [hk]

theorem State.csLevel_setCsn (k j : Nat) (b : Bool) (hj : j < 4) :
    (s.setCsn k b).csLevel j = if j = k ∧ k < s.par.numSlaves then b else s.csLevel j := by
  by_cases h : j < s.par.numSlaves
  · simp only [State.csLevel, State.setCsn_par, h, if_true, s.csn_setCsn_getLsbD k j b hj]
  · have : ¬(j = k ∧ k < s.par.numSlaves) := fun ⟨e, hk⟩ => h (e ▸ hk)
    simp [State.csLevel, h, this]

theorem State.otherSelected_false_iff :
    s.otherSelected = false ↔ ∀ k, k < 4 → k ≠ s.sel.toNat → s.csLevel k = true := by
  simp [State.otherSelected]

/-- CsAssert answers a next state exactly when no other line is asserted. -/
theorem State.csAssert_next_iff (t : State) :
    s.csAssert = .next t ↔ s.otherSelected = false ∧ t = s.setCsn s.sel.toNat false := by
  unfold State.csAssert
  cases s.otherSelected <;> simp [eq_comm]

theorem State.csAssert_of_none (h : s.otherSelected = false) :
    s.csAssert = .next (s.setCsn s.sel.toNat false) := by
  simp [State.csAssert, h]

theorem andThen_next_iff (o : Host.Outcome State Fault Refusal) (f : State → State) (t : State) :
    andThen o f = .next t ↔ ∃ u, o = .next u ∧ t = f u := by
  cases o <;> simp [andThen, eq_comm]

/-! ## Operands -/

theorem State.slaveValid_iff (k : Nat) : s.slaveValid k = true ↔ k < s.par.numSlaves := by
  simp [State.slaveValid]

theorem State.lengthValid_iff (n : Nat) : s.lengthValid n = true ↔ n ≤ s.par.rxDepth := by
  simp [State.lengthValid]

/-! ## RXBUF -/

theorem State.rxbuf_length_setRxWord (j : Nat) (w : Half) :
    (s.setRxWord j w).rxbuf.length = s.rxbuf.length := by
  simp

/-- A read after a write to the same entry gives the value written. -/
theorem State.rxWord_setRxWord_self (j : Nat) (w : Half) (h : j < s.rxbuf.length) :
    (s.setRxWord j w).rxWord j = w := by
  simp [State.rxWord, h]

/-- A write leaves every other entry alone. -/
theorem State.rxWord_setRxWord_other (j i : Nat) (w : Half) (h : i ≠ j) :
    (s.setRxWord j w).rxWord i = s.rxWord i := by
  simp [State.rxWord, List.getD_eq_getElem?_getD, List.getElem?_set_ne (Ne.symm h)]

/-! ## The register window -/

/-- Doubling from `p` reaches a power of two times `p` that is at least `t`, and none earlier. -/
theorem pow2From_spec (fuel p t : Nat) (hp : 0 < p) (hf : t ≤ p * 2 ^ fuel) :
    t ≤ pow2From fuel p t ∧ ∃ e, pow2From fuel p t = p * 2 ^ e ∧ ∀ e', e' < e → p * 2 ^ e' < t := by
  induction fuel generalizing p with
  | zero => exact ⟨by simpa [pow2From] using hf, 0, by simp [pow2From], by simp⟩
  | succ n ih =>
    unfold pow2From
    by_cases h : t ≤ p
    · rw [if_pos h]
      exact ⟨h, 0, by simp, by simp⟩
    · rw [if_neg h]
      obtain ⟨h1, e, he, hmin⟩ := ih (2 * p) (by omega) (by
        calc t ≤ p * 2 ^ (n + 1) := hf
          _ = 2 * p * 2 ^ n := by ring)
      refine ⟨h1, e + 1, by rw [he]; ring, ?_⟩
      intro e' he'
      cases e' with
      | zero => simpa using Nat.lt_of_not_le h
      | succ m =>
        have := hmin m (by omega)
        calc p * 2 ^ (m + 1) = 2 * p * 2 ^ m := by ring
          _ < t := this

/-- The window holds the map (R81). -/
theorem wspan_ge (p : Params) : 0x100 + 4 * p.rxDepth ≤ wspan p :=
  (pow2From_spec _ _ _ (by omega)
    (by rw [one_mul]; exact Nat.le_of_lt Nat.lt_two_pow_self)).1

theorem regAt_rxbuf (p : Params) (j : Nat) (h : j < p.rxDepth) :
    regAt p (0x100 + 4 * j) = .rxbuf j := by
  have h1 : ¬(0x100 + 4 * j < 0x100) := by omega
  have h2 : 0x100 + 4 * j < 0x100 + 4 * p.rxDepth := by omega
  have h3 : (0x100 + 4 * j - 0x100) / 4 = j := by omega
  unfold regAt
  simp only [h1, h2, h3, if_true, if_false]
  split_ifs <;> first | omega | rfl

end Sys2Proof.Machine
end

