-- ==== Sys2Proof/Laws/Flags.lean ====
section
/-! SUPPORT. The bits of STATUS and PARAM (20_memory.md R85, R93), one lemma per word. -/

namespace Sys2Proof.Machine

variable (s : State)

theorem State.csactBits_getLsbD (k : Nat) (h : k < 4) : s.csactBits.getLsbD k = s.csActive k := by
  unfold State.csactBits
  show ((BitVec.ofBool (s.csActive 3) ++ BitVec.ofBool (s.csActive 2) ++ BitVec.ofBool (s.csActive 1)
    ++ BitVec.ofBool (s.csActive 0) : BitVec (1 + 1 + 1 + 1))).getLsbD k = _
  simp only [BitVec.getLsbD_append]
  interval_cases k <;> simp

/-- Bit `i` of STATUS. -/
theorem State.statusWord_getLsbD (i : Nat) (hi : i < 32) :
    s.statusWord.getLsbD i =
      if i < 1 then s.busy else if i < 2 then s.init else if i < 3 then s.dir
      else if i < 4 then s.selv else if i < 6 then s.sel.getLsbD (i - 4)
      else if i < 7 then s.cav else if i < 8 then s.ovr
      else if i < 12 then s.err.code.getLsbD (i - 8) else if i < 16 then s.phase.code.getLsbD (i - 12)
      else if i < 20 then s.csActive (i - 16) else if i < 21 then s.csDrv
      else if i < 22 then s.doe else if i < 23 then s.sckDrv else false := by
  have hcs := s.csactBits_getLsbD
  unfold State.statusWord
  show ((0#9 ++ BitVec.ofBool s.sckDrv ++ BitVec.ofBool s.doe ++ BitVec.ofBool s.csDrv
    ++ s.csactBits ++ s.phase.code ++ s.err.code ++ BitVec.ofBool s.ovr ++ BitVec.ofBool s.cav
    ++ s.sel ++ BitVec.ofBool s.selv ++ BitVec.ofBool s.dir ++ BitVec.ofBool s.init
    ++ BitVec.ofBool s.busy : BitVec (9 + 1 + 1 + 1 + 4 + 4 + 4 + 1 + 1 + 2 + 1 + 1 + 1 + 1))).getLsbD i
      = _
  generalize s.csactBits = cb at *
  simp only [BitVec.getLsbD_append]
  interval_cases i <;> simp <;>
    first
    | exact hcs 0 (by omega)
    | exact hcs 1 (by omega)
    | exact hcs 2 (by omega)
    | exact hcs 3 (by omega)

/-- Bit `i` of PARAM. -/
theorem paramWord_getLsbD (p : Params) (i : Nat) (hi : i < 32) :
    (paramWord p).getLsbD i =
      if i < 3 then (BitVec.ofNat 3 p.numSlaves).getLsbD i else if i < 4 then p.cpol
      else if i < 5 then p.cpha else if i < 6 then p.lsbFirst else if i < 7 then p.wiring == .fourWire
      else if i < 16 then false else (BitVec.ofNat 16 p.rxDepth).getLsbD (i - 16) := by
  unfold paramWord
  show ((BitVec.ofNat 16 p.rxDepth ++ 0#9 ++ BitVec.ofBool (p.wiring == .fourWire)
    ++ BitVec.ofBool p.lsbFirst ++ BitVec.ofBool p.cpha ++ BitVec.ofBool p.cpol
    ++ BitVec.ofNat 3 p.numSlaves : BitVec (16 + 9 + 1 + 1 + 1 + 1 + 3))).getLsbD i = _
  generalize BitVec.ofNat 16 p.rxDepth = x
  generalize BitVec.ofNat 3 p.numSlaves = y
  simp only [BitVec.getLsbD_append]
  interval_cases i <;> simp

end Sys2Proof.Machine
end

