-- ==== Sys2Proof/Laws/Asm.lean ====
section
/-! SUPPORT. What the assembler writes, and what a program's host step does. -/

namespace Sys2Proof.Machine

/-- The assembler writes `c` exactly for a well-formed command whose encoding is `c` (R122). -/
theorem assemble_eq_some_iff (i : Instr) (c : Word) :
    assemble i = some c ↔ i.wellFormed = true ∧ encode i = c := by
  simp [assemble]

/-- An operand out of its range is an assembly error (R122). -/
theorem assemble_eq_none_iff (i : Instr) : assemble i = none ↔ i.wellFormed = false := by
  simp [assemble]

/-- A command on its own line writes its encoding to CMD (R123). -/
theorem cmd_mnemonic (i : Instr) (h : i.wellFormed = true) :
    cmd (.mnemonic i) = some (wr 0x000 (encode i)) := by
  simp [cmd, CommandText.assemble, assemble, h]

/-- An ill-formed command on its own line writes nothing (R122). -/
theorem cmd_illFormed (i : Instr) (h : i.wellFormed = false) : cmd (.mnemonic i) = none := by
  simp [cmd, CommandText.assemble, assemble, h]

/-- One host step of POLL reads STATUS and stays at POLL exactly while BUSY = 1 (R124). -/
theorem programStep_poll (rest : List HostLine) (s : State) :
    programStep (poll :: rest) s =
      .next (if s.busy then poll :: rest else rest, s.setRdata s.statusWord) := by
  have hw : offsetOf s.par (.offset 0x004) = some 0x004 :=
    if_pos (Nat.lt_of_lt_of_le (by omega) (wspan_ge s.par))
  have hr : s.readReg (regAt s.par 0x004) = s.statusWord := rfl
  have hb : s.statusWord.getLsbD 0 = s.busy := s.statusWord_getLsbD 0 (by omega)
  simp only [programStep, poll, HostLine.access, rd, stepHost, hw, hostRead, hr]
  show Host.Outcome.next (if s.statusWord.getLsbD 0 then _ else _, _) = _
  rw [hb]

end Sys2Proof.Machine
end

