-- ==== Sys2Proof/Laws/Decode.lean ====
section
/-! SUPPORT. The fields of a command word (30_encoding.md R111): what each field of the layout reads, and a
word put together again from its fields. -/

namespace Sys2Proof

/-- The layout of R111 on field values. -/
def fieldsWord (n : BitVec 16) (d : Bool) (k o : BitVec 4) : Word :=
  n ++ 0#7 ++ BitVec.ofBool d ++ k ++ o

theorem commandWord_eq (op : Op) (s : Nat) (d : Bool) (n : Nat) :
    commandWord op s d n = fieldsWord (BitVec.ofNat 16 n) d (BitVec.ofNat 4 s) op.code := rfl

/-- Bit `i` of a word laid out as R111 says. -/
theorem fieldsWord_getLsbD (n : BitVec 16) (d : Bool) (k o : BitVec 4) (i : Nat) :
    (fieldsWord n d k o).getLsbD i =
      if i < 4 then o.getLsbD i
      else if i < 8 then k.getLsbD (i - 4)
      else if i < 9 then d && decide (i = 8)
      else if i < 16 then false
      else n.getLsbD (i - 16) := by
  show (n ++ 0#7 ++ BitVec.ofBool d ++ k ++ o : BitVec (16 + 7 + 1 + 4 + 4)).getLsbD i = _
  simp only [BitVec.getLsbD_append]
  split_ifs <;> first | rfl | omega | (have : i = 8 := by omega); subst this; simp | simp

theorem opField_fieldsWord (n : BitVec 16) (d : Bool) (k o : BitVec 4) :
    opField (fieldsWord n d k o) = o := by
  apply BitVec.eq_of_getLsbD_eq
  intro i hi
  simp [opField, fieldsWord_getLsbD, hi]

theorem slaveField_fieldsWord (n : BitVec 16) (d : Bool) (k o : BitVec 4) :
    slaveField (fieldsWord n d k o) = k.toNat := by
  unfold slaveField
  congr 1
  apply BitVec.eq_of_getLsbD_eq
  intro i hi
  have h : 4 + i < 8 := by omega
  simp [fieldsWord_getLsbD, hi, h]

theorem dataField_fieldsWord (n : BitVec 16) (d : Bool) (k o : BitVec 4) :
    dataField (fieldsWord n d k o) = d := by
  rw [dataField, fieldsWord_getLsbD]
  simp

theorem rxlenField_fieldsWord (n : BitVec 16) (d : Bool) (k o : BitVec 4) :
    rxlenField (fieldsWord n d k o) = n.toNat := by
  unfold rxlenField
  congr 1
  apply BitVec.eq_of_getLsbD_eq
  intro i hi
  have h1 : ¬16 + i < 4 := by omega
  have h2 : ¬16 + i < 8 := by omega
  have h3 : ¬16 + i < 9 := by omega
  have h4 : ¬16 + i < 16 := by omega
  have h5 : 16 + i - 16 = i := by omega
  simp only [BitVec.getLsbD_extractLsb', fieldsWord_getLsbD, hi, h1, h2, h3, h4, h5, if_false,
    decide_true, Bool.true_and]

/-- A word is the layout of its fields when its bits 15:9 are 0. -/
theorem eq_fieldsWord (c : Word) (h : ∀ i, 9 ≤ i → i < 16 → c.getLsbD i = false) :
    c = fieldsWord (c.extractLsb' 16 16) (c.getLsbD 8) (c.extractLsb' 4 4) (opField c) := by
  apply BitVec.eq_of_getLsbD_eq
  intro i hi
  rw [fieldsWord_getLsbD]
  split_ifs with h1 h2 h3 h4
  · simp [opField, h1]
  · have : 4 + (i - 4) = i := by omega
    have h' : i - 4 < 4 := by omega
    simp [this, h']
  · have : i = 8 := by omega
    subst this
    simp
  · exact h i (by omega) h4
  · have : 16 + (i - 16) = i := by omega
    have h' : i - 16 < 16 := by omega
    simp [this, h']

/-- An AND is 0 exactly when no bit stands in both words. -/
theorem and_eq_zero_iff (a b : Word) :
    a &&& b = 0 ↔ ∀ i, i < 32 → b.getLsbD i = true → a.getLsbD i = false := by
  constructor
  · intro h i _ hb
    have : (a &&& b).getLsbD i = false := by rw [h]; simp
    simpa [BitVec.getLsbD_and, hb] using this
  · intro h
    apply BitVec.eq_of_getLsbD_eq
    intro i hi
    rw [BitVec.getLsbD_and]
    cases hb : b.getLsbD i
    · simp
    · simp [h i hi hb]

theorem ofCode_code (op : Op) : Op.ofCode op.code = some op := by cases op <;> rfl

theorem code_of_ofCode {b : BitVec 4} {op : Op} (h : Op.ofCode b = some op) : op.code = b := by
  revert b op
  decide

theorem Op.op_withFields (op : Op) (c : Word) : (op.withFields c).op = op := by cases op <;> rfl

/-- Everything a legal word can be. -/
theorem decode_legal_iff (c : Word) (i : Instr) :
    decode c = .legal i ↔ opField c = i.op.code ∧ c &&& i.op.mbz = 0 ∧ i = i.op.withFields c := by
  unfold decode
  constructor
  · intro h
    split at h
    · cases h
    · rename_i op hop
      split at h
      · cases h
      · rename_i hz
        injection h with h
        subst h
        rw [Op.op_withFields]
        exact ⟨(code_of_ofCode hop).symm, by simpa using hz, rfl⟩
  · rintro ⟨h1, h2, h3⟩
    rw [h1, ofCode_code]
    simp only [h2, ne_eq, not_true_eq_false, if_false]
    rw [← h3]

end Sys2Proof
end

