-- ==== Sys2Proof/Laws/Delay.lean ====
section
/-! SUPPORT. The arithmetic of the delay engine (40_engines.md R141-R148). -/

namespace Sys2Proof.Machine

/-- R14's formula for ceil_div. -/
theorem ceilDiv_eq_formula (a b : Nat) (h : 0 < b) : ceilDiv a b = (a + b - 1) / b := by
  unfold ceilDiv
  have hd := Nat.div_add_mod a b
  have hm := Nat.mod_lt a h
  generalize a / b = q at *
  generalize a % b = r at *
  subst hd
  by_cases hr : r = 0
  · subst hr
    have : b * q + 0 + b - 1 = b * q + (b - 1) := by omega
    rw [this, Nat.mul_add_div h, Nat.div_eq_of_lt (by omega)]
    simp
  · have : b * q + r + b - 1 = b * (q + 1) + (r - 1) := by
      have : b * (q + 1) = b * q + b := by ring
      omega
    rw [this, Nat.mul_add_div h, Nat.div_eq_of_lt (by omega)]
    simp [hr]

/-- ceil_div is the least multiple count that reaches `a`. -/
theorem ceilDiv_le_iff (a b c : Nat) (h : 0 < b) : ceilDiv a b ≤ c ↔ a ≤ b * c := by
  rw [ceilDiv_eq_formula a b h, Nat.div_le_iff_le_mul_add_pred h]
  omega

/-- The threshold in plain arithmetic. -/
theorem graceCycles_eq (f : Nat) : graceCycles f = (5 * f + 999999) / 1000000 := by
  unfold graceCycles
  rw [ceilDiv_eq_formula _ _ (by omega)]
  congr 1

theorem graceCycles_lt (f : Word) : graceCycles f.toNat < 2 ^ 32 := by
  have := f.isLt
  rw [graceCycles_eq]
  omega

theorem watchdogCycles_lt (ms f : Nat) : watchdogCycles ms f < 2 ^ 32 := by
  unfold watchdogCycles
  omega

theorem ceilDiv_pos (a b : Nat) (h : 0 < b) (ha : 0 < a) : 0 < ceilDiv a b := by
  by_contra hc
  have := (ceilDiv_le_iff a b 0 h).mp (by omega)
  omega

/-- GRACE holds the threshold with no truncation. -/
theorem State.graceBegin_grace_toNat (s : State) :
    s.graceBegin.grace.toNat = graceCycles s.inp.clkf.toNat := by
  have := graceCycles_lt s.inp.clkf
  simp only [State.graceBegin_grace, BitVec.toNat_ofNat]
  omega

/-- PLIMIT holds the limit with no truncation. -/
theorem State.armWatchdog_plimit_toNat (s : State) :
    s.armWatchdog.plimit.toNat = watchdogCycles s.timeout.toNat s.inp.clkf.toNat := by
  have := watchdogCycles_lt s.timeout.toNat s.inp.clkf.toNat
  simp only [State.armWatchdog_plimit, BitVec.toNat_ofNat]
  omega

theorem State.graceDone_iff (s : State) :
    s.graceDone = true ↔ s.grace.toNat ≤ s.elapsed s.wstart := by
  simp [State.graceDone]

theorem State.expired_iff (s : State) :
    s.expired = true ↔ s.plimit.toNat ≤ s.elapsed s.pstart := by
  simp [State.expired]

/-- Everything a tick can do. -/
theorem State.tick_cases (s : State) :
    (s.cntEn = true ∧ s.tick = { s with cyccnt := s.cyccnt + 1 }) ∨
    (s.cntEn = false ∧ s.tick = s) := by
  unfold State.tick
  cases s.cntEn <;> simp

end Sys2Proof.Machine
end

