-- ==== Sys2Proof/Laws/Shift.lean ====
section
/-! SUPPORT. What the shift engine of Machine/Shift.lean can do, said once. -/

namespace Sys2Proof.Machine

variable (s : State)

theorem State.ntxw_eq : s.ntxw = if s.ldata then 2 else 1 := by
  unfold State.ntxw
  cases s.ldata <;> rfl

/-! ## LoadTx -/

theorem State.loadTx_eq (j : Nat) :
    s.loadTx j = { s with
      shr := if j = 0 then s.txd0 else s.txd1
      bit := 0
      edge := .lead
      dout := if s.par.cpha then s.dout
        else outBit s.par.lsbFirst (if j = 0 then s.txd0 else s.txd1) 0 } := by
  unfold State.loadTx State.putBit
  cases s.par.cpha <;> simp

/-! ## TxEdge -/

theorem State.txEdge_lead (h : s.edge = .lead) :
    s.txEdge = { s with
      sck := !s.par.cpol
      edge := .trail
      dout := if s.par.cpha then outBit s.par.lsbFirst s.shr s.bit.toNat else s.dout } := by
  unfold State.txEdge State.putBit
  cases s.par.cpha <;> simp [h]

theorem State.txEdge_trail_mid (h : s.edge = .trail) (hb : s.bit ≠ 15) :
    s.txEdge = { s with
      sck := s.par.cpol
      edge := .lead
      bit := s.bit + 1
      dout := if s.par.cpha then s.dout else outBit s.par.lsbFirst s.shr (s.bit + 1).toNat } := by
  simp only [State.txEdge, State.putBit, h, if_neg hb]
  cases s.par.cpha <;> rfl

theorem State.txEdge_trail_last (h : s.edge = .trail) (hb : s.bit = 15)
    (hw : ¬(s.widx + 1).toNat < s.ntxw) :
    s.txEdge = { s with
      sck := s.par.cpol
      edge := .lead
      bit := 0
      widx := s.widx + 1 } := by
  simp only [State.txEdge, h, if_pos hb]
  exact if_neg hw

theorem State.txEdge_trail_next (h : s.edge = .trail) (hb : s.bit = 15)
    (hw : (s.widx + 1).toNat < s.ntxw) :
    s.txEdge = ({ s with
      sck := s.par.cpol
      edge := .lead
      bit := 0
      widx := s.widx + 1 } : State).loadTx (s.widx + 1).toNat := by
  simp only [State.txEdge, h, if_pos hb]
  exact if_pos hw

/-- Everything TxEdge leaves unchanged: it writes only SCK, DOUT, EDGE, BIT, SHR and WIDX. -/
theorem State.txEdge_frame :
    ∃ sck dout edge bit shr widx, s.txEdge = { s with
      sck := sck, dout := dout, edge := edge, bit := bit, shr := shr, widx := widx } := by
  cases h : s.edge with
  | lead => rw [s.txEdge_lead h]; exact ⟨_, _, _, _, _, _, rfl⟩
  | trail =>
    by_cases hb : s.bit = 15
    · by_cases hw : (s.widx + 1).toNat < s.ntxw
      · rw [s.txEdge_trail_next h hb hw, State.loadTx_eq]; exact ⟨_, _, _, _, _, _, rfl⟩
      · rw [s.txEdge_trail_last h hb hw]; exact ⟨_, _, _, _, _, _, rfl⟩
    · rw [s.txEdge_trail_mid h hb]; exact ⟨_, _, _, _, _, _, rfl⟩

/-! ## ShiftIn -/

/-- Bit `i` of SHR after a bit is shifted in. -/
theorem shiftIn_getLsbD (lsbFirst : Bool) (r : Half) (b : Bool) (i : Nat) (hi : i < 16) :
    (shiftIn lsbFirst r b).getLsbD i =
      if lsbFirst then (if i = 15 then b else r.getLsbD (i + 1))
      else (if i = 0 then b else r.getLsbD (i - 1)) := by
  cases lsbFirst
  · show ((r.extractLsb' 0 15 ++ BitVec.ofBool b : BitVec (15 + 1))).getLsbD i = _
    rw [BitVec.getLsbD_append]
    by_cases h : i < 1
    · obtain rfl : i = 0 := by omega
      simp
    · rw [if_neg h]
      simp [show i ≠ 0 by omega, show i - 1 < 15 by omega]
  · show ((BitVec.ofBool b ++ r.extractLsb' 1 15 : BitVec (1 + 15))).getLsbD i = _
    rw [BitVec.getLsbD_append]
    by_cases h : i < 15
    · simp [h, show i ≠ 15 by omega, Nat.add_comm]
    · obtain rfl : i = 15 := by omega
      simp

/-! ## RxEdge -/

theorem State.rxEdge_lead (h : s.edge = .lead) :
    s.rxEdge = { s with
      sck := !s.par.cpol
      edge := .trail
      shr := if s.par.cpha then s.shr else shiftIn s.par.lsbFirst s.shr s.inp.din } := by
  unfold State.rxEdge State.sampleDin
  cases s.par.cpha <;> simp [h]

/-- SHR as a trailing edge of the receive phase leaves it. -/
abbrev State.rxTrailShr : Half :=
  if s.par.cpha then shiftIn s.par.lsbFirst s.shr s.inp.din else s.shr

theorem State.rxEdge_trail_mid (h : s.edge = .trail) (hb : s.bit ≠ 15) :
    s.rxEdge = { s with
      sck := s.par.cpol
      edge := .lead
      bit := s.bit + 1
      shr := s.rxTrailShr } := by
  simp only [State.rxEdge, State.sampleDin, State.rxTrailShr, h, if_neg hb]
  cases s.par.cpha <;> rfl

theorem State.rxEdge_trail_last (h : s.edge = .trail) (hb : s.bit = 15) :
    s.rxEdge = { s with
      sck := s.par.cpol
      edge := .lead
      bit := 0
      shr := s.rxTrailShr
      widx := s.widx + 1
      rxbuf := s.rxbuf.set s.widx.toNat s.rxTrailShr } := by
  simp only [State.rxEdge, State.sampleDin, State.setRxWord, State.rxTrailShr, h, if_pos hb]
  cases s.par.cpha <;> rfl

/-- Everything RxEdge leaves unchanged: it writes only SCK, EDGE, BIT, SHR, WIDX and one RXBUF entry. -/
theorem State.rxEdge_frame :
    ∃ sck edge bit shr widx rxbuf, s.rxEdge = { s with
      sck := sck, edge := edge, bit := bit, shr := shr, widx := widx, rxbuf := rxbuf } ∧
      rxbuf.length = s.rxbuf.length := by
  cases h : s.edge with
  | lead => rw [s.rxEdge_lead h]; exact ⟨_, _, _, _, _, _, rfl, rfl⟩
  | trail =>
    by_cases hb : s.bit = 15
    · rw [s.rxEdge_trail_last h hb]; exact ⟨_, _, _, _, _, _, rfl, by simp⟩
    · rw [s.rxEdge_trail_mid h hb]; exact ⟨_, _, _, _, _, _, rfl, rfl⟩

end Sys2Proof.Machine
end

