-- ==== Sys2Proof/Laws/Step.lean ====
section
/-! SUPPORT. What one step can do, said once: the shape of every command's meaning, of a host step and of
a controller step. -/

namespace Sys2Proof.Machine

/-! ## Commands -/

/-- The body of each command after the accept checks. -/
def bodyOf : Instr → State → State
  | .nop => State.nopBody
  | .init => State.initBody
  | .select k => State.selectBody k
  | .xfer d n => State.xferBody d n
  | .sendrecv k d n => State.sendrecvBody k d n
  | .trig => State.trigBody
  | .deinit => State.deinitBody

/-- Every command is its body behind the one set of accept checks. -/
theorem exec_eq_accept (i : Instr) (s : State) :
    exec i s = .next (s.accept (encode i) (needsInit i) (bodyOf i)) := by
  cases i <;> rfl

theorem acceptWord_cases (v : Word) (s : State) :
    (∃ i, decode v = .legal i ∧ acceptWord v s = exec i s) ∨
    (∃ why, decode v = .illegal why ∧ acceptWord v s = .next (s.acceptIllegal v)) := by
  unfold acceptWord
  cases decode v <;> simp

/-- A step whose turn heads the agenda. -/
theorem step_cons {s : State} {t : Turn} {rest : List Turn} (h : s.agenda = t :: rest) :
    step s = stepAgent t.agent { s with agenda := rest, inp := t.inp } := by
  rw [step, s.nextTurn_cons h, s.takeTurn_cons h]

/-! ## Host steps -/

theorem offsetOf_offset_of_lt {p : Params} {off : Nat} (h : off < wspan p) :
    offsetOf p (.offset off) = some off := by
  simp [offsetOf, h]

/-- Everything a host step that answers a next state can do. -/
theorem stepHost_next_cases {a : HostAccess} {s t : State} (h : stepHost a s = .next t) :
    (offsetOf s.par a.target = none ∧ t = outsideAccess a.kind s) ∨
    ∃ off, offsetOf s.par a.target = some off ∧ a.width = .word ∧ off % 4 = 0 ∧
      ((a.kind = .read ∧ t = hostRead off s) ∨
        ∃ v, a.kind = .write v ∧ hostWrite off v s = .next t) := by
  unfold stepHost at h
  split at h
  · rename_i ho
    left
    exact ⟨ho, by simpa using h.symm⟩
  · rename_i off ho
    right
    split at h
    · cases h
    · rename_i hw
      split at h
      · cases h
      · rename_i hal
        refine ⟨off, ho, by simpa using hw, by simpa using hal, ?_⟩
        split at h
        · rename_i hk
          exact .inl ⟨hk, by simpa using h.symm⟩
        · rename_i v hk
          exact .inr ⟨v, hk, h⟩

/-! ## Controller steps -/

/-- Outside X_START and T_ASSERT the controller always answers; there it refuses only a second
chip-select. -/
theorem stepController_next_cases {s t : State} (h : stepController s = .next t) :
    ((s.phase = .off ∨ s.phase = .idle) ∧ t = s) ∨
    (s.phase = .xStart ∧ s.otherSelected = false ∧ stepXStart s = .next t) ∨
    (s.phase = .xTx ∧ t = stepXTx s) ∨
    (s.phase = .xGrace ∧ t = stepXGrace s) ∨
    (s.phase = .xDirsw ∧ t = stepXDirsw s) ∨
    (s.phase = .xRx ∧ t = stepXRx s) ∨
    (s.phase = .xRelease ∧ t = stepXRelease s) ∨
    (s.phase = .xRestore ∧ t = stepXRestore s) ∨
    (s.phase = .tStart ∧ t = stepTStart s) ∨
    (s.phase = .tAssert ∧ s.otherSelected = false ∧ stepTAssert s = .next t) ∨
    (s.phase = .tHold ∧ t = stepTHold s) ∨
    (s.phase = .tRelease ∧ t = stepTRelease s) ∨
    (s.phase = .tEnd ∧ t = stepTEnd s) := by
  unfold stepController at h
  cases hp : s.phase <;> simp only [hp] at h <;>
    first
    | (have ht := (Host.Outcome.next.inj h).symm; subst ht; simp)
    | (have ho : s.otherSelected = false := by
        cases hb : s.otherSelected
        · rfl
        · simp [stepXStart, stepTAssert, andThen, State.csAssert, hb] at h
       simp [ho, h])

/-- X_START and T_ASSERT when no other line is asserted. -/
theorem stepXStart_of_none {s : State} (h : s.otherSelected = false) :
    stepXStart s = .next
      ((({ (s.setCsn s.sel.toNat false).armWatchdog with widx := 0 } : State).loadTx 0).setPhase
        .xTx) := by
  simp [stepXStart, s.csAssert_of_none h, andThen]

theorem stepTAssert_of_none {s : State} (h : s.otherSelected = false) :
    stepTAssert s = .next ((s.setCsn s.sel.toNat false).graceBegin.setPhase .tHold) := by
  simp [stepTAssert, s.csAssert_of_none h, andThen]

end Sys2Proof.Machine
end

