-- ==== Sys2Proof/Laws/Invariant.lean ====
section
/-! SUPPORT. What the invariants of Safety.lean say of the chip-selects, the edge and a busy state. -/

namespace Sys2Proof.Machine

theorem csn_eq_all_ones (v : BitVec 4) (h : ∀ k, k < 4 → v.getLsbD k = true) : v = 0b1111 := by
  apply BitVec.eq_of_getLsbD_eq
  intro i hi
  rw [h i hi]
  revert i
  decide

variable {s : State}

/-- Outside the selecting phases every CSN bit is 1. -/
theorem State.Inv.csn_high (h : s.Inv) (hp : s.phase.selects = false) : s.csn = 0b1111 := by
  apply csn_eq_all_ones
  intro k hk
  by_contra hc
  have := h.i1 k hk (by simpa using hc)
  simp [hp] at this

/-- No line other than that of SEL is asserted, so CsAssert answers. -/
theorem State.Inv.no_other_selected (h : s.Inv) : s.otherSelected = false := by
  rw [State.otherSelected_false_iff]
  intro k hk hne
  unfold State.csLevel
  split
  · by_contra hc
    exact hne (h.i1 k hk (by simpa using hc)).1
  · rfl

/-- CsAssert on an idle bus leaves the one bit of SEL at 0. -/
theorem State.csn_setCsn_low (h15 : s.csn = 0b1111) (hn : s.sel.toNat < s.par.numSlaves) :
    (s.setCsn s.sel.toNat false).csn = ~~~(BitVec.twoPow 4 s.sel.toNat) := by
  simp only [State.setCsn_csn, hn, if_true, writeBit, h15]
  have := s.sel.isLt
  generalize s.sel.toNat = x at *
  clear hn h15
  revert x
  decide

/-- CsDeassert leaves every CSN bit at 1. -/
theorem State.Inv.csn_setCsn_high (h : s.Inv) (hb : s.busy = true) :
    (s.setCsn s.sel.toNat true).csn = 0b1111 := by
  have hn := h.binding (h.i4 hb).2.1
  apply csn_eq_all_ones
  intro k hk
  rw [s.csn_setCsn_getLsbD _ _ _ hk]
  split
  · rfl
  · rename_i hx
    by_contra hc
    exact hx ⟨(h.i1 k hk (by simpa using hc)).1, hn⟩

/-- Outside the shifting phases the next edge is a leading one. -/
theorem State.Inv.edge_lead (h : s.Inv) (h1 : s.phase ≠ .xTx) (h2 : s.phase ≠ .xRx) :
    s.edge = .lead := by
  have a := h.i8.2 h1 h2
  have b := h.i8.1
  cases he : s.edge with
  | lead => rfl
  | trail =>
    have := b.2 he
    rw [a] at this
    cases hx : s.par.cpol <;> simp [hx] at this

/-- OVR is a function of the phase. -/
theorem State.Inv.ovr_eq (h : s.Inv) : s.ovr = s.phase.overrides := by
  have := h.i7
  unfold State.I7 at this
  cases h1 : s.ovr <;> cases h2 : s.phase.overrides <;> simp_all

/-- DIR is 0 outside the phases that may receive. -/
theorem State.Inv.dir_low (h : s.Inv) (hp : s.phase.mayReceive = false) : s.dir = false := by
  by_contra hc
  have := h.i6 (by simpa using hc)
  simp [hp] at this

/-- The invariants name no register that a host write or a turn changes outside the commands. -/
theorem State.Inv.congr (h : s.Inv) (cav : Bool) (lastcmd timeout grace : Word) (txd0 txd1 : Half)
    (cyccnt wstart pstart plimit : Word) (shr : Half) (dout : Bool) (inp : Inputs)
    (agenda : List Turn) (draws : Nat) (rdata : Option Word) :
    ({ s with
      cav := cav, lastcmd := lastcmd, timeout := timeout, grace := grace, txd0 := txd0, txd1 := txd1,
      cyccnt := cyccnt, wstart := wstart, pstart := pstart, plimit := plimit, shr := shr, dout := dout,
      inp := inp, agenda := agenda, draws := draws, rdata := rdata } : State).Inv := by
  obtain ⟨i1, i2, i3, i4, i5, i6, i7, i8, i9, i10, i11, a, b, c, d, e, f, g, j, k, l, m, n⟩ := h
  exact ⟨i1, i2, i3, i4, i5, i6, i7, i8, i9, i10, i11, a, b, c, d, e, f, g, j, k, l, m, n⟩

/-- Taking a turn keeps the invariants. -/
theorem State.Inv.takeTurn (h : s.Inv) : s.takeTurn.Inv := by
  obtain ⟨a, b, c, e⟩ := s.takeTurn_eq
  rw [e]
  exact h.congr s.cav s.lastcmd s.timeout s.grace s.txd0 s.txd1 s.cyccnt s.wstart s.pstart s.plimit
    s.shr s.dout b a c s.rdata

end Sys2Proof.Machine
end

