-- ==== Sys2Proof/Laws/PerInstr.lean ====
section
/-! SUPPORT. One statement per command of the syntax: its word carries its opcode and no must-be-zero bit
(30_encoding.md R112, R113). -/

namespace Sys2Proof.Laws.EncodedOpcode

/-- R112, R113: the encoded word has the command's opcode, and its must-be-zero bits are 0. -/
def Statement (i : Instr) : Prop := opField (encode i) = i.op.code ∧ encode i &&& i.op.mbz = 0

theorem nop : Statement .nop := by unfold Statement; decide

theorem init : Statement .init := by unfold Statement; decide

theorem trig : Statement .trig := by unfold Statement; decide

theorem deinit : Statement .deinit := by unfold Statement; decide

/-- The fields of a word leave bits 15:9 zero. -/
theorem fieldsWord_and_zero (n : BitVec 16) (d : Bool) (k o : BitVec 4) (m : Word)
    (h : ∀ i, i < 32 → m.getLsbD i = true → (fieldsWord n d k o).getLsbD i = false) :
    fieldsWord n d k o &&& m = 0 := (and_eq_zero_iff _ _).mpr h

theorem select (s : Nat) : Statement (.select s) := by
  refine ⟨opField_fieldsWord _ _ _ _, fieldsWord_and_zero _ _ _ _ _ ?_⟩
  intro i hi hm
  rw [fieldsWord_getLsbD]
  have h8 : ¬i < 8 := by
    intro h
    have : ∀ j, j < 8 → Op.select.mbz.getLsbD j = false := by decide
    exact absurd hm (by rw [show (Instr.select s).op = .select from rfl, this i h]; simp)
  have h4 : ¬i < 4 := by omega
  simp [h4, h8]

theorem xfer (d : Bool) (n : Nat) : Statement (.xfer d n) := by
  refine ⟨opField_fieldsWord _ _ _ _, fieldsWord_and_zero _ _ _ _ _ ?_⟩
  intro i hi hm
  rw [fieldsWord_getLsbD]
  have hb : ∀ j, j < 32 → Op.xfer.mbz.getLsbD j = true → (4 ≤ j ∧ j < 8) ∨ (9 ≤ j ∧ j < 16) := by
    decide
  have h := hb i hi hm
  have h4 : ¬i < 4 := by omega
  rcases h with h | h
  · simp [h4, h.2]
  · have h8 : ¬i < 8 := by omega
    have h9 : ¬i < 9 := by omega
    simp [h4, h8, h9, h.2]

theorem sendrecv (s : Nat) (d : Bool) (n : Nat) : Statement (.sendrecv s d n) := by
  refine ⟨opField_fieldsWord _ _ _ _, fieldsWord_and_zero _ _ _ _ _ ?_⟩
  intro i hi hm
  rw [fieldsWord_getLsbD]
  have hb : ∀ j, j < 32 → Op.sendrecv.mbz.getLsbD j = true → 9 ≤ j ∧ j < 16 := by decide
  have h := hb i hi hm
  have h4 : ¬i < 4 := by omega
  have h8 : ¬i < 8 := by omega
  have h9 : ¬i < 9 := by omega
  simp [h4, h8, h9, h.2]

end Sys2Proof.Laws.EncodedOpcode
end

