-- ==== Sys2Proof/Laws/Run.lean ====
section
/-! SUPPORT. Runs of several steps, for a statement about a whole transfer or trigger. -/

namespace Sys2Proof.Machine

/-- One step more in front of a run. -/
theorem run_succ {s t : State} (k : Nat) (h : step s = .next t) :
    Host.Core.run core (k + 1) s = Host.Core.run core k t := by
  have hc : core.step s = .next t := h
  simp only [Host.Core.run, hc]

/-- A run of `a + b` steps is a run of `a` steps and then one of `b`. -/
theorem run_add {s t : State} (a b : Nat) (h : Host.Core.run core a s = .next t) :
    Host.Core.run core (a + b) s = Host.Core.run core b t := by
  induction a generalizing s with
  | zero =>
    obtain rfl := Host.Outcome.next.inj h
    rw [Nat.zero_add]
  | succ a ih =>
    rw [show a + 1 + b = a + b + 1 by omega]
    cases hs : step s with
    | next u =>
      rw [run_succ _ hs] at h ⊢
      exact ih h
    | fault r => cases r
    | refused r =>
      have hc : core.step s = .refused r := hs
      simp only [Host.Core.run, hc] at h
      cases h

/-- A step in which the controller moves. -/
theorem step_controller {s : State} {t : Turn} {rest : List Turn} (h : s.agenda = t :: rest)
    (ha : t.agent = .controller) :
    step s = stepController { s with agenda := rest, inp := t.inp } := by
  rw [step_cons h, ha]
  rfl

/-- A step in which the counter ticks, with CNT_EN = 1. -/
theorem step_tick {s : State} {t : Turn} {rest : List Turn} (h : s.agenda = t :: rest)
    (ha : t.agent = .counter) (hc : s.cntEn = true) :
    step s = .next { s with agenda := rest, inp := t.inp, cyccnt := s.cyccnt + 1 } := by
  rw [step_cons h, ha]
  simp [stepAgent, State.tick, hc]

end Sys2Proof.Machine
end

