-- ==== Sys2Proof/Tests/Slice0.lean ====
section
/-! SUPPORT. Checks of the model against 95_test_vectors.md and the spec's tables, and for every statement
with hypotheses a state and operands that meet them. -/

namespace Sys2Proof.Tests

open Sys2Proof Sys2Proof.Machine

/-! ## Small states -/

/-- CLKF = 48 MHz, DIN = 0, START_OK true. -/
def inp0 : Inputs := ⟨48000000, false, true, 7⟩

/-- The defaults of R11, in the window at 2 * WSPAN. -/
def par0 : Params := { Params.default with window := 2 }

/-- After reset, with numbers for the elements R59 leaves unspecified. -/
def offState : State := { State.atReset par0 0 inp0 [] none with
  rxbuf := List.replicate 64 0, cyccnt := 1000, wstart := 0, pstart := 0, shr := 0, dout := false,
  draws := 0 }

/-- After a successful INIT. -/
def idleState : State := { offState with
  init := true, phase := .idle, csDrv := true, cntEn := true, sckDrv := true, doe := true }

/-- Initialised, with slave `k` bound. -/
def bound (k : BitVec 2) : State := { idleState with selv := true, sel := k }

/-- An accepted XFER of `n` words on slave 0. -/
def startState (n : Half) : State := { bound 0 with phase := .xStart, rxlen := n }

/-- At the start of the transmit phase. -/
def txState : State := { startState 2 with phase := .xTx, csn := 0b1110, plimit := 10, pstart := 1000 }

/-- At the start of the receive phase. -/
def rxState : State := { txState with phase := .xRx, dir := true, doe := false }

/-- The hold of a trigger on slave 1. -/
def holdState : State := { bound 1 with phase := .tHold, csn := 0b1101, ovr := true, grace := 240,
                                        wstart := 1000 }

/-- A turn of the controller. -/
def ctl : Turn := ⟨.controller, inp0⟩

/-- A turn of the counter. -/
def tck : Turn := ⟨.counter, inp0⟩

/-- What `f` says of the next state, none where there is no next state. -/
def look {α : Type} (o : Host.Outcome State Fault Refusal) (f : State → α) : Option α :=
  match o with
  | .next s => some (f s)
  | .fault _ => none
  | .refused _ => none

/-- The refusal, where there is one. -/
def refusal (o : Host.Outcome State Fault Refusal) : Option Refusal :=
  match o with
  | .next _ => none
  | .fault _ => none
  | .refused r => some r

/-! ## WellFormed (R122): an ill-formed term for each check -/

theorem test_wf_select : (Instr.select 16).wellFormed = false ∧ (Instr.select 15).wellFormed = true := by
  decide
theorem test_wf_xfer :
    (Instr.xfer true 65536).wellFormed = false ∧ (Instr.xfer true 65535).wellFormed = true := by decide
theorem test_wf_sendrecv_slave : (Instr.sendrecv 16 false 0).wellFormed = false := by decide
theorem test_wf_sendrecv_length : (Instr.sendrecv 0 false 65536).wellFormed = false := by decide
theorem test_wf_plain : Instr.nop.wellFormed ∧ Instr.init.wellFormed ∧ Instr.trig.wellFormed ∧
    Instr.deinit.wellFormed := by decide

/-! ## Decode: words written out from R111 and R122, and 95_test_vectors.md 2.3 -/

/-- RXLEN 16 bits, 7 zeros, DATA, SLAVE 4 bits, OP 4 bits. -/
theorem test_decode_bits :
    decode 0b0000000000000000_0000000_0_0000_0000 = .legal .nop ∧
    decode 0b0000000000000000_0000000_0_0000_0001 = .legal .init ∧
    decode 0b0000000000000000_0000000_0_0001_0010 = .legal (.select 1) ∧
    decode 0b0000000000000010_0000000_1_0000_0011 = .legal (.xfer true 2) ∧
    decode 0b0000000000000010_0000000_0_0010_0100 = .legal (.sendrecv 2 false 2) ∧
    decode 0b0000000000000000_0000000_0_0000_0101 = .legal .trig ∧
    decode 0b0000000000000000_0000000_0_0000_0110 = .legal .deinit := by decide
/-- V-DEC-4, 5, 8 to 11, 14 to 16. -/
theorem test_decode_operands :
    decode 0x00000042 = .legal (.select 4) ∧ decode 0x000000F2 = .legal (.select 15) ∧
    decode 0x00000003 = .legal (.xfer false 0) ∧ decode 0x00400003 = .legal (.xfer false 64) ∧
    decode 0x00410003 = .legal (.xfer false 65) ∧ decode 0xFFFF0003 = .legal (.xfer false 65535) ∧
    decode 0x00020024 = .legal (.sendrecv 2 false 2) ∧
    decode 0x00020134 = .legal (.sendrecv 3 true 2) ∧
    decode 0x00000104 = .legal (.sendrecv 0 true 0) := by decide
/-- V-DEC-12, 13, 18, 20 to 24. -/
theorem test_decode_illegal :
    decode 0x00000013 = .illegal .mustBeZero ∧ decode 0x00000203 = .illegal .mustBeZero ∧
    decode 0x00000105 = .illegal .mustBeZero ∧ decode 0x00000007 = .illegal .reservedOp ∧
    decode 0x0000000F = .illegal .reservedOp ∧ decode 0x00010001 = .illegal .mustBeZero ∧
    decode 0x00000102 = .illegal .mustBeZero ∧ decode 0x80000000 = .illegal .mustBeZero := by decide
/-- The words of programs P2, P3 and P5. -/
theorem test_encode_programs :
    encode (.sendrecv 2 false 2) = 0x00020024 ∧ encode (.xfer true 1) = 0x00010103 ∧
    encode (.sendrecv 1 false 65) = 0x00410014 ∧ encode (.select 5) = 0x00000052 := by decide

/-! ## Setup commands: 95_test_vectors.md 2.4 -/

/-- V-SET-1. -/
theorem test_nop_after_reset : look (exec .nop offState) State.statusWord = some 0x00000000 := by decide
/-- V-SET-12. -/
theorem test_nop_clears_err :
    look (exec .nop { idleState with err := .invalidSlaveSelection }) (·.err) = some .ok := by decide
/-- V-SET-2. -/
theorem test_init_ok : look (exec .init offState) State.statusWord = some 0x00701002 := by decide
/-- V-SET-6. -/
theorem test_init_fails :
    look (exec .init { bound 2 with inp := { inp0 with startOk := false } }) State.statusWord
      = some 0x00100320 := by decide
/-- V-SET-8. -/
theorem test_select_valid : look (exec (.select 3) idleState) State.statusWord = some 0x0070103A := by
  decide
/-- V-SET-9. -/
theorem test_select_invalid : look (exec (.select 4) (bound 3)) State.statusWord = some 0x00701232 := by
  decide
/-- V-SET-10. -/
theorem test_deinit : look (exec .deinit (bound 0)) State.statusWord = some 0x00100000 := by decide
/-- V-SET-11. -/
theorem test_deinit_again :
    look (exec .deinit { offState with csDrv := true }) State.statusWord = some 0x00100400 := by decide

/-! ## Transaction and trigger commands: 95_test_vectors.md 2.3, 2.5, 2.6 -/

/-- V-DEC-9: RXLEN = RX_DEPTH starts. -/
theorem test_xfer_starts :
    look (exec (.xfer false 64) (bound 0)) (fun s => (s.phase, s.rxlen, s.ntxw))
      = some (.xStart, 64, 1) := by decide
/-- V-DEC-10, one word more does not. -/
theorem test_xfer_too_long :
    look (exec (.xfer false 65) (bound 0)) (fun s => (s.phase, s.err))
      = some (.idle, .invalidLength) := by decide
/-- V-XF-10. -/
theorem test_sendrecv_too_long :
    look (exec (.sendrecv 1 false 65) (bound 0)) State.statusWord = some 0x0070161A := by decide
/-- V-XF-11. -/
theorem test_sendrecv_invalid :
    look (exec (.sendrecv 4 false 2) (bound 0)) State.statusWord = some 0x00701202 := by decide
/-- V-DEC-17. -/
theorem test_trig_starts : look (exec .trig (bound 0)) (·.phase) = some .tStart := by decide
/-- V-TR-2. -/
theorem test_trig_unbound :
    look (exec .trig idleState) (·.err) = some .invalidSlaveSelection := by decide

/-! ## Errors: 95_test_vectors.md 2.7 -/

/-- V-ERR-1: an illegal word before INIT is ERR = 5. -/
theorem test_illegal_first :
    look (acceptWord 0x00000047 offState) State.statusWord = some 0x00000500 := by decide
/-- V-ERR-2: program P5 line 1 gives the STATUS. -/
theorem test_before_init :
    look (acceptWord 0x00000002 offState) State.statusWord = some 0x00000400 := by decide
/-- V-ERR-5: CAV, and LASTCMD unchanged. -/
theorem test_busy_command :
    look (acceptWord 0x00000007 txState) (fun s => (s.cav, s.err, s.lastcmd))
      = some (true, .ok, 0) := by decide
/-- V-ERR-6. -/
theorem test_busy_txdata :
    look (hostWrite 0x008 0xFFFF txState) (fun s => (s.cav, s.txd0)) = some (true, 0) := by decide

/-! ## Registers: 95_test_vectors.md 2.8, and the STATUS words of its table -/

/-- V-MEM-1. -/
theorem test_param : paramWord Params.default = 0x00400014 := by decide
/-- "X_TX, SEL = 0", "X_RX, SEL = 0", "T_HOLD, SEL = 1". -/
theorem test_status_words :
    txState.statusWord = 0x0071300B ∧ rxState.statusWord = 0x0051600F ∧
    holdState.statusWord = 0x0072B09B := by decide
/-- V-MEM-3. -/
theorem test_txdata_truncates :
    look (hostWrite 0x008 0xABCD1234 idleState) (fun s => s.readReg .txdata0)
      = some 0x00001234 := by decide
/-- V-MEM-5. -/
theorem test_clear_cav :
    look (hostWrite 0x004 0xFFFFFFFF { txState with cav := true }) State.statusWord
      = some 0x0071300B := by decide
/-- V-MEM-6 and V-MEM-7. -/
theorem test_refused_accesses :
    refusal (stepHost ⟨.offset 0x008, .half, .read⟩ idleState) = some .accessWidth ∧
    refusal (stepHost ⟨.offset 0x002, .word, .read⟩ idleState) = some .accessAlignment := by decide
/-- V-MEM-2 and V-MEM-11: 0x028, and with RX_DEPTH = 63 offset 0x1FC, are reserved. -/
theorem test_reserved :
    regAt par0 0x028 = .reserved ∧ regAt par0 0x1FC = .rxbuf 63 ∧
    regAt { par0 with rxDepth := 63 } 0x1FC = .reserved ∧ offsetOf par0 (.offset 0x200) = none := by
  decide
/-- V-MEM-9. -/
theorem test_wspan : wspan par0 = 0x200 := by decide

/-! ## Engines: 95_test_vectors.md 2.1, 2.2, 2.5 -/

/-- V-GR-1, 2, 8 to 13, 15. -/
theorem test_grace :
    graceCycles 100000000 = 500 ∧ graceCycles 48000000 = 240 ∧ graceCycles 1 = 1 ∧ graceCycles 0 = 0 ∧
    graceCycles 199999 = 1 ∧ graceCycles 200001 = 2 ∧ graceCycles 300000 = 2 ∧
    graceCycles 600000 = 3 ∧ graceCycles 4294967295 = 21475 := by decide
/-- V-WD-1 and V-WD-2: elapsed time across a wrap. -/
theorem test_elapsed :
    ({ idleState with cyccnt := 0x000000F4 } : State).elapsed 0xFFFFFF00 = 500 ∧
    ({ idleState with cyccnt := 0x000000F3 } : State).elapsed 0xFFFFFF00 = 499 := by decide
/-- V-WD-4, 6, 7, 8. -/
theorem test_watchdog :
    watchdogCycles 100 100000000 = 10000000 ∧ watchdogCycles 1 1 = 1 ∧ watchdogCycles 0 5 = 0 ∧
    watchdogCycles 0xFFFFFFFF 0xFFFFFFFF = 0xFFFFFFFF := by decide
/-- V-WD-9: completion is tested before expiry. -/
theorem test_completion_first :
    look (stepController { txState with widx := 1, plimit := 0 }) (·.phase) = some .xGrace := by decide
/-- V-XF-2 and V-XF-3: the bits of 0x8021 in both wire orders. -/
theorem test_out_bits :
    (List.range 16).map (outBit false 0x8021) = [true, false, false, false, false, false, false, false,
      false, false, true, false, false, false, false, true] ∧
    (List.range 16).map (outBit true 0x8021) = [true, false, false, false, false, true, false, false,
      false, false, false, false, false, false, false, true] := by decide
/-- V-XF-5 and V-XF-6: 0x1234 received in both wire orders. -/
theorem test_shift_in :
    [false, false, false, true, false, false, true, false, false, false, true, true, false, true, false,
      false].foldl (shiftIn false) 0xFFFF = 0x1234 ∧
    [false, false, true, false, true, true, false, false, false, true, false, false, true, false, false,
      false].foldl (shiftIn true) 0xFFFF = 0x1234 := by decide
/-- V-XF-12: with TIMEOUT = 0 the first X_TX step aborts, with no SCK edge. -/
theorem test_abort :
    look (stepController { txState with plimit := 0 }) (fun s => (s.phase, s.perr, s.sck, s.dir))
      = some (.xRelease, .peripheralTimeout, false, false) := by decide
/-- V-TR-4: with CPOL = 1 the trigger pattern pulls SCK to 0. -/
theorem test_trigger_pattern :
    look (stepController { bound 1 with
      phase := .tStart, sck := true, par := { par0 with cpol := true } })
      (fun s => (s.pinSck, s.pinSdio)) = some (.low, .high) := by decide

/-! ## Steps -/

/-- Program P5 line 1: a command placed right after reset is the first one accepted. -/
theorem test_first_after_reset :
    look (step (State.reset.withFetchWord 32 0x00000002)) (fun s => (s.lastcmd, s.statusWord))
      = some (0x00000002, 0x00000400) := by decide
/-- The tick leaves the counter's wrap to 2^32. -/
theorem test_tick_wraps :
    look (stepAgent .counter { idleState with cyccnt := 0xFFFFFFFF }) (·.cyccnt) = some 0 := by decide
/-- R124: SRD expands to two writes, the command and the poll. -/
theorem test_pseudo :
    (Pseudo.srd 3 0x5081 1 2).expand = some [.once (wr 0x008 0x5081), .once (wr 0x00C 1),
      .once (wr 0x000 0x00020134), .loopWhile (rd 0x004) 0] := by decide
/-- R122: an operand out of its range is an assembly error, and no word is written. -/
theorem test_assembly_error :
    cmd (.mnemonic (.select 16)) = none ∧ cmd (.mnemonic (.xfer true 65536)) = none ∧
    (Pseudo.sr 16 0x8021 2).expand = none ∧
    assembleProgram [.pseudo (.settx 0x8021), .command (.mnemonic (.sendrecv 0 false 65536))] = none := by
  decide
/-- Program P2's `SR 2, 0x8021, 2`, and the line `.word 0x00000007` of program P5. -/
theorem test_assembles :
    assembleProgram [.pseudo (.sr 2 0x8021 2), .command (.literal 0x00000007)] =
      some [.once (wr 0x008 0x00008021), .once (wr 0x000 0x00020024), poll,
        .once (wr 0x000 0x00000007)] := by decide

/-- The number of lines a program still has after one host step. -/
def linesLeft (p : List HostLine) (s : State) : Option Nat :=
  match programStep p s with
  | .next (q, _) => some q.length
  | .fault _ | .refused _ => none

/-- R124: POLL reads STATUS and stays the next line while bit 0 reads 1. -/
theorem test_poll :
    linesLeft [poll, .once (wr 0x004 0x40)] txState = some 2 ∧
    linesLeft [poll, .once (wr 0x004 0x40)] idleState = some 1 := by decide

/-! ## Hypotheses that are met: one theorem per statement -/

theorem witness_SpecWordsDecodeAsSpelled : idleState.ready ∧ idleState.par.numSlaves = 4 := by decide
theorem witness_DecodeOfEncodeIsTheCommand :
    (Instr.sendrecv 15 true 65535).wellFormed = true ∧ (Instr.select 15).wellFormed = true ∧
    (Instr.xfer true 65535).wellFormed = true := by decide
theorem witness_LegalWordIsItsCommandsEncoding :
    decode 0xFFFF01F4 = .legal (.sendrecv 15 true 65535) ∧ (Instr.select 16).wellFormed = false ∧
    (Instr.xfer false 65536).wellFormed = false := by decide
theorem witness_WordSpellsMnemonicByMask :
    (0xFFFF01F4 : Word) &&& tableMask .sendrecv = tableMatch .sendrecv ∧
    (0xFFFF03F4 : Word) &&& tableMask .sendrecv ≠ tableMatch .sendrecv := by decide
theorem witness_IllegalWordOnlyReports :
    (∃ why, decode 0x00000007 = .illegal why) ∧ (∃ why, decode 0x80000000 = .illegal why) ∧
    offState.busy = false ∧ idleState.busy = false ∧ 7 ≤ (opField 0x00000007).toNat :=
  ⟨⟨.reservedOp, by decide⟩, ⟨.mustBeZero, by decide⟩, by decide, by decide, by decide⟩

/-- Every clause: an agenda with a turn, an empty one, a CMD write by offset and by address, a table
word. -/
theorem witness_StepRunsTheDecodedCommand :
    ({ bound 0 with agenda := [ctl] } : State).agenda = ctl :: [] ∧ (bound 0).agenda = [] ∧
    (({ bound 0 with agenda := [writeTurn 0x000 5 inp0] } : State).agenda
      = writeTurn 0x000 5 inp0 :: [] ∧ decode 5 = .legal .trig) ∧
    ({ bound 0 with agenda := [⟨.host ⟨.address 0x400, .word, .write 5⟩, inp0⟩] } : State).agenda
      = ⟨.host ⟨.address (base (bound 0).par), .word, .write 5⟩, inp0⟩ :: [] ∧
    decodeTableWord 32 5 = some .trig := by decide

theorem witness_BusyGuardedWriteOnlySetsCav :
    txState.busy = true ∧ (startState 0).busy = true ∧ holdState.busy = true := by decide
theorem witness_CavChangesOnlyAtItsWriters :
    look (step { txState with agenda := [writeTurn 0x018 5 inp0] }) (·.cav) = some true ∧
    txState.cav = false ∧
    look (step { txState with cav := true, agenda := [writeTurn 0x004 0x40 inp0] }) (·.cav)
      = some false ∧
    look (step { txState with cav := true, agenda := [⟨.reset, inp0⟩] }) (·.cav) = some false := by
  decide
theorem witness_CommandsBeforeInitReportNotInitialized :
    Instr.trig ≠ .nop ∧ Instr.trig ≠ .init ∧ offState.busy = false ∧ offState.init = false := by decide

/-- Each result code of R290 at a boundary operand. -/
theorem witness_FirstConditionWins :
    idleState.busy = false ∧ offState.busy = false ∧
    look (acceptWord 0x00000007 offState) (·.err) = some .illegalCommand ∧
    look (acceptWord 0x00020003 offState) (·.err) = some .notInitialized ∧
    look (acceptWord 0x00000001 { offState with inp := { inp0 with startOk := false } }) (·.err)
      = some .initializationFailure ∧
    look (acceptWord 0x00000042 (bound 0)) (·.err) = some .invalidSlaveSelection ∧
    look (acceptWord 0x00410003 idleState) (·.err) = some .invalidSlaveSelection ∧
    look (acceptWord 0x00410014 idleState) (·.err) = some .invalidLength ∧
    look (acceptWord 0x00400003 (bound 0)) (·.err) = some .ok := by decide

theorem witness_NopClearsErr : offState.busy = false ∧ txState.busy = true := by decide
theorem witness_InitStartsOrFails :
    (offState.busy = false ∧ offState.inp.startOk = true) ∧
    (({ bound 2 with inp := { inp0 with startOk := false } } : State).busy = false ∧
      ({ bound 2 with inp := { inp0 with startOk := false } } : State).inp.startOk = false) ∧
    txState.busy = true := by decide
theorem witness_InitStartsOrFails_example : offState.HasResetValues ∧ offState.inp.startOk = true :=
  ⟨by constructor <;> decide, by decide⟩
/-- The last wired slave and the first other one. -/
theorem witness_SelectBindsOrUnbinds :
    (idleState.ready ∧ 3 < idleState.par.numSlaves) ∧ (idleState.ready ∧ idleState.par.numSlaves ≤ 4) ∧
    2 < idleState.par.numSlaves ∧ (offState.busy = false ∧ offState.init = false) ∧
    txState.busy = true := by decide
theorem witness_DeinitReleasesTheBus :
    (bound 0).ready ∧ Instr.select 0 ≠ .nop ∧ Instr.select 0 ≠ .init ∧
    ((bound 0).csDrv = true ∧ (bound 0).csn = 0b1111 ∧ (bound 0).sel = 0 ∧ (bound 0).cav = false) ∧
    (offState.busy = false ∧ offState.init = false) ∧ txState.busy = true := by decide
/-- RXLEN = RX_DEPTH and one more. -/
theorem witness_XferStartsOrReports :
    ((bound 0).ready ∧ (bound 0).selv = true ∧ 64 ≤ (bound 0).par.rxDepth) ∧
    (idleState.ready ∧ idleState.selv = false) ∧
    ((bound 0).ready ∧ (bound 0).selv = true ∧ (bound 0).par.rxDepth < 65) ∧
    txState.busy = true := by decide
theorem witness_SendrecvBindsThenStarts :
    (idleState.ready ∧ 3 < idleState.par.numSlaves ∧ 64 ≤ idleState.par.rxDepth) ∧
    (idleState.ready ∧ 3 < idleState.par.numSlaves ∧ idleState.par.rxDepth < 65) ∧
    (idleState.ready ∧ idleState.par.numSlaves ≤ 4) ∧ txState.busy = true := by decide
theorem witness_TrigStartsOnTheBinding :
    ((bound 3).ready ∧ (bound 3).selv = true) ∧ (idleState.ready ∧ idleState.selv = false) ∧
    holdState.busy = true := by decide
theorem witness_CommandsKeepDataAndEngines : Instr.deinit ≠ .init := by decide

theorem witness_XStartAssertsAndLoads :
    (startState 0).phase = .xStart ∧ (startState 0).csn = 0b1111 ∧
    (startState 0).sel.toNat < (startState 0).par.numSlaves := by decide
/-- Each clause at the boundary of the limit: elapsed 10 of 10, and 9 of 10. -/
theorem witness_XTxCompletesExpiresOrShifts :
    txState.phase = .xTx ∧ ({ txState with widx := 1 } : State).widx.toNat = txState.ntxw ∧
    (txState.widx.toNat ≠ txState.ntxw ∧
      txState.plimit.toNat ≤ ({ txState with cyccnt := 1010 } : State).elapsed txState.pstart) ∧
    (txState.widx.toNat ≠ txState.ntxw ∧
      ({ txState with cyccnt := 1009 } : State).elapsed txState.pstart < txState.plimit.toNat) := by
  decide
theorem witness_GraceWaitEndsExactlyWhenDone :
    (holdState.phase = .tHold ∧
      holdState.grace.toNat ≤ ({ holdState with cyccnt := 1240 } : State).elapsed holdState.wstart) ∧
    (({ txState with phase := .xGrace, grace := 0 } : State).grace.toNat ≤
      ({ txState with phase := .xGrace, grace := 0 } : State).elapsed txState.wstart) ∧
    (({ holdState with cyccnt := 1239 } : State).elapsed holdState.wstart
      < holdState.grace.toNat) := by decide
theorem witness_XDirswSwitchesToReceive : ({ txState with phase := .xDirsw } : State).phase = .xDirsw := by
  decide
theorem witness_XRxCompletesExpiresOrShifts :
    rxState.phase = .xRx ∧ ({ rxState with widx := 2 } : State).widx = rxState.rxlen ∧
    (rxState.widx ≠ rxState.rxlen ∧
      rxState.plimit.toNat ≤ ({ rxState with cyccnt := 1010 } : State).elapsed rxState.pstart) ∧
    (rxState.widx ≠ rxState.rxlen ∧
      ({ rxState with cyccnt := 1009 } : State).elapsed rxState.pstart < rxState.plimit.toNat) := by
  decide
theorem witness_ReleaseThenRestore :
    (({ rxState with phase := .xRelease } : State).phase = .xRelease ∧
      rxState.sel.toNat < rxState.par.numSlaves) ∧
    ({ rxState with phase := .xRestore } : State).phase = .xRestore := by decide
theorem witness_TriggerPhaseSteps :
    ({ bound 1 with phase := .tStart } : State).phase = .tStart ∧
    (({ bound 1 with phase := .tAssert } : State).phase = .tAssert ∧ (bound 1).csn = 0b1111 ∧
      (bound 1).sel.toNat < (bound 1).par.numSlaves) ∧
    ({ holdState with phase := .tRelease } : State).phase = .tRelease ∧
    ({ bound 1 with phase := .tEnd } : State).phase = .tEnd := by decide
theorem witness_SecondChipSelectIsRefused :
    ({ startState 0 with csn := 0b0111 } : State).phase = .xStart ∧ 3 < (startState 0).par.numSlaves ∧
    3 ≠ (startState 0).sel.toNat ∧ ({ startState 0 with csn := 0b0111 } : State).csn.getLsbD 3 = false := by
  decide

theorem witness_TickCountsWhileEnabled : idleState.cntEn = true ∧ offState.cntEn = false := by decide
theorem witness_ElapsedCountsTicks :
    ({ idleState with agenda := [tck, tck] } : State).cntEn = true ∧ allCounter [tck, tck] ∧
    [tck, tck].length < 2 ^ 32 := by decide
/-- Frequencies at which the two cases of R145 (c) meet: V-GR-12 and V-GR-14. -/
theorem witness_GraceThresholdLaws :
    2 * 300000 < 2 ^ 32 ∧ ¬(300000 % 200000 = 0 ∨ 100000 < 300000 % 200000) ∧
    (150000 % 200000 = 0 ∨ 100000 < 150000 % 200000) := by decide
theorem witness_WatchdogLimitIsExact :
    ({ idleState with timeout := 0 } : State).timeout = 0 ∧
    ({ idleState with inp := { inp0 with clkf := 0 } } : State).inp.clkf = 0 := by decide
theorem witness_TxEdgeRule :
    txState.edge = .lead ∧ ({ txState with edge := .trail, bit := 14 } : State).bit ≠ 15 ∧
    ({ txState with ldata := true, edge := .trail, bit := 15 } : State).bit = 15 ∧
    ((0 : Half) + 1).toNat < ({ txState with ldata := true } : State).ntxw ∧
    txState.ntxw ≤ ((0 : Half) + 1).toNat := by decide
theorem witness_RxEdgeRule :
    rxState.edge = .lead ∧ ({ rxState with edge := .trail, bit := 14 } : State).bit ≠ 15 ∧
    ({ rxState with edge := .trail, bit := 15 } : State).bit = 15 := by decide
theorem witness_ReceivedBitsStandInOrder : (List.replicate 16 true).length = 16 ∧ 15 < 16 := by decide
/-- At the only word, CPHA = 1. -/
def lastWord : State := { txState with agenda := List.replicate 32 ctl }
/-- At the first of two words, CPHA = 0, its first bit on DOUT. -/
def firstWord : State := { lastWord with
  ldata := true, shr := 0x8000, dout := true, par := { par0 with cpha := false } }

theorem witness_WordIsSentInThirtyTwoEdges :
    (∀ s ∈ [lastWord, firstWord], s.phase = .xTx ∧ s.edge = .lead ∧ s.bit = 0 ∧
      s.widx.toNat < s.ntxw ∧ s.elapsed s.pstart < s.plimit.toNat ∧
      (s.par.cpha = false → s.dout = outBit s.par.lsbFirst s.shr 0) ∧
      s.agenda = List.replicate 32 ctl ++ []) ∧
    (List.replicate 32 ctl).length = 32 ∧ allController (List.replicate 32 ctl) ∧
    lastWord.widx.toNat + 1 = lastWord.ntxw ∧
    firstWord.widx.toNat + 1 < firstWord.ntxw ∧ firstWord.par.cpha = false := by decide
theorem witness_WordIsReceivedInThirtyTwoEdges :
    rxState.phase = .xRx ∧ rxState.edge = .lead ∧ rxState.bit = 0 ∧
    rxState.widx.toNat < rxState.rxlen.toNat ∧ rxState.widx.toNat < rxState.rxbuf.length ∧
    rxState.elapsed rxState.pstart < rxState.plimit.toNat ∧
    ({ rxState with agenda := List.replicate 32 ctl } : State).agenda = List.replicate 32 ctl ++ [] ∧
    (List.replicate 32 ctl).length = 32 ∧ allController (List.replicate 32 ctl) := by decide

/-- The last byte of the window and the first on either side of it. -/
theorem witness_WindowIsWspanBytesAtBase :
    par0.rxDepth = 64 ∧ 0x1FF < wspan par0 ∧ 0x100 + 4 * par0.rxDepth ≤ 2 ^ 9 ∧ 0x3FF < base par0 ∧
    base par0 + wspan par0 ≤ 0x600 ∧ offsetOf idleState.par (.address 0x3FF) = none ∧
    offsetOf idleState.par (.offset 0x200) = none := by decide
theorem witness_OddAccessIsRefused :
    offsetOf idleState.par (.offset 0x1FD) = some 0x1FD ∧ Width.byte ≠ .word ∧ 0x1FD % 4 ≠ 0 ∧
    offsetOf idleState.par (.offset 0x1FC) = some 0x1FC ∧ 0x1FC % 4 = 0 := by decide
theorem witness_ReadHasNoSideEffect :
    ({ txState with agenda := [readTurn 0x1FC inp0] } : State).agenda = readTurn 0x1FC inp0 :: [] ∧
    0x1FC < wspan txState.par ∧ 0x1FC % 4 = 0 := by decide
theorem witness_ReadsReturnTheRegisters :
    63 < idleState.par.rxDepth ∧ (0x028 ≤ 0x028 ∧ 0x0FC ≤ 0x0FC) ∧
    0x100 + 4 * idleState.par.rxDepth ≤ 0x200 := by decide
theorem witness_ParamFields :
    par0.wf = true ∧ ({ par0 with numSlaves := 1, rxDepth := 65535 } : Params).wf = true := by decide
theorem witness_WritesReachOnlyTheirRegister :
    (0x40 : Word).getLsbD 6 = true ∧ (0xBF : Word).getLsbD 6 = false ∧ idleState.busy = false ∧
    (0x010 ≠ 0x00C ∧ 0x010 ≠ 0x018) ∧ (0x01C ≠ 0x018) := by decide
theorem witness_PinsFollowTheState :
    (3 < offState.par.numSlaves ∧ offState.csDrv = false) ∧
    (3 < idleState.par.numSlaves ∧ idleState.csDrv = true) ∧ idleState.par.numSlaves ≤ 4 ∧
    holdState.ovr = true ∧ (idleState.ovr = false ∧ idleState.sckDrv = true ∧ idleState.doe = true) ∧
    (offState.ovr = false ∧ offState.sckDrv = false ∧ offState.doe = false) := by decide
theorem witness_ResetLeavesTheSpecsValues :
    ({ txState with agenda := [⟨.reset, inp0⟩] } : State).agenda = ⟨.reset, inp0⟩ :: [] := by decide

/-! ### States that meet the invariants -/

theorem witness_inv_off : offState.Inv := by constructor <;> decide
theorem witness_inv_bound : (bound 3).Inv := by constructor <;> decide
theorem witness_inv_start : (startState 64).Inv := by constructor <;> decide
theorem witness_inv_tx : txState.Inv := by constructor <;> decide
theorem witness_inv_rx : rxState.Inv := by constructor <;> decide
theorem witness_inv_hold : holdState.Inv := by constructor <;> decide

theorem witness_StatusFields : offState.HasResetValues := by constructor <;> decide
theorem witness_NoOutputIsDrivenAfterReset : offState.HasResetValues := by constructor <;> decide

/-- A transmit state with a controller turn to come. -/
def txNext : State := { txState with agenda := [ctl] }

theorem witness_EveryStepKeepsTheInvariants : txNext.Inv ∧ ∃ t, step txNext = .next t :=
  ⟨by constructor <;> decide, _, rfl⟩
theorem witness_SecondChipSelectIsUnreachable : ({ startState 2 with agenda := [ctl] } : State).Inv := by
  constructor <;> decide
theorem witness_AtMostOneChipSelectIsActive :
    txState.Inv ∧ 0 < 4 ∧ txState.csActive 0 = true :=
  ⟨by constructor <;> decide, by decide, by decide⟩

/-- X_RELEASE with a controller turn to come. -/
def releaseNext : State := { rxState with phase := .xRelease, agenda := [ctl] }

theorem witness_OtherChipSelectsNeverToggle :
    releaseNext.Inv ∧ look (step releaseNext) (·.csn) = some 0b1111 ∧ releaseNext.csn ≠ 0b1111 ∧
    3 ≠ releaseNext.sel.toNat :=
  ⟨by constructor <;> decide, by decide, by decide, by decide⟩

/-- X_DIRSW and X_RESTORE with a controller turn to come. -/
def dirswNext : State := { txState with phase := .xDirsw, agenda := [ctl] }
def restoreNext : State := { rxState with phase := .xRestore, csn := 0b1111, agenda := [ctl] }

theorem witness_DirectionSwitchesOnlyInItsPhases :
    (dirswNext.Inv ∧ dirswNext.dir = false ∧ look (step dirswNext) (·.dir) = some true) ∧
    (restoreNext.Inv ∧ restoreNext.dir = true ∧ look (step restoreNext) (·.dir) = some false) ∧
    look (step { rxState with agenda := [⟨.reset, inp0⟩] }) (·.dir) = some false :=
  ⟨⟨by constructor <;> decide, by decide, by decide⟩,
    ⟨by constructor <;> decide, by decide, by decide⟩, by decide⟩
theorem witness_TransmitWordsAreFixedWhileBusy :
    txNext.busy = true ∧ txNext.nextTurn.agent ≠ .reset ∧ ∃ t, step txNext = .next t :=
  ⟨by decide, by decide, _, rfl⟩
theorem witness_ClkfIsReadOnlyAtItsReaders :
    ¬(Agent.controller = .controller ∧ (rxState.phase = .xStart ∨ rxState.phase = .xDirsw ∨
      rxState.phase = .tAssert ∨ (rxState.phase = .xTx ∧ rxState.widx.toNat = rxState.ntxw))) ∧
    (∀ tgt w, Agent.controller = .host ⟨tgt, w, .read⟩ → offsetOf rxState.par tgt ≠ some 0x020) :=
  ⟨by decide, fun _ _ h => Agent.noConfusion h⟩
theorem witness_DinIsReadOnlyWhereSampled :
    ¬(Agent.controller = .controller ∧ rxState.phase = .xRx ∧ rxState.widx ≠ rxState.rxlen ∧
      rxState.expired = false ∧ (rxState.edge = .trail ↔ rxState.par.cpha = true)) := by decide
theorem witness_EveryCommandEndsSafelyIdle :
    restoreNext.Inv ∧ restoreNext.busy = true ∧ restoreNext.nextTurn.agent = .controller ∧
    look (step restoreNext) State.busy = some false :=
  ⟨by constructor <;> decide, by decide, by decide, by decide⟩

/-- Expired in the transmit and in the receive phase, with three controller turns to come. -/
def txLate : State := { txState with cyccnt := 1010, agenda := [ctl, ctl, ctl] }
def rxLate : State := { rxState with cyccnt := 1010, agenda := [ctl, ctl, ctl] }

theorem witness_TimeoutAbortsAndRecovers :
    (txLate.Inv ∧ rxLate.Inv) ∧ txLate.agenda = ctl :: ctl :: ctl :: [] ∧
    allController [ctl, ctl, ctl] ∧ (txLate.phase = .xTx ∧ txLate.widx.toNat < txLate.ntxw) ∧
    (rxLate.phase = .xRx ∧ rxLate.widx.toNat < rxLate.rxlen.toNat) ∧
    txLate.plimit.toNat ≤ txLate.elapsed txLate.pstart ∧
    rxLate.plimit.toNat ≤ rxLate.elapsed rxLate.pstart ∧ 64 ≤ txLate.par.rxDepth :=
  ⟨⟨by constructor <;> decide, by constructor <;> decide⟩, by decide, by decide, by decide, by decide,
    by decide, by decide, by decide⟩

/-- Turns at 1 Hz, where the grace wait takes one tick. -/
def slow : Turn := ⟨.controller, { inp0 with clkf := 1 }⟩

/-- A started trigger and a started transfer, with the turns their statements name. -/
def trigRun : State := { bound 1 with
  phase := .tStart, agenda := slow :: slow :: ([tck] ++ slow :: slow :: slow :: []) }
def xferRun : State := { startState 1 with
  agenda := List.replicate 34 slow ++ ([tck] ++ (List.replicate 37 slow ++ [])) }

theorem witness_TriggerRunsToItsEnd :
    trigRun.Inv ∧ trigRun.phase = .tStart ∧ allController [slow, slow, slow, slow, slow] ∧
    allCounter [tck] ∧ [tck].length = graceCycles slow.inp.clkf.toNat ∧
    trigRun.agenda = slow :: slow :: ([tck] ++ slow :: slow :: slow :: []) :=
  ⟨by constructor <;> decide, by decide, by decide, by decide, by decide, by decide⟩
theorem witness_TransactionRunsToItsEnd :
    xferRun.Inv ∧ xferRun.phase = .xStart ∧ 0 < (1 : Word).toNat ∧ 0 < xferRun.timeout.toNat ∧
    allController (List.replicate 34 slow) ∧ clkfIs 1 (List.replicate 34 slow) ∧
    (List.replicate 34 slow).length = 1 + 32 * xferRun.ntxw + 1 ∧ allCounter [tck] ∧
    [tck].length = graceCycles (1 : Word).toNat ∧ allController (List.replicate 37 slow) ∧
    clkfIs 1 (List.replicate 37 slow) ∧
    (List.replicate 37 slow).length = 1 + 1 + 32 * xferRun.rxlen.toNat + 3 ∧
    xferRun.agenda = List.replicate 34 slow ++ ([tck] ++ (List.replicate 37 slow ++ [])) ∧
    0 < xferRun.rxlen.toNat ∧ xferRun.rxlen.toNat ≤ 1 :=
  ⟨by constructor <;> decide, by decide, by decide, by decide, by decide, by decide, by decide,
    by decide, by decide, by decide, by decide, by decide, by decide, by decide, by decide⟩

end Sys2Proof.Tests
end

/-! PROOFS. O49: the invariants of R326 are read as one of two simpler predicates, one for BUSY = 0 and
one for BUSY = 1 (`State.inv_iff`). Each command and each phase step is shown to lead from one of the two
to one of the two, naming only the facts about the registers that it writes. -/

namespace Sys2Proof.Machine

variable {s t : State}

/-! ## The invariants by the value of BUSY -/

/-- What holds of the parameters and the receive buffer in every phase (R11, R39, R40). -/
structure State.Sized (s : State) : Prop where
  params : s.par.wf = true
  bufLength : s.rxbuf.length = s.par.rxDepth
  rxcntFits : s.rxcnt.toNat ≤ s.par.rxDepth

/-- The invariants of a state with BUSY = 0: OFF or IDLE by INIT, every output at rest. -/
structure State.AtRest (s : State) : Prop extends s.Sized where
  phase : s.phase = if s.init then .idle else .off
  binding : s.selv = true → s.sel.toNat < s.par.numSlaves
  csn : s.csn = 0b1111
  csDriven : s.init = true → s.csDrv = true
  cntEn : s.cntEn = s.init
  sckDrv : s.sckDrv = s.init
  doe : s.doe = s.init
  dir : s.dir = false
  ovr : s.ovr = false
  sck : s.sck = s.par.cpol
  edge : s.edge = .lead

/-- A word of the shifting phase is still to be sent or received (R223, R226). -/
abbrev State.wordDue (s : State) : Prop :=
  (s.phase = .xTx ∧ s.widx.toNat ≠ s.ntxw) ∨ (s.phase = .xRx ∧ s.widx ≠ s.rxlen)

/-- The invariants of a state with BUSY = 1, each pin register as a function of PHASE, EDGE or DIR. -/
structure State.Running (s : State) : Prop extends s.Sized where
  busy : s.busy = true
  init : s.init = true
  selv : s.selv = true
  wired : s.sel.toNat < s.par.numSlaves
  csDrv : s.csDrv = true
  cntEn : s.cntEn = true
  sckDrv : s.sckDrv = true
  err : s.err = .ok
  csn : s.csn = if s.phase.selects then ~~~(BitVec.twoPow 4 s.sel.toNat) else 0b1111
  ovr : s.ovr = s.phase.overrides
  doe : s.doe = !s.dir
  dir : s.dir = true → s.phase.mayReceive = true
  receiving : s.phase = .xRx → s.dir = true
  sck : s.sck = if s.edge = .trail then !s.par.cpol else s.par.cpol
  edge : s.edge = .trail → s.wordDue
  txWords : s.phase = .xTx → s.widx.toNat ≤ s.ntxw
  rxWords : s.phase = .xRx → s.widx.toNat ≤ s.rxlen.toNat
  transfer : s.phase.inTransfer = true →
    s.rxcnt = 0 ∧ s.rxlen.toNat ≤ s.par.rxDepth ∧ s.perr = .ok

theorem ErrCode.code_le (e : ErrCode) : e.code.toNat ≤ 6 := by cases e <;> decide

theorem Phase.code_le (p : Phase) : p.code.toNat ≤ 13 := by cases p <;> decide


/-- The bits of a CSN with no line asserted. -/
theorem getLsbD_csn_high : ∀ k, k < 4 → (0b1111 : BitVec 4).getLsbD k = true := by decide

/-- The bits of a CSN with the one line `x` asserted. -/
theorem getLsbD_csn_low (x k : Nat) (hk : k < 4) :
    (~~~(BitVec.twoPow 4 x)).getLsbD k = !decide (k = x) := by
  simp [hk, eq_comm]

theorem State.AtRest.busy (h : s.AtRest) : s.busy = false := by
  rw [s.busy_false_iff, h.phase]
  cases s.init <;> simp

theorem State.AtRest.inv (h : s.AtRest) : s.Inv := by
  have hb := h.busy
  have hp := s.busy_false_iff.mp hb
  constructor
  case i1 => intro k hk hlow; rw [h.csn, getLsbD_csn_high k hk] at hlow; cases hlow
  case i2 => exact fun _ => h.csn
  case i3 => rw [State.I3, h.phase]; cases s.init <;> simp
  case i5 => simp [State.I5, h.doe, h.dir]
  case i8 => simp [State.I8, h.sck, h.edge]
  case i9 =>
    refine ⟨s.err.code_le, s.phase.code_le, h.rxcntFits, ?_⟩
    rcases hp with hp | hp <;> simp [hp, Phase.inTransfer]
  case i10 => refine ⟨?_, ?_, by omega⟩ <;> rcases hp with hp | hp <;> simp [hp]
  case i11 => exact ⟨h.sckDrv, h.cntEn⟩
  case params => exact h.params
  case bufLength => exact h.bufLength
  case binding => exact h.binding
  case csDriven => exact h.csDriven
  case hardwired => intro k hk _; rw [h.csn, getLsbD_csn_high k hk]
  -- The others speak of a phase other than OFF and IDLE, or of DIR and OVR.
  all_goals rcases hp with hp | hp <;>
    simp [State.I4, State.I6, State.I7, hb, hp, h.dir, h.ovr, Phase.overrides, Phase.selects,
      Phase.inTransfer]

theorem State.Running.edge_lead (h : s.Running) (hw : ¬s.wordDue) : s.edge = .lead := by
  cases he : s.edge with
  | lead => rfl
  | trail => exact absurd (h.edge he) hw

theorem State.Running.inv (h : s.Running) : s.Inv := by
  obtain ⟨hoff, -⟩ := s.busy_true_iff.mp h.busy
  constructor
  case i1 =>
    intro k hk hlow
    rw [h.csn] at hlow
    split at hlow
    · next hsel => exact ⟨by simpa [getLsbD_csn_low _ _ hk] using hlow, hsel⟩
    · rw [getLsbD_csn_high k hk] at hlow; cases hlow
  case i2 => simp [State.I2, h.csDrv]
  case i3 => simp [State.I3, hoff, h.init]
  case i4 => exact fun _ => ⟨h.init, h.selv, h.cntEn⟩
  case i5 => simp [State.I5, h.doe, h.init]
  case i6 => exact h.dir
  case i7 => simp [State.I7, h.ovr]
  case i8 =>
    refine ⟨by simp [h.sck], fun htx hrx => ?_⟩
    simp [h.sck, h.edge_lead (by simp [htx, hrx])]
  case i9 => exact ⟨s.err.code_le, s.phase.code_le, h.rxcntFits, fun ht => (h.transfer ht).1⟩
  case i10 => exact ⟨h.txWords, h.rxWords, by omega⟩
  case i11 => exact ⟨h.sckDrv.trans h.init.symm, h.cntEn.trans h.init.symm⟩
  case params => exact h.params
  case bufLength => exact h.bufLength
  case binding => exact fun _ => h.wired
  case hardwired =>
    intro k hk hn
    have hne : k ≠ s.sel.toNat := by have := h.wired; omega
    rw [h.csn]
    split
    · simp [getLsbD_csn_low _ _ hk, hne]
    · exact getLsbD_csn_high k hk
  case selected =>
    intro hsel
    rw [h.csn, if_pos hsel, getLsbD_csn_low _ _ s.sel.isLt]
    simp
  case csDriven => exact fun _ => h.csDrv
  case receiving => exact h.receiving
  case errBusy => exact fun _ => h.err
  case lengthFits => exact fun ht => (h.transfer ht).2.1
  case noPending => exact fun ht => (h.transfer ht).2.2
  case txWordEnd => exact fun hp hw => h.edge_lead (by simp [hp, hw])
  case rxWordEnd => exact fun hp hw => h.edge_lead (by simp [hp, hw])

theorem State.Inv.sized (h : s.Inv) : s.Sized := ⟨h.params, h.bufLength, h.i9.2.2.1⟩

theorem State.Inv.atRest (h : s.Inv) (hb : s.busy = false) : s.AtRest := by
  have hp := s.busy_false_iff.mp hb
  have hphase : s.phase = if s.init then .idle else .off := by
    have hoff := h.i3
    cases hi : s.init
    · exact hoff.mpr hi
    · rcases hp with hp | hp
      · simp [hoff.mp hp] at hi
      · exact hp
  have htx : s.phase ≠ .xTx := by rcases hp with hp | hp <;> simp [hp]
  have hrx : s.phase ≠ .xRx := by rcases hp with hp | hp <;> simp [hp]
  have hdir : s.dir = false := h.dir_low (by rcases hp with hp | hp <;> simp [hp, Phase.mayReceive])
  exact
    { h.sized with
      phase := hphase
      binding := h.binding
      csn := h.csn_high (by rcases hp with hp | hp <;> simp [hp, Phase.selects])
      csDriven := h.csDriven
      cntEn := h.i11.2
      sckDrv := h.i11.1
      doe := by simp [h.i5, hdir]
      dir := hdir
      ovr := by rw [h.ovr_eq]; rcases hp with hp | hp <;> simp [hp, Phase.overrides]
      sck := h.i8.2 htx hrx
      edge := h.edge_lead htx hrx }

/-- In a selecting phase the one line asserted is that of SEL. -/
theorem State.Inv.csn_low (h : s.Inv) (hp : s.phase.selects = true) :
    s.csn = ~~~(BitVec.twoPow 4 s.sel.toNat) := by
  apply BitVec.eq_of_getLsbD_eq
  intro k hk
  rw [getLsbD_csn_low _ _ hk]
  by_cases hsel : k = s.sel.toNat
  · simp [hsel, h.selected hp]
  · have hhigh : s.csn.getLsbD k = true := by
      by_contra hlow
      exact hsel (h.i1 k hk (by simpa using hlow)).1
    simp [hsel, hhigh]

theorem State.Inv.running (h : s.Inv) (hb : s.busy = true) : s.Running := by
  obtain ⟨hinit, hselv, hcnt⟩ := h.i4 hb
  obtain ⟨hclock, hquiet⟩ := h.i8
  obtain ⟨-, -, -, hrxcnt⟩ := h.i9
  obtain ⟨htx, hrx, -⟩ := h.i10
  exact
    { h.sized with
      busy := hb
      init := hinit
      selv := hselv
      wired := h.binding hselv
      csDrv := h.csDriven hinit
      cntEn := hcnt
      sckDrv := h.i11.1.trans hinit
      err := h.errBusy hb
      csn := by
        cases hsel : s.phase.selects
        · exact h.csn_high hsel
        · exact h.csn_low hsel
      ovr := h.ovr_eq
      doe := by simp [h.i5, hinit]
      dir := h.i6
      receiving := h.receiving
      sck := by
        split
        · next he => exact hclock.mpr he
        · next he => simpa [he] using hclock
      edge := fun he => by
        by_cases hp : s.phase = .xTx
        · exact .inl ⟨hp, fun hw => by simp [h.txWordEnd hp hw] at he⟩
        · by_cases hp' : s.phase = .xRx
          · exact .inr ⟨hp', fun hw => by simp [h.rxWordEnd hp' hw] at he⟩
          · simp [h.edge_lead hp hp'] at he
      txWords := htx
      rxWords := hrx
      transfer := fun ht => ⟨hrxcnt ht, h.lengthFits ht, h.noPending ht⟩ }

/-- The invariants are those of a state at rest or those of a running command. -/
theorem State.inv_iff : s.Inv ↔ s.AtRest ∨ s.Running := by
  constructor
  · intro h
    cases hb : s.busy
    · exact .inl (h.atRest hb)
    · exact .inr (h.running hb)
  · rintro (h | h)
    · exact h.inv
    · exact h.inv

/-! ## The accept step of a command -/

/-- SELECT's and SENDRECV's binding of a wired slave. -/
theorem State.AtRest.bindSel (h : s.AtRest) {k : Nat} (hk : k < s.par.numSlaves) :
    (s.bindSel (slaveSel k)).AtRest :=
  { h with
    binding := fun _ => by
      simp only [State.bindSel_sel, State.bindSel_par, slaveSel, BitVec.toNat_ofNat]
      exact (Nat.mod_le _ _).trans_lt hk }

theorem State.AtRest.unbindSel (h : s.AtRest) : s.unbindSel.AtRest := { h with binding := nofun }

theorem State.AtRest.setErr (h : s.AtRest) (e : ErrCode) : (s.setErr e).AtRest := { h with }

theorem State.AtRest.setLastcmd (h : s.AtRest) (w : Word) : (s.setLastcmd w).AtRest := { h with }

theorem State.initBody_eq :
    s.initBody = if s.inp.startOk then s.initCs.initOk else s.initCs.initFail := rfl

theorem State.AtRest.initBody (h : s.AtRest) : s.initBody.AtRest := by
  rw [State.initBody_eq]
  split
  · exact { h with
      phase := rfl, csn := rfl, csDriven := fun _ => rfl, cntEn := rfl, sckDrv := rfl, doe := rfl,
      dir := rfl, ovr := rfl, sck := rfl }
  · exact { h with
      phase := rfl, binding := nofun, csn := rfl, csDriven := fun _ => rfl, cntEn := rfl,
      sckDrv := rfl, doe := rfl, dir := rfl, ovr := rfl }

theorem State.AtRest.deinitBody (h : s.AtRest) : s.deinitBody.AtRest :=
  { h with
    phase := rfl, binding := nofun, csDriven := nofun, cntEn := rfl, sckDrv := rfl, doe := rfl,
    dir := rfl, ovr := rfl }


/-- XFER, SENDRECV and TRIG start a command; `rxlen`, `rxcnt` and `perr` are what it leaves in those
registers. -/
theorem State.AtRest.start (h : s.AtRest) (hi : s.init = true) (hv : s.selv = true) {q : Phase}
    (hq : q = .xStart ∨ q = .tStart) (ldata : Bool) {rxlen rxcnt : Half} {perr : ErrCode}
    (hcnt : rxcnt.toNat ≤ s.par.rxDepth)
    (hx : q.inTransfer = true → rxcnt = 0 ∧ rxlen.toNat ≤ s.par.rxDepth ∧ perr = .ok) :
    ({ s with
      ldata := ldata, rxlen := rxlen, rxcnt := rxcnt, perr := perr, err := .ok, phase := q } :
      State).Running := by
  rcases hq with rfl | rfl <;> exact
    { h with
      rxcntFits := hcnt
      busy := rfl
      init := hi
      selv := hv
      wired := h.binding hv
      csDrv := h.csDriven hi
      cntEn := h.cntEn.trans hi
      sckDrv := h.sckDrv.trans hi
      err := rfl
      doe := by simp [h.doe, h.dir, hi]
      dir := by simp [h.dir]
      receiving := nofun
      sck := by simp [h.edge, h.sck]
      edge := by simp [h.edge]
      txWords := nofun
      rxWords := nofun
      transfer := hx }

theorem State.AtRest.startXfer (h : s.AtRest) (hi : s.init = true) (hv : s.selv = true) (d : Bool)
    {n : Nat} (hn : n ≤ s.par.rxDepth) : (s.startXfer d n).Running := by
  have hlen : (BitVec.ofNat 16 n).toNat ≤ s.par.rxDepth := by
    rw [BitVec.toNat_ofNat]
    exact (Nat.mod_le _ _).trans hn
  exact h.start hi hv (.inl rfl) d (Nat.zero_le _) (fun _ => ⟨rfl, hlen, rfl⟩)

theorem State.AtRest.startTrig (h : s.AtRest) (hi : s.init = true) (hv : s.selv = true) :
    ((s.setErr .ok).setPhase .tStart).Running :=
  h.start hi hv (.inr rfl) s.ldata h.rxcntFits nofun

theorem State.AtRest.inv_checkedStart (h : s.AtRest) (hi : s.init = true) (hv : s.selv = true)
    (d : Bool) (n : Nat) : (s.checkedStart d n).Inv := by
  unfold State.checkedStart
  split
  · next hn => exact (h.startXfer hi hv d ((s.lengthValid_iff n).mp hn)).inv
  · exact (h.setErr _).inv

/-- Every command's body leads from rest to a state with the invariants, INIT being what the command
needs (R289). -/
theorem State.AtRest.inv_bodyOf (h : s.AtRest) (i : Instr) (hi : needsInit i = true → s.init = true) :
    (bodyOf i s).Inv := by
  cases i with
  | nop => exact (h.setErr _).inv
  | init => exact h.initBody.inv
  | select k =>
    simp only [bodyOf, State.selectBody]
    split
    · next hk => exact ((h.bindSel ((s.slaveValid_iff k).mp hk)).setErr _).inv
    · exact (h.unbindSel.setErr _).inv
  | xfer d n =>
    simp only [bodyOf, State.xferBody]
    split
    · next hv => exact h.inv_checkedStart (hi rfl) hv d n
    · exact (h.setErr _).inv
  | sendrecv k d n =>
    simp only [bodyOf, State.sendrecvBody]
    split
    · next hk => exact (h.bindSel ((s.slaveValid_iff k).mp hk)).inv_checkedStart (hi rfl) rfl d n
    · exact (h.unbindSel.setErr _).inv
  | trig =>
    simp only [bodyOf, State.trigBody]
    split
    · next hv => exact (h.startTrig (hi rfl) hv).inv
    · exact (h.setErr _).inv
  | deinit => exact h.deinitBody.inv

theorem State.Inv.setCav (h : s.Inv) (b : Bool) : (s.setCav b).Inv := h.congr ..

theorem State.Inv.accept (h : s.Inv) (i : Instr) :
    (s.accept (encode i) (needsInit i) (bodyOf i)).Inv := by
  rcases s.accept_cases (encode i) (needsInit i) (bodyOf i) with
    ⟨-, he⟩ | ⟨hb, -, -, he⟩ | ⟨hb, hi, he⟩ <;> rw [he]
  · exact h.setCav true
  · exact (((h.atRest hb).setLastcmd _).setErr _).inv
  · exact ((h.atRest hb).setLastcmd _).inv_bodyOf i hi

theorem State.Inv.acceptIllegal (h : s.Inv) (v : Word) : (s.acceptIllegal v).Inv := by
  rcases s.acceptIllegal_cases v with ⟨-, he⟩ | ⟨hb, he⟩ <;> rw [he]
  · exact h.setCav true
  · exact (((h.atRest hb).setLastcmd _).setErr _).inv

/-! ## The host's step -/

theorem State.Inv.acceptWord (h : s.Inv) {v : Word} (hs : acceptWord v s = .next t) : t.Inv := by
  rcases acceptWord_cases v s with ⟨i, -, he⟩ | ⟨-, -, he⟩ <;> rw [he] at hs
  · rw [exec_eq_accept] at hs
    cases hs
    exact h.accept i
  · cases hs
    exact h.acceptIllegal v

theorem State.Inv.guarded (h : s.Inv) {f : State → State} (hf : (f s).Inv) : (s.guarded f).Inv := by
  unfold State.guarded
  split
  · exact h.setCav true
  · exact hf

theorem State.Inv.writeReg (h : s.Inv) {r : Reg} {v : Word} (hs : writeReg r v s = .next t) :
    t.Inv := by
  cases r with
  | cmd => exact h.acceptWord hs
  | status =>
    cases hs
    split
    · exact h.setCav false
    · exact h
  | txdata0 => cases hs; exact h.guarded (h.congr ..)
  | txdata1 => cases hs; exact h.guarded (h.congr ..)
  | timeout => cases hs; exact h.guarded (h.congr ..)
  | rxcnt | grace | cyccnt | clkfreq | param | rxbuf _ | reserved => cases hs; exact h

theorem State.Inv.outsideAccess (h : s.Inv) (k : Direction) : (outsideAccess k s).Inv := by
  cases k with
  | read => exact h.congr ..
  | write v => exact h

theorem State.Inv.stepHost (h : s.Inv) {a : HostAccess} (hs : stepHost a s = .next t) : t.Inv := by
  rcases stepHost_next_cases hs with ⟨-, rfl⟩ | ⟨off, -, -, -, ⟨-, rfl⟩ | ⟨v, -, hw⟩⟩
  · exact h.outsideAccess a.kind
  · exact h.congr ..
  · exact h.writeReg hw

/-! ## The shift engine -/

/-- A leading edge inside a word. -/
theorem State.Running.leadEdge (h : s.Running) (hw : s.wordDue) (dout : Bool) (shr : Half) :
    ({ s with sck := !s.par.cpol, edge := .trail, dout := dout, shr := shr } : State).Running :=
  { h with
    sck := rfl
    edge := fun _ => hw }

/-- A trailing edge, with the word index it leaves and the word it may store. -/
theorem State.Running.trailEdge (h : s.Running) (widx : Half)
    (htx : s.phase = .xTx → widx.toNat ≤ s.ntxw)
    (hrx : s.phase = .xRx → widx.toNat ≤ s.rxlen.toNat) (dout : Bool) (bit : BitVec 4) (shr : Half)
    {rxbuf : List Half} (hbuf : rxbuf.length = s.rxbuf.length) :
    ({ s with
      sck := s.par.cpol, edge := .lead, widx := widx, dout := dout, bit := bit, shr := shr,
      rxbuf := rxbuf } : State).Running :=
  { h with
    bufLength := hbuf.trans h.bufLength
    sck := rfl
    edge := nofun
    txWords := htx
    rxWords := hrx }

/-- Counting one more word keeps the index within a limit that it has not reached. -/
theorem toNat_succ_le {w : Half} {n : Nat} (hle : w.toNat ≤ n) (hne : w.toNat ≠ n) :
    (w + 1).toNat ≤ n := by
  have : (w + 1).toNat ≤ w.toNat + 1 := by
    rw [BitVec.toNat_add]
    exact Nat.mod_le _ _
  omega

theorem State.Running.txEdge (h : s.Running) (hp : s.phase = .xTx) (hw : s.widx.toNat ≠ s.ntxw) :
    s.txEdge.Running := by
  have hnext : (s.widx + 1).toNat ≤ s.ntxw := toNat_succ_le (h.txWords hp) hw
  cases he : s.edge with
  | lead =>
    rw [s.txEdge_lead he]
    exact h.leadEdge (.inl ⟨hp, hw⟩) _ _
  | trail =>
    by_cases hb : s.bit = 15
    · by_cases hl : (s.widx + 1).toNat < s.ntxw
      · rw [s.txEdge_trail_next he hb hl, State.loadTx_eq]
        exact h.trailEdge _ (fun _ => hnext) (by simp [hp]) _ _ _ rfl
      · rw [s.txEdge_trail_last he hb hl]
        exact h.trailEdge _ (fun _ => hnext) (by simp [hp]) _ _ _ rfl
    · rw [s.txEdge_trail_mid he hb]
      exact h.trailEdge _ h.txWords h.rxWords _ _ _ rfl

theorem State.Running.rxEdge (h : s.Running) (hp : s.phase = .xRx) (hw : s.widx ≠ s.rxlen) :
    s.rxEdge.Running := by
  cases he : s.edge with
  | lead =>
    rw [s.rxEdge_lead he]
    exact h.leadEdge (.inr ⟨hp, hw⟩) _ _
  | trail =>
    by_cases hb : s.bit = 15
    · have hnext : (s.widx + 1).toNat ≤ s.rxlen.toNat :=
        toNat_succ_le (h.rxWords hp) (fun e => hw (BitVec.eq_of_toNat_eq e))
      rw [s.rxEdge_trail_last he hb]
      exact h.trailEdge _ (by simp [hp]) (fun _ => hnext) _ _ _ (by simp)
    · rw [s.rxEdge_trail_mid he hb]
      exact h.trailEdge _ h.txWords h.rxWords _ _ _ rfl


/-! ## The phases -/

/-- The next phase of a command, outside the shifting phases, with the CSN and OVR that it asks for. -/
theorem State.Running.advance (h : s.Running) {p : Phase} (hp : s.phase = p) (he : s.edge = .lead)
    (q : Phase) {csn : BitVec 4} {ovr : Bool}
    (hcsn : csn = if q.selects then ~~~(BitVec.twoPow 4 s.sel.toNat) else 0b1111)
    (hovr : ovr = q.overrides)
    (hq : q ≠ .off ∧ q ≠ .idle ∧ q ≠ .xTx ∧ q ≠ .xRx := by decide)
    (hpq : (p.mayReceive = true → q.mayReceive = true) ∧
      (q.inTransfer = true → p.inTransfer = true) := by decide) :
    ({ s with phase := q, csn := csn, ovr := ovr } : State).Running := by
  obtain ⟨hoff, hidle, htx, hrx⟩ := hq
  exact
    { h with
      busy := (State.busy_true_iff _).mpr ⟨hoff, hidle⟩
      csn := hcsn
      ovr := hovr
      dir := fun hd => hpq.1 (hp ▸ h.dir hd)
      receiving := fun e => absurd e hrx
      edge := fun e => by simp [he] at e
      txWords := fun e => absurd e htx
      rxWords := fun e => absurd e hrx
      transfer := fun ht => h.transfer (hp ▸ hpq.2 ht) }

/-- The next phase of a command when it asks for the same CSN and OVR. -/
theorem State.Running.advanceQuiet (h : s.Running) {p : Phase} (hp : s.phase = p)
    (he : s.edge = .lead) (q : Phase)
    (hsel : p.selects = q.selects := by decide) (hovr : p.overrides = q.overrides := by decide)
    (hq : q ≠ .off ∧ q ≠ .idle ∧ q ≠ .xTx ∧ q ≠ .xRx := by decide)
    (hpq : (p.mayReceive = true → q.mayReceive = true) ∧
      (q.inTransfer = true → p.inTransfer = true) := by decide) : (s.setPhase q).Running := by
  subst hp
  exact h.advance rfl he q (hsel ▸ h.csn) (hovr ▸ h.ovr) hq hpq

theorem State.Running.graceBegin (h : s.Running) : s.graceBegin.Running := { h with }

/-- The end of a command, with the chip-select released (R228, R265). -/
theorem State.Running.finish (h : s.Running) (hp : s.phase.selects = false) (he : s.edge = .lead)
    (e : ErrCode) {dir doe ovr : Bool} (hdir : dir = false) (hdoe : doe = true) (hovr : ovr = false) :
    ({ s with dir := dir, doe := doe, ovr := ovr, err := e, phase := .idle } : State).AtRest :=
  { h with
    phase := by simp [h.init]
    binding := fun _ => h.wired
    csn := h.inv.csn_high hp
    csDriven := fun _ => h.csDrv
    cntEn := h.cntEn.trans h.init.symm
    sckDrv := h.sckDrv.trans h.init.symm
    doe := hdoe.trans h.init.symm
    dir := hdir
    ovr := hovr
    sck := by simp [h.sck, he]
    edge := he }

theorem State.Running.abortXfer (h : s.Running) (hp : s.phase = .xTx ∨ s.phase = .xRx) (e : ErrCode) :
    (s.abortXfer e).Running := by
  have hclock := h.trailEdge s.widx h.txWords h.rxWords s.dout 0 s.shr rfl
  rcases hp with hp | hp <;>
    exact { hclock.advanceQuiet hp rfl .xRelease with rxcntFits := Nat.zero_le _, transfer := nofun }

theorem State.Running.stepXStart (h : s.Running) (hp : s.phase = .xStart)
    (ho : s.otherSelected = false) (hs : stepXStart s = .next t) : t.Running := by
  have he : s.edge = .lead := h.edge_lead (by simp [hp])
  rw [stepXStart_of_none ho, State.loadTx_eq] at hs
  cases hs
  exact
    { h with
      busy := rfl
      csn := State.csn_setCsn_low (h.inv.csn_high (by rw [hp]; rfl)) h.wired
      ovr := h.ovr.trans (by rw [hp]; rfl)
      dir := fun hd => by simpa [hp, Phase.mayReceive] using h.dir hd
      receiving := nofun
      sck := by simp [h.sck, he]
      edge := nofun
      txWords := fun _ => Nat.zero_le _
      rxWords := nofun
      transfer := fun _ => h.transfer (by rw [hp]; rfl) }

theorem State.Running.stepXTx (h : s.Running) (hp : s.phase = .xTx) : (stepXTx s).Running := by
  unfold Machine.stepXTx
  split
  · next hw => exact h.graceBegin.advanceQuiet hp (h.edge_lead (by simp [hp, hw])) .xGrace
  · next hw =>
    split
    · exact h.abortXfer (.inl hp) _
    · exact h.txEdge hp hw

theorem State.Running.stepXGrace (h : s.Running) (hp : s.phase = .xGrace) : (stepXGrace s).Running := by
  unfold Machine.stepXGrace
  split
  · exact h.advanceQuiet hp (h.edge_lead (by simp [hp])) .xDirsw
  · exact h

theorem State.Running.stepXDirsw (h : s.Running) (hp : s.phase = .xDirsw) : (stepXDirsw s).Running := by
  have he : s.edge = .lead := h.edge_lead (by simp [hp])
  exact
    { h with
      busy := rfl
      csn := h.inv.csn_low (by rw [hp]; rfl)
      ovr := h.ovr.trans (by rw [hp]; rfl)
      doe := rfl
      dir := fun _ => rfl
      receiving := fun _ => rfl
      sck := by simp [Machine.stepXDirsw, h.sck, he]
      edge := nofun
      txWords := nofun
      rxWords := fun _ => Nat.zero_le _
      transfer := fun _ => h.transfer (by rw [hp]; rfl) }

theorem State.Running.stepXRx (h : s.Running) (hp : s.phase = .xRx) : (stepXRx s).Running := by
  unfold Machine.stepXRx
  split
  · next hw =>
    obtain ⟨-, hlen, -⟩ := h.transfer (by rw [hp]; rfl)
    exact
      { h.advanceQuiet hp (h.edge_lead (by simp [hp, hw])) .xRelease with
        rxcntFits := hlen
        transfer := nofun }
  · next hw =>
    split
    · exact h.abortXfer (.inr hp) _
    · exact h.rxEdge hp hw

theorem State.Running.stepXRelease (h : s.Running) (hp : s.phase = .xRelease) :
    (stepXRelease s).Running :=
  h.advance hp (h.edge_lead (by simp [hp])) .xRestore (h.inv.csn_setCsn_high h.busy)
    (h.ovr.trans (by rw [hp]; rfl))

theorem State.Running.stepXRestore (h : s.Running) (hp : s.phase = .xRestore) :
    (stepXRestore s).AtRest :=
  h.finish (by rw [hp]; rfl) (h.edge_lead (by simp [hp])) s.perr rfl rfl
    (h.ovr.trans (by rw [hp]; rfl))

theorem State.Running.stepTStart (h : s.Running) (hp : s.phase = .tStart) : (stepTStart s).Running :=
  h.advance hp (h.edge_lead (by simp [hp])) .tAssert (h.inv.csn_high (by rw [hp]; rfl)) rfl

theorem State.Running.stepTAssert (h : s.Running) (hp : s.phase = .tAssert)
    (ho : s.otherSelected = false) (hs : stepTAssert s = .next t) : t.Running := by
  rw [stepTAssert_of_none ho] at hs
  cases hs
  exact h.graceBegin.advance hp (h.edge_lead (by simp [hp])) .tHold
    (State.csn_setCsn_low (h.inv.csn_high (by rw [hp]; rfl)) h.wired) (h.ovr.trans (by rw [hp]; rfl))

theorem State.Running.stepTHold (h : s.Running) (hp : s.phase = .tHold) : (stepTHold s).Running := by
  unfold Machine.stepTHold
  split
  · exact h.advanceQuiet hp (h.edge_lead (by simp [hp])) .tRelease
  · exact h

theorem State.Running.stepTRelease (h : s.Running) (hp : s.phase = .tRelease) :
    (stepTRelease s).Running :=
  h.advance hp (h.edge_lead (by simp [hp])) .tEnd (h.inv.csn_setCsn_high h.busy)
    (h.ovr.trans (by rw [hp]; rfl))

theorem State.Running.stepTEnd (h : s.Running) (hp : s.phase = .tEnd) : (stepTEnd s).AtRest := by
  have hdir : s.dir = false := h.inv.dir_low (by rw [hp]; rfl)
  exact h.finish (by rw [hp]; rfl) (h.edge_lead (by simp [hp])) .ok hdir (by simp [h.doe, hdir]) rfl

theorem State.Inv.runningIn (h : s.Inv) {p : Phase} (hp : s.phase = p)
    (hq : p ≠ .off ∧ p ≠ .idle := by decide) : s.Running :=
  h.running (s.busy_true_iff.mpr (hp ▸ hq))

theorem State.Inv.stepController (h : s.Inv) (hs : stepController s = .next t) : t.Inv := by
  rcases stepController_next_cases hs with
    ⟨-, rfl⟩ | ⟨hp, ho, hs⟩ | ⟨hp, rfl⟩ | ⟨hp, rfl⟩ | ⟨hp, rfl⟩ | ⟨hp, rfl⟩ | ⟨hp, rfl⟩ | ⟨hp, rfl⟩ |
    ⟨hp, rfl⟩ | ⟨hp, ho, hs⟩ | ⟨hp, rfl⟩ | ⟨hp, rfl⟩ | ⟨hp, rfl⟩
  · exact h
  · exact ((h.runningIn hp).stepXStart hp ho hs).inv
  · exact ((h.runningIn hp).stepXTx hp).inv
  · exact ((h.runningIn hp).stepXGrace hp).inv
  · exact ((h.runningIn hp).stepXDirsw hp).inv
  · exact ((h.runningIn hp).stepXRx hp).inv
  · exact ((h.runningIn hp).stepXRelease hp).inv
  · exact ((h.runningIn hp).stepXRestore hp).inv
  · exact ((h.runningIn hp).stepTStart hp).inv
  · exact ((h.runningIn hp).stepTAssert hp ho hs).inv
  · exact ((h.runningIn hp).stepTHold hp).inv
  · exact ((h.runningIn hp).stepTRelease hp).inv
  · exact ((h.runningIn hp).stepTEnd hp).inv

/-! ## Every step -/

theorem State.Inv.tick (h : s.Inv) : s.tick.Inv := by
  unfold State.tick
  split
  · exact h.congr ..
  · exact h

/-- Reset needs of the state before it only that its parameters are in their ranges. -/
theorem State.atRest_resetNow (h : s.par.wf = true) : s.resetNow.AtRest where
  params := h
  bufLength := by simp [State.resetNow, State.atReset]
  rxcntFits := Nat.zero_le _
  phase := rfl
  binding := nofun
  csn := rfl
  csDriven := nofun
  cntEn := rfl
  sckDrv := rfl
  doe := rfl
  dir := rfl
  ovr := rfl
  sck := rfl
  edge := rfl

theorem State.Inv.stepAgent (h : s.Inv) {a : Agent} (hs : stepAgent a s = .next t) : t.Inv := by
  cases a with
  | host x => exact h.stepHost hs
  | controller => exact h.stepController hs
  | counter => cases hs; exact h.tick
  | environment => cases hs; exact h
  | reset => cases hs; exact (State.atRest_resetNow h.params).inv

/-- Settles O49: the turn taken changes no register that the invariants name, and every agent's move
leads from the predicates of `State.inv_iff` to one of them. -/
theorem everyStepKeepsTheInvariants : Obligations.EveryStepKeepsTheInvariants := by
  intro s t h hs
  exact h.takeTurn.stepAgent hs

end Sys2Proof.Machine

/-! PROOFS. O6: which agent a step moves, and a host write of a legal word to CMD. -/

namespace Sys2Proof.Machine

theorem wspan_pos (p : Params) : 0 < wspan p := by
  have := wspan_ge p
  omega

/-- R81: BASE itself is offset 0, the offset of CMD. -/
theorem offsetOf_base (p : Params) : offsetOf p (.address (base p)) = some 0 := by
  simp [offsetOf, wspan_pos]

theorem acceptWord_legal {v : Word} {i : Instr} (h : decode v = .legal i) (s : State) :
    acceptWord v s = exec i s := by
  simp [acceptWord, h]

/-- R84: a 32-bit write that reaches offset 0 is Accept of the value. -/
theorem stepHost_writeCmd {s : State} {tgt : Target} (h : offsetOf s.par tgt = some 0) (v : Word) :
    stepHost ⟨tgt, .word, .write v⟩ s = acceptWord v s := by
  simp [stepHost, h, hostWrite, regAt, writeReg]

/-- R84, R289: a turn that writes a legal word to CMD runs the command it decodes to. -/
theorem step_writeCmd {s : State} {tgt : Target} {v : Word} {i : Instr} {inp : Inputs}
    {rest : List Turn} (ha : s.agenda = ⟨.host ⟨tgt, .word, .write v⟩, inp⟩ :: rest)
    (ho : offsetOf s.par tgt = some 0) (hd : decode v = .legal i) :
    step s = exec i { s with agenda := rest, inp := inp } := by
  rw [step_cons ha, stepAgent, stepHost_writeCmd, acceptWord_legal hd]
  exact ho

theorem step_nil {s : State} (h : s.agenda = []) :
    step s = stepAgent (Config.freeTurn s.draws).agent
      { s with inp := (Config.freeTurn s.draws).inp, draws := s.draws + 1 } := by
  simp [step, State.nextTurn, State.takeTurn, h]

theorem decode_of_decodeTableWord {nbits w : Nat} {i : Instr} (h : decodeTableWord nbits w = some i) :
    decode (tableWord nbits w) = .legal i := by
  unfold decodeTableWord at h
  split at h
  · next hd => rw [hd, Option.some.inj h]
  · cases h

/-- Settles O6: the clauses on CMD are one rule for a turn that reaches offset 0. -/
theorem stepRunsTheDecodedCommand : Obligations.StepRunsTheDecodedCommand := by
  refine ⟨fun s t rest h => step_cons h, fun s h => step_nil h, ?_, ?_, ?_⟩
  · intro s v i inp rest ha hd
    exact step_writeCmd ha (offsetOf_offset_of_lt (wspan_pos _)) hd
  · intro s v i inp rest ha hd
    exact step_writeCmd ha (offsetOf_base _) hd
  · intro s nbits w i hd
    exact step_writeCmd (s := s.withFetchWord nbits w) rfl (offsetOf_offset_of_lt (wspan_pos _))
      (decode_of_decodeTableWord hd)

end Sys2Proof.Machine

/-! PROOFS. O42, O45, O46, O48: STATUS and the pins as functions of the state, and what reset leaves. -/

namespace Sys2Proof.Machine

/-! ## Reset -/

/-- R59, whatever the parameters and the draw of the unspecified elements. -/
theorem State.hasResetValues_atReset (p : Params) (k : Nat) (inp : Inputs) (agenda : List Turn)
    (rdata : Option Word) : (State.atReset p k inp agenda rdata).HasResetValues := by
  constructor <;> rfl

/-- Settles O46: a reset turn writes the values of R59 over whatever the state held. -/
theorem resetLeavesTheSpecsValues : Obligations.ResetLeavesTheSpecsValues := by
  refine ⟨State.hasResetValues_atReset _ _ _ _ _, rfl, fun s inp rest h => ?_⟩
  refine ⟨({ s with agenda := rest, inp := inp } : State).resetNow, step_cons h, ?_, rfl, ?_⟩
  · exact State.hasResetValues_atReset _ _ _ _ _
  · simp [State.resetNow, State.atReset]

/-- Settles O48: State.reset is what a reset turn leaves at R11's default parameters, which are in their
ranges. -/
theorem resetMeetsTheInvariants : Obligations.ResetMeetsTheInvariants := by
  have hpar : Params.default.wf = true := rfl
  exact (State.atRest_resetNow (s := { State.reset with draws := 0 }) hpar).inv

/-! ## Pins -/

/-- Settles O45: each row of R54 by the register that enables its driver. -/
theorem pinsFollowTheState : Obligations.PinsFollowTheState := by
  intro s
  refine ⟨?_, ?_, ?_, ?_, ?_, ?_, ?_, ?_, rfl⟩
  · intro k hk hd; simp [State.pinCsN, hk, hd]
  · intro k hk hd; simp [State.pinCsN, State.csLevel, hk, hd]
  · intro k hk; simp [State.pinCsN, Nat.not_lt.mpr hk]
  · intro ho; simp [State.pinSck, State.pinSdio, ho]
  · intro ho hd; simp [State.pinSck, ho, hd]
  · intro ho hd; simp [State.pinSck, ho, hd]
  · intro ho hd; simp [State.pinSdio, ho, hd]
  · intro ho hd; simp [State.pinSdio, ho, hd]

/-! ## STATUS -/

/-- A field of STATUS is the `n`-bit register that gives its bits. -/
theorem State.statusWord_field (s : State) {n : Nat} (x : BitVec n) (i : Nat)
    (h : ∀ j, j < n → s.statusWord.getLsbD (i + j) = x.getLsbD j) :
    s.statusWord.extractLsb' i n = x := by
  apply BitVec.eq_of_getLsbD_eq
  intro j hj
  rw [BitVec.getLsbD_extractLsb', h j hj]
  simp [hj]

theorem Phase.code_eq_zero_iff (p : Phase) : p.code = 0 ↔ p = .off := by cases p <;> decide

theorem State.HasResetValues.busy {s : State} (h : s.HasResetValues) : s.busy = false :=
  s.busy_false_iff.mpr (.inl ((Phase.code_eq_zero_iff _).mp h.phase))

/-- Every register that STATUS reports is 0 at reset. -/
theorem State.HasResetValues.statusWord {s : State} (h : s.HasResetValues) : s.statusWord = 0 := by
  apply BitVec.eq_of_getLsbD_eq
  intro i hi
  rw [s.statusWord_getLsbD i hi]
  simp [h.busy, h.init, h.dir, h.selv, h.sel, h.cav, h.ovr, h.err, h.phase, h.csDrv, h.doe, h.sckDrv,
    State.csActive]

/-- Settles O42: each field read off the bits of STATUS (`State.statusWord_getLsbD`). -/
theorem statusFields : Obligations.StatusFields := by
  intro s
  have bit := s.statusWord_getLsbD
  refine ⟨bit 0 (by omega), bit 1 (by omega), bit 2 (by omega), bit 3 (by omega), ?sel,
    bit 6 (by omega), bit 7 (by omega), ?err, ?phase, ?csact, bit 20 (by omega), bit 21 (by omega),
    bit 22 (by omega), ?zero, fun h => h.statusWord⟩
  case sel | err | phase | zero =>
    apply s.statusWord_field
    intro j hj
    rw [bit _ (by omega)]
    interval_cases j <;> simp
  case csact =>
    intro k hk
    rw [bit _ (by omega)]
    interval_cases k <;> rfl

end Sys2Proof.Machine

/-! PROOFS. O8, O51, O54: the registers that only the host or reset writes, and the chip-selects. -/

namespace Sys2Proof.Machine

variable {s t : State}

/-! ## Chip-selects -/

/-- R55, R326 I1: an active line is that of SEL. -/
theorem State.Inv.eq_sel_of_csActive (h : s.Inv) {k : Nat} (hk : k < 4)
    (hact : s.csActive k = true) : k = s.sel.toNat := by
  by_contra hne
  have hhigh := s.otherSelected_false_iff.mp h.no_other_selected k hk hne
  simp [State.csActive, hhigh] at hact

/-- Settles O51: both lines are that of SEL. -/
theorem atMostOneChipSelectIsActive : Obligations.AtMostOneChipSelectIsActive := by
  intro s h j k hj hk hactj hactk
  exact (h.eq_sel_of_csActive hj hactj).trans (h.eq_sel_of_csActive hk hactk).symm

/-! ## What the controller and the counter never write -/

/-- The registers that only the host's accesses and reset write, with the turns to come. -/
structure Held where
  par : Params
  init : Bool
  selv : Bool
  sel : BitVec 2
  cav : Bool
  lastcmd : Word
  timeout : Word
  txd0 : Half
  txd1 : Half
  rxlen : Half
  ldata : Bool
  cntEn : Bool
  agenda : List Turn

/-- Those registers of a state. -/
def State.held (s : State) : Held where
  par := s.par
  init := s.init
  selv := s.selv
  sel := s.sel
  cav := s.cav
  lastcmd := s.lastcmd
  timeout := s.timeout
  txd0 := s.txd0
  txd1 := s.txd1
  rxlen := s.rxlen
  ldata := s.ldata
  cntEn := s.cntEn
  agenda := s.agenda

@[simp] theorem State.held_txEdge (s : State) : s.txEdge.held = s.held := by
  obtain ⟨_, _, _, _, _, _, he⟩ := s.txEdge_frame
  rw [he]
  rfl

@[simp] theorem State.held_rxEdge (s : State) : s.rxEdge.held = s.held := by
  obtain ⟨_, _, _, _, _, _, he, -⟩ := s.rxEdge_frame
  rw [he]
  rfl

theorem stepXTx_held (s : State) : (stepXTx s).held = s.held := by
  unfold stepXTx
  split
  · rfl
  · split
    · rfl
    · exact s.held_txEdge

theorem stepXRx_held (s : State) : (stepXRx s).held = s.held := by
  unfold stepXRx
  split
  · rfl
  · split
    · rfl
    · exact s.held_rxEdge

/-- No controller step writes a held register. -/
theorem stepController_held (h : stepController s = .next t) : t.held = s.held := by
  rcases stepController_next_cases h with
    ⟨-, rfl⟩ | ⟨-, ho, hs⟩ | ⟨-, rfl⟩ | ⟨-, rfl⟩ | ⟨-, rfl⟩ | ⟨-, rfl⟩ | ⟨-, rfl⟩ | ⟨-, rfl⟩ |
    ⟨-, rfl⟩ | ⟨-, ho, hs⟩ | ⟨-, rfl⟩ | ⟨-, rfl⟩ | ⟨-, rfl⟩
  · rfl
  · rw [stepXStart_of_none ho, State.loadTx_eq] at hs
    cases hs
    simp [State.held]
  · exact stepXTx_held s
  · unfold stepXGrace; split <;> rfl
  · rfl
  · exact stepXRx_held s
  · rfl
  · rfl
  · rfl
  · rw [stepTAssert_of_none ho] at hs
    cases hs
    simp [State.held]
  · unfold stepTHold; split <;> rfl
  · rfl
  · rfl

theorem State.tick_held (s : State) : s.tick.held = s.held := by
  rcases s.tick_cases with ⟨-, he⟩ | ⟨-, he⟩ <;> rw [he]
  rfl

/-! ## O54: the host while BUSY -/

/-- R99, R288: while BUSY a write to any register changes at most CAV. -/
theorem writeReg_busy (hb : s.busy = true) {r : Reg} {v : Word} (h : writeReg r v s = .next t) :
    ∃ cav, t = s.setCav cav := by
  cases r with
  | cmd =>
    refine ⟨true, ?_⟩
    rcases acceptWord_cases v s with ⟨i, -, he⟩ | ⟨-, -, he⟩ <;> rw [writeReg, he] at h
    · rw [exec_eq_accept, s.accept_busy hb] at h
      exact (Host.Outcome.next.inj h).symm
    · rw [State.acceptIllegal, if_pos hb] at h
      exact (Host.Outcome.next.inj h).symm
  | status =>
    cases h
    split
    · exact ⟨false, rfl⟩
    · exact ⟨s.cav, rfl⟩
  | txdata0 | txdata1 | timeout => cases h; exact ⟨true, if_pos hb⟩
  | rxcnt | grace | cyccnt | clkfreq | param | rxbuf _ | reserved => cases h; exact ⟨s.cav, rfl⟩

/-- While BUSY a host step changes at most CAV and what the host has read. -/
theorem stepHost_busy (hb : s.busy = true) {a : HostAccess} (h : stepHost a s = .next t) :
    ∃ cav rdata draws, t = { s with cav := cav, rdata := rdata, draws := draws } := by
  rcases stepHost_next_cases h with ⟨-, rfl⟩ | ⟨off, -, -, -, ⟨-, rfl⟩ | ⟨v, -, hw⟩⟩
  · cases a.kind <;> exact ⟨_, _, _, rfl⟩
  · exact ⟨_, _, _, rfl⟩
  · obtain ⟨cav, rfl⟩ := writeReg_busy hb hw
    exact ⟨_, _, _, rfl⟩

/-- While BUSY a step other than reset changes CAV at most, of the held registers. -/
theorem stepAgent_busy_held {a : Agent} (hb : s.busy = true) (ha : a ≠ .reset)
    (h : stepAgent a s = .next t) : ∃ cav, t.held = (s.setCav cav).held := by
  cases a with
  | host x =>
    obtain ⟨cav, -, -, rfl⟩ := stepHost_busy hb h
    exact ⟨cav, rfl⟩
  | controller => exact ⟨s.cav, stepController_held h⟩
  | counter => cases h; exact ⟨s.cav, s.tick_held⟩
  | environment => cases h; exact ⟨s.cav, rfl⟩
  | reset => exact absurd rfl ha

/-- Settles O54: the seven registers are held ones, and none of them is CAV. -/
theorem transmitWordsAreFixedWhileBusy : Obligations.TransmitWordsAreFixedWhileBusy := by
  intro s t hb hr h
  obtain ⟨cav, ht⟩ := stepAgent_busy_held (s.busy_takeTurn.trans hb) hr h
  exact ⟨(congrArg Held.txd0 ht).trans s.takeTurn_txd0, (congrArg Held.txd1 ht).trans s.takeTurn_txd1,
    (congrArg Held.rxlen ht).trans s.takeTurn_rxlen, (congrArg Held.ldata ht).trans s.takeTurn_ldata,
    (congrArg Held.timeout ht).trans s.takeTurn_timeout, (congrArg Held.sel ht).trans s.takeTurn_sel,
    (congrArg Held.lastcmd ht).trans s.takeTurn_lastcmd⟩

/-! ## O8: the writers of CAV -/

/-- No command's body writes CAV. -/
theorem bodyOf_cav (i : Instr) (s : State) : (bodyOf i s).cav = s.cav := by
  cases i with
  | nop | deinit => rfl
  | init => rw [bodyOf, State.initBody_eq]; split <;> rfl
  | select k => simp only [bodyOf, State.selectBody]; split <;> rfl
  | xfer d n => simp only [bodyOf, State.xferBody, State.checkedStart]; split_ifs <;> rfl
  | sendrecv k d n => simp only [bodyOf, State.sendrecvBody, State.checkedStart]; split_ifs <;> rfl
  | trig => simp only [bodyOf, State.trigBody]; split <;> rfl

/-- Accept writes CAV only while BUSY, and then to 1 (R288). -/
theorem acceptWord_cav {v : Word} (h : acceptWord v s = .next t) :
    t.cav = s.cav ∨ (s.busy = true ∧ t.cav = true) := by
  rcases acceptWord_cases v s with ⟨i, -, he⟩ | ⟨-, -, he⟩ <;> rw [he] at h
  · rw [exec_eq_accept] at h
    cases h
    rcases s.accept_cases (encode i) (needsInit i) (bodyOf i) with
      ⟨hb, he⟩ | ⟨-, -, -, he⟩ | ⟨-, -, he⟩ <;> rw [he]
    · exact .inr ⟨hb, rfl⟩
    · exact .inl rfl
    · exact .inl (bodyOf_cav i _)
  · cases h
    rcases s.acceptIllegal_cases v with ⟨hb, he⟩ | ⟨-, he⟩ <;> rw [he]
    · exact .inr ⟨hb, rfl⟩
    · exact .inl rfl

/-- The registers whose writes are busy-guarded (R99). -/
def Reg.isGuarded : Reg → Bool
  | .cmd | .txdata0 | .txdata1 | .timeout => true
  | .status | .rxcnt | .grace | .cyccnt | .clkfreq | .param | .rxbuf _ | .reserved => false

theorem State.guarded_cav {f : State → State} (hf : (f s).cav = s.cav) :
    (s.guarded f).cav = s.cav ∨ (s.busy = true ∧ (s.guarded f).cav = true) := by
  unfold State.guarded
  cases hb : s.busy
  · exact .inl hf
  · exact .inr ⟨rfl, rfl⟩

/-- What a write does to CAV: nothing, or a guarded write while BUSY sets it, or STATUS bit 6 clears it
(R86, R99). -/
theorem writeReg_cav {r : Reg} {v : Word} (h : writeReg r v s = .next t) :
    t.cav = s.cav ∨ (s.busy = true ∧ r.isGuarded = true ∧ t.cav = true) ∨
      (r = .status ∧ v.getLsbD 6 = true ∧ t.cav = false) := by
  cases r with
  | cmd => exact (acceptWord_cav h).imp_right fun ⟨hb, hc⟩ => .inl ⟨hb, rfl, hc⟩
  | status =>
    cases h
    split
    · next h6 => exact .inr (.inr ⟨rfl, h6, rfl⟩)
    · exact .inl rfl
  | txdata0 | txdata1 | timeout =>
    cases h
    exact (State.guarded_cav rfl).imp_right fun ⟨hb, hc⟩ => .inl ⟨hb, rfl, hc⟩
  | rxcnt | grace | cyccnt | clkfreq | param | rxbuf _ | reserved => cases h; exact .inl rfl

/-- R82: STATUS is at one offset only. -/
theorem off_of_regAt_status {p : Params} {off : Nat} : regAt p off = .status → off = 0x004 := by
  unfold regAt
  repeat' refine iteInduction (motive := (· = Reg.status → _)) (fun h => ?_) (fun _ => ?_)
  all_goals intro hr; first | exact h | cases hr

/-- R82: the offsets of the busy-guarded registers. -/
theorem off_of_regAt_guarded {p : Params} {off : Nat} :
    (regAt p off).isGuarded = true → off = 0x000 ∨ off = 0x008 ∨ off = 0x00C ∨ off = 0x018 := by
  unfold regAt
  repeat' refine iteInduction (motive := (Reg.isGuarded · = true → _)) (fun h => ?_) (fun _ => ?_)
  all_goals intro hg; first | omega | cases hg

/-- `a` is a host write that gives CAV the value `c`: a guarded write while BUSY sets it, a write to
STATUS with bit 6 set clears it (R86, R288). -/
def State.WritesCav (s : State) (a : Agent) (c : Bool) : Prop :=
  ∃ tgt v off, a = .host ⟨tgt, .word, .write v⟩ ∧ offsetOf s.par tgt = some off ∧
    ((c = true ∧ s.busy = true ∧ (off = 0x000 ∨ off = 0x008 ∨ off = 0x00C ∨ off = 0x018)) ∨
      (c = false ∧ off = 0x004 ∧ v.getLsbD 6 = true))

theorem State.writesCav_takeTurn {a : Agent} {c : Bool} :
    s.takeTurn.WritesCav a c ↔ s.WritesCav a c := by
  simp [State.WritesCav]

/-- What a host step does to CAV. -/
theorem stepHost_cav {a : HostAccess} (h : stepHost a s = .next t) :
    t.cav = s.cav ∨ s.WritesCav (.host a) t.cav := by
  obtain ⟨tgt, width, kind⟩ := a
  rcases stepHost_next_cases h with ⟨-, rfl⟩ | ⟨off, ho, rfl, -, ⟨-, rfl⟩ | ⟨v, rfl, hw⟩⟩
  · exact .inl (by cases kind <;> rfl)
  · exact .inl rfl
  · rcases writeReg_cav hw with hc | ⟨hb, hg, hc⟩ | ⟨hr, h6, hc⟩
    · exact .inl hc
    · exact .inr ⟨tgt, v, off, rfl, ho, .inl ⟨hc, hb, off_of_regAt_guarded hg⟩⟩
    · exact .inr ⟨tgt, v, off, rfl, ho, .inr ⟨hc, off_of_regAt_status hr, h6⟩⟩

/-- What an agent's move does to CAV: nothing but by the host or by reset. -/
theorem stepAgent_cav {a : Agent} (h : stepAgent a s = .next t) :
    t.cav = s.cav ∨ (a = .reset ∧ t.cav = false) ∨ s.WritesCav a t.cav := by
  cases a with
  | host x => exact (stepHost_cav h).imp_right .inr
  | controller => exact .inl (congrArg Held.cav (stepController_held h))
  | counter => cases h; exact .inl (congrArg Held.cav s.tick_held)
  | environment => cases h; exact .inl rfl
  | reset => cases h; exact .inr (.inl ⟨rfl, rfl⟩)

theorem step_cav (h : step s = .next t) :
    t.cav = s.cav ∨ (s.nextTurn.agent = .reset ∧ t.cav = false) ∨
      s.WritesCav s.nextTurn.agent t.cav := by
  rw [← s.takeTurn_cav, ← State.writesCav_takeTurn]
  exact stepAgent_cav h

/-- Settles O8: the cases of `step_cav`, told apart by the value written. -/
theorem cavChangesOnlyAtItsWriters : Obligations.CavChangesOnlyAtItsWriters := by
  intro s t h
  rcases step_cav h with hc | ⟨ha, hc⟩ |
    ⟨tgt, v, off, ha, ho, ⟨hc, hb, hoff⟩ | ⟨hc, rfl, h6⟩⟩
  · exact ⟨fun h0 h1 => by simp [hc, h0] at h1, fun h1 h0 => by simp [hc, h1] at h0⟩
  · exact ⟨fun _ h1 => by simp [hc] at h1, fun _ _ => .inl ha⟩
  · exact ⟨fun _ _ => ⟨hb, tgt, v, off, ha, ho, hoff⟩, fun _ h0 => by simp [hc] at h0⟩
  · exact ⟨fun _ h1 => by simp [hc] at h1, fun _ _ => .inr ⟨tgt, v, ha, ho, h6⟩⟩

end Sys2Proof.Machine

/-! PROOFS. O60, runs and the transmit phase. A transaction is three runs: from X_START to the end of the
transmit phase, the ticks of the grace wait, and from X_GRACE to IDLE. What the held registers and the
invariants say of the end is not followed step by step. -/

namespace Sys2Proof.Machine

variable {s t : State}

/-! ## Runs -/

/-- A run that ends in a state took its first step. -/
theorem exists_step_of_run_succ {n : Nat} (hr : Host.Core.run core (n + 1) s = .next t) :
    ∃ u, step s = .next u ∧ Host.Core.run core n u = .next t := by
  cases hs : step s with
  | next u => exact ⟨u, rfl, run_succ n hs ▸ hr⟩
  | fault r => cases r
  | refused r =>
    have hc : core.step s = .refused r := hs
    simp only [Host.Core.run, hc] at hr
    cases hr

theorem run_keeps_inv (n : Nat) (h : s.Inv) (hr : Host.Core.run core n s = .next t) : t.Inv := by
  induction n generalizing s with
  | zero => cases hr; exact h
  | succ n ih =>
    obtain ⟨u, hs, hr⟩ := exists_step_of_run_succ hr
    exact ih (everyStepKeepsTheInvariants s u h hs) hr

/-- The state in which the agent of turn `a` moves, `rest` being the turns after it. -/
def State.consume (s : State) (a : Turn) (rest : List Turn) : State :=
  { s with agenda := rest, inp := a.inp }

/-- A controller turn in front of a run. -/
theorem run_controller {u : State} {a : Turn} {rest : List Turn} (n : Nat) (ha : s.agenda = a :: rest)
    (hc : a.agent = .controller) (hs : stepController (s.consume a rest) = .next u) :
    Host.Core.run core (n + 1) s = Host.Core.run core n u :=
  run_succ n ((step_controller ha hc).trans hs)

/-- A turn of the controller or of the counter leaves the held registers alone. -/
theorem step_held {a : Turn} {rest : List Turn} (ha : s.agenda = a :: rest)
    (hc : a.agent = .controller ∨ a.agent = .counter) (hs : step s = .next t) :
    t.held = (s.consume a rest).held := by
  replace hs : stepAgent a.agent (s.consume a rest) = .next t := (step_cons ha).symm.trans hs
  rcases hc with hc | hc <;> rw [hc] at hs
  · exact stepController_held hs
  · cases hs
    exact State.tick_held _

/-- So do many of them: only the turns leave the agenda. -/
theorem run_held {ts rest : List Turn} (ha : s.agenda = ts ++ rest)
    (hts : ∀ a ∈ ts, a.agent = .controller ∨ a.agent = .counter)
    (hr : Host.Core.run core ts.length s = .next t) :
    t.held = ({ s with agenda := rest } : State).held := by
  induction ts generalizing s with
  | nil =>
    cases hr
    simp [State.held, ha]
  | cons a ts ih =>
    obtain ⟨hc, hts⟩ := List.forall_mem_cons.mp hts
    obtain ⟨u, hs, hr⟩ := exists_step_of_run_succ hr
    have hu := step_held ha hc hs
    have htu := ih (congrArg Held.agenda hu) hts hr
    exact htu.trans (congrArg (fun h : Held => { h with agenda := rest }) hu)

/-- Turns of the counter do no more than count, with CNT_EN = 1. -/
theorem run_ticks {ts rest : List Turn} (ha : s.agenda = ts ++ rest) (hts : allCounter ts)
    (hen : s.cntEn = true) :
    ∃ inp, Host.Core.run core ts.length s = .next { s with
      agenda := rest, inp := inp, cyccnt := s.cyccnt + BitVec.ofNat 32 ts.length } := by
  induction ts generalizing s with
  | nil =>
    refine ⟨s.inp, ?_⟩
    cases s
    simp_all [Host.Core.run]
  | cons a ts ih =>
    obtain ⟨hc, hts⟩ := List.forall_mem_cons.mp hts
    have hs := step_tick (rest := ts ++ rest) ha hc hen
    obtain ⟨inp, hr⟩ := ih (s := { s with
      agenda := ts ++ rest, inp := a.inp, cyccnt := s.cyccnt + 1 }) rfl hts hen
    have hcount : s.cyccnt + BitVec.ofNat 32 (ts.length + 1)
        = s.cyccnt + 1 + BitVec.ofNat 32 ts.length := by
      rw [Nat.add_comm, BitVec.ofNat_add, BitVec.add_assoc]
      rfl
    refine ⟨inp, ?_⟩
    rw [List.length_cons, run_succ _ hs, hcount]
    exact hr

/-! ## The watchdog -/

theorem watchdogCycles_pos {ms f : Nat} (hms : 0 < ms) (hf : 0 < f) : 0 < watchdogCycles ms f := by
  have := ceilDiv_pos (ms * f) 1000 (by omega) (Nat.mul_pos hms hf)
  unfold watchdogCycles
  omega

/-- A deadline has not expired when it is armed. -/
theorem State.expired_armWatchdog (s : State) (ht : 0 < s.timeout.toNat) (hf : 0 < s.inp.clkf.toNat) :
    s.armWatchdog.expired = false := by
  have hpos := watchdogCycles_pos ht hf
  rw [Bool.eq_false_iff, ne_eq, State.expired_iff, State.armWatchdog_plimit_toNat]
  simp [State.elapsed]
  omega

/-! ## The transmit phase -/

/-- How many SCK edges of the transmit phase are done (R159, R161). -/
def State.edgesSent (s : State) : Nat :=
  32 * s.widx.toNat + 2 * s.bit.toNat + if s.edge = .trail then 1 else 0

theorem State.ntxw_le (s : State) : s.ntxw ≤ 2 := by
  rw [s.ntxw_eq]
  split <;> omega

/-- R159: TxEdge is one edge more. -/
theorem State.edgesSent_txEdge (s : State) (hw : s.widx.toNat < s.ntxw) :
    s.txEdge.edgesSent = s.edgesSent + 1 := by
  have hn := s.ntxw_le
  cases he : s.edge with
  | lead => rw [s.txEdge_lead he]; simp [State.edgesSent, he]
  | trail =>
    by_cases hb : s.bit = 15
    · by_cases hl : (s.widx + 1).toNat < s.ntxw
      · rw [s.txEdge_trail_next he hb hl, State.loadTx_eq]
        simp [State.edgesSent, he, hb]
        omega
      · rw [s.txEdge_trail_last he hb hl]
        simp [State.edgesSent, he, hb]
        omega
    · have hlt : s.bit.toNat < 15 := by bv_omega
      rw [s.txEdge_trail_mid he hb]
      simp [State.edgesSent, he]
      omega

/-- All the edges done is all the words sent. -/
theorem State.widx_of_edgesSent (h : s.edgesSent = 32 * s.ntxw) : s.widx.toNat = s.ntxw := by
  unfold State.edgesSent at h
  split at h <;> omega

theorem stepController_xTx (s : State) (hp : s.phase = .xTx) : stepController s = .next (stepXTx s) := by
  simp only [stepController, hp]

theorem stepXTx_edge (hw : s.widx.toNat ≠ s.ntxw) (he : s.expired = false) :
    stepXTx s = s.txEdge := by
  simp [stepXTx, hw, he]

theorem stepXTx_complete (s : State) (hw : s.widx.toNat = s.ntxw) :
    stepXTx s = s.graceBegin.setPhase .xGrace := by
  simp [stepXTx, hw]

/-- An edge leaves the phase, the deadline, the number of words, the turns and RXBUF. -/
theorem State.txEdge_keeps (s : State) :
    s.txEdge.phase = s.phase ∧ s.txEdge.expired = s.expired ∧ s.txEdge.ntxw = s.ntxw ∧
      s.txEdge.agenda = s.agenda ∧ s.txEdge.rxbuf = s.rxbuf := by
  obtain ⟨_, _, _, _, _, _, he⟩ := s.txEdge_frame
  rw [he]
  exact ⟨rfl, rfl, rfl, rfl, rfl⟩

/-- One edge of the transmit phase in front of a run. -/
theorem run_txEdge {a : Turn} {rest : List Turn} (n : Nat) (hp : s.phase = .xTx)
    (he : s.expired = false) (hw : s.widx.toNat ≠ s.ntxw) (ha : s.agenda = a :: rest)
    (hc : a.agent = .controller) :
    Host.Core.run core (n + 1) s = Host.Core.run core n (s.consume a rest).txEdge := by
  have hs : stepXTx (s.consume a rest) = (s.consume a rest).txEdge := stepXTx_edge hw he
  have hctl : stepController (s.consume a rest) = .next (stepXTx (s.consume a rest)) :=
    stepController_xTx _ hp
  exact run_controller n ha hc (hs ▸ hctl)

/-- X_TX sends edge after edge while no tick falls (R223). -/
theorem run_txEdges (n : Nat) {ts rest : List Turn} (hp : s.phase = .xTx) (he : s.expired = false)
    (hn : s.edgesSent + n = 32 * s.ntxw) (ha : s.agenda = ts ++ rest) (hlen : n ≤ ts.length)
    (hc : allController ts) :
    ∃ t : State, Host.Core.run core n s = .next t ∧ t.phase = .xTx ∧ t.widx.toNat = t.ntxw ∧
      t.agenda = ts.drop n ++ rest ∧ t.rxbuf = s.rxbuf := by
  induction n generalizing s ts with
  | zero => exact ⟨s, rfl, hp, s.widx_of_edgesSent hn, ha, rfl⟩
  | succ n ih =>
    obtain _ | ⟨a, ts⟩ := ts
    · simp at hlen
    obtain ⟨hca, hc⟩ := List.forall_mem_cons.mp hc
    have hw : s.widx.toNat < s.ntxw := by unfold State.edgesSent at hn; omega
    have hsent : (s.consume a (ts ++ rest)).txEdge.edgesSent = s.edgesSent + 1 :=
      State.edgesSent_txEdge _ hw
    obtain ⟨hp', he', hntxw, ha', hbuf⟩ := (s.consume a (ts ++ rest)).txEdge_keeps
    rw [run_txEdge n hp he hw.ne ha hca]
    obtain ⟨t, hr, htp, htw, hta, htb⟩ := ih (hp'.trans hp) (he'.trans he)
      (by rw [hsent, hntxw]; exact Eq.trans (by omega) hn) ha' (by simpa using hlen) hc
    exact ⟨t, hr, htp, htw, hta, htb.trans hbuf⟩

theorem stepController_xStart (s : State) (hp : s.phase = .xStart) : stepController s = stepXStart s := by
  simp only [stepController, hp]

/-- X_START leaves the transmit phase with no edge done and the deadline armed (R222). -/
theorem State.Inv.stepXStart_next (h : s.Inv) :
    ∃ t : State, stepXStart s = .next t ∧ t.phase = .xTx ∧ t.edgesSent = 0 ∧ t.ntxw = s.ntxw ∧
      t.expired = s.armWatchdog.expired ∧ t.agenda = s.agenda ∧ t.rxbuf = s.rxbuf := by
  refine ⟨_, stepXStart_of_none h.no_other_selected, rfl, ?_, ?_, ?_, ?_, ?_⟩ <;>
    rw [State.loadTx_eq] <;> rfl

/-- From X_START the transmit phase ends in the grace wait, with nothing received yet. -/
theorem run_transmit {f : Word} {ts rest : List Turn} (h : s.Inv) (hp : s.phase = .xStart)
    (hf : 0 < f.toNat) (hto : 0 < s.timeout.toNat) (hc : allController ts) (hclk : clkfIs f ts)
    (hlen : ts.length = 1 + 32 * s.ntxw + 1) (ha : s.agenda = ts ++ rest) :
    ∃ t : State, Host.Core.run core ts.length s = .next t ∧ t.phase = .xGrace ∧
      t.grace.toNat = graceCycles f.toNat ∧ t.wstart = t.cyccnt ∧ t.rxbuf = s.rxbuf := by
  obtain _ | ⟨a, ts⟩ := ts
  · simp at hlen
  obtain ⟨hca, hc⟩ := List.forall_mem_cons.mp hc
  obtain ⟨hfa, hclk⟩ := List.forall_mem_cons.mp hclk
  have hlen' : ts.length = 32 * s.ntxw + 1 := by simp at hlen; omega
  -- X_START
  have hinv : (s.consume a (ts ++ rest)).Inv := h.congr ..
  obtain ⟨u, hu, hup, husent, huntxw, hue, hua, hub⟩ := hinv.stepXStart_next
  have hs : stepController (s.consume a (ts ++ rest)) = .next u :=
    (stepController_xStart (s.consume a (ts ++ rest)) hp).trans hu
  have hexp : u.expired = false := hue.trans (State.expired_armWatchdog _ hto (hfa ▸ hf))
  -- the edges
  have hedges : u.edgesSent + 32 * s.ntxw = 32 * u.ntxw := by rw [husent, huntxw, Nat.zero_add]; rfl
  obtain ⟨v, hr, hvp, hvw, hva, hvb⟩ := run_txEdges (32 * s.ntxw) hup hexp hedges hua (by omega) hc
  -- the step that finds the words sent
  obtain ⟨b, hb⟩ : ∃ b, ts.drop (32 * s.ntxw) = [b] := by
    rw [← List.length_eq_one_iff, List.length_drop]
    omega
  have hbmem : b ∈ ts := List.mem_of_mem_drop (hb ▸ List.mem_singleton_self b)
  have hdone : stepController (v.consume b rest) =
      .next ((v.consume b rest).graceBegin.setPhase .xGrace) :=
    (stepController_xTx (v.consume b rest) hvp).trans
      (congrArg _ (stepXTx_complete (v.consume b rest) hvw))
  refine ⟨(v.consume b rest).graceBegin.setPhase .xGrace, ?_, rfl, ?_, rfl, hvb.trans hub⟩
  · rw [List.length_cons, run_controller _ ha hca hs, hlen', run_add _ _ hr,
      run_controller 0 (by rw [hva, hb]; rfl) (hc b hbmem) hdone]
    rfl
  · rw [State.setPhase_grace, State.graceBegin_grace_toNat]
    exact congrArg (graceCycles ·.toNat) (hclk b hbmem)

end Sys2Proof.Machine

/-! PROOFS. O60, the receive phase: 32 edges shift in and store a word, whatever SHR held before, and word
after word fills RXBUF. -/

namespace Sys2Proof.Machine

variable {s t : State}

/-! ## The word shifted in -/

/-- Two shift registers agree on the `m` bits shifted in last (R156). -/
def AgreeOnLast (lsb : Bool) (m : Nat) (r r' : Half) : Prop :=
  ∀ i, i < 16 → (if lsb then 16 ≤ i + m else i < m) → r.getLsbD i = r'.getLsbD i

theorem AgreeOnLast.shiftIn {lsb : Bool} {m : Nat} {r r' : Half} (h : AgreeOnLast lsb m r r') (b : Bool) :
    AgreeOnLast lsb (m + 1) (shiftIn lsb r b) (shiftIn lsb r' b) := by
  intro i hi hm
  rw [shiftIn_getLsbD _ _ _ _ hi, shiftIn_getLsbD _ _ _ _ hi]
  cases lsb with
  | true =>
    by_cases h15 : i = 15
    · simp [h15]
    · simpa [h15] using h (i + 1) (by omega) (by simp at hm ⊢; omega)
  | false =>
    by_cases h0 : i = 0
    · simp [h0]
    · simpa [h0] using h (i - 1) (by omega) (by simp at hm ⊢; omega)

theorem AgreeOnLast.foldl {lsb : Bool} (bits : List Bool) {m : Nat} {r r' : Half}
    (h : AgreeOnLast lsb m r r') :
    AgreeOnLast lsb (m + bits.length) (bits.foldl (Machine.shiftIn lsb) r)
      (bits.foldl (Machine.shiftIn lsb) r') := by
  induction bits generalizing m r r' with
  | nil => exact h
  | cons b bits ih =>
    rw [List.length_cons, Nat.add_comm bits.length, ← Nat.add_assoc]
    exact ih (h.shiftIn b)

/-- Sixteen bits shifted in leave nothing of what SHR held before (R156). -/
theorem foldl_shiftIn_of_length {bits : List Bool} (h : bits.length = 16) (lsb : Bool) (r r' : Half) :
    bits.foldl (shiftIn lsb) r = bits.foldl (shiftIn lsb) r' := by
  have none : AgreeOnLast lsb 0 r r' := fun i hi hm => by cases lsb <;> simp at hm; omega
  apply BitVec.eq_of_getLsbD_eq
  intro i hi
  exact none.foldl bits i hi (by rw [h]; cases lsb <;> simp; omega)

/-- The levels of DIN at the first `k` receive edges that CPHA names, from a leading edge at turn 0
(R160). -/
def sampledBits (cpha : Bool) (ts : List Turn) (k : Nat) : List Bool :=
  (List.range k).map fun i => dinAt ts (2 * i + cpha.toNat)

theorem sampledBits_cons_cons (cpha : Bool) (a b : Turn) (ts : List Turn) (k : Nat) :
    sampledBits cpha (a :: b :: ts) (k + 1) =
      (if cpha then b.inp.din else a.inp.din) :: sampledBits cpha ts k := by
  have htail (i : Nat) : dinAt (a :: b :: ts) (2 * (i + 1) + cpha.toNat) =
      dinAt ts (2 * i + cpha.toNat) := by
    rw [show 2 * (i + 1) + cpha.toNat = 2 * i + cpha.toNat + 1 + 1 by omega]
    rfl
  have hhead : dinAt (a :: b :: ts) (2 * 0 + cpha.toNat) = if cpha then b.inp.din else a.inp.din := by
    cases cpha <;> rfl
  simp only [sampledBits, List.range_succ_eq_map, List.map_cons, List.map_map, hhead]
  exact congrArg _ (List.map_congr_left fun i _ => htail i)

/-! ## The receive phase -/

theorem stepController_xRx (s : State) (hp : s.phase = .xRx) :
    stepController s = .next (stepXRx s) := by
  simp only [stepController, hp]

theorem stepXRx_edge (hw : s.widx ≠ s.rxlen) (he : s.expired = false) : stepXRx s = s.rxEdge := by
  simp [stepXRx, hw, he]

/-- The next controller step is an edge of the receive phase (R226). -/
structure State.RxEdgeDue (s : State) : Prop where
  phase : s.phase = .xRx
  word : s.widx ≠ s.rxlen
  live : s.expired = false

/-- One edge of the receive phase in front of a run. -/
theorem run_rxEdge {a : Turn} {rest : List Turn} (n : Nat) (h : s.RxEdgeDue) (ha : s.agenda = a :: rest)
    (hc : a.agent = .controller) :
    Host.Core.run core (n + 1) s = Host.Core.run core n (s.consume a rest).rxEdge := by
  have hs : stepXRx (s.consume a rest) = (s.consume a rest).rxEdge := stepXRx_edge h.word h.live
  have hctl := stepController_xRx (s.consume a rest) h.phase
  exact run_controller n ha hc (hs ▸ hctl)

/-- `s` with one bit of the word received and shifted in as `shr`, more bits to come. -/
def State.rxNextBit (s : State) (shr : Half) : State :=
  { s with sck := s.par.cpol, edge := .lead, bit := s.bit + 1, shr := shr }

/-- `s` with the last bit of the word received and the word `w` stored. -/
def State.rxStoreWord (s : State) (w : Half) : State :=
  { s with
    sck := s.par.cpol, edge := .lead, bit := 0, shr := w, widx := s.widx + 1
    rxbuf := s.rxbuf.set s.widx.toNat w }

/-- `s` with the two edges of a bit done. -/
def State.rxBitDone (s : State) (shr : Half) : State :=
  if s.bit = 15 then s.rxStoreWord shr else s.rxNextBit shr

theorem State.rxBitDone_last (s : State) (hb : s.bit = 15) {shr : Half} :
    s.rxBitDone shr = s.rxStoreWord shr := if_pos hb

theorem State.rxBitDone_mid (s : State) (hb : s.bit ≠ 15) {shr : Half} :
    s.rxBitDone shr = s.rxNextBit shr := if_neg hb

theorem State.rxWord_rxStoreWord_self (s : State) (w : Half) (h : s.widx.toNat < s.rxbuf.length) :
    (s.rxStoreWord w).rxWord s.widx.toNat = w :=
  s.rxWord_setRxWord_self _ w h

theorem State.rxWord_rxStoreWord_other (s : State) (w : Half) {j : Nat} (h : j ≠ s.widx.toNat) :
    (s.rxStoreWord w).rxWord j = s.rxWord j :=
  s.rxWord_setRxWord_other _ j w h

/-- A leading and a trailing edge shift in the level of DIN at the one that CPHA names (R160). -/
theorem State.rxEdge_rxEdge (s : State) (he : s.edge = .lead) (b : Turn) (rest : List Turn) :
    (s.rxEdge.consume b rest).rxEdge = (s.consume b rest).rxBitDone
      (shiftIn s.par.lsbFirst s.shr (if s.par.cpha then b.inp.din else s.inp.din)) := by
  have hlead := s.rxEdge_lead he
  have htrail : (s.rxEdge.consume b rest).edge = .trail := hlead ▸ rfl
  have hbit : (s.rxEdge.consume b rest).bit = s.bit := hlead ▸ rfl
  by_cases hb : s.bit = 15
  · rw [State.rxEdge_trail_last _ htrail (hbit.trans hb), hlead, (s.consume b rest).rxBitDone_last hb]
    cases hcpha : s.par.cpha <;> simp [State.consume, State.rxStoreWord, State.rxTrailShr, hcpha]
  · rw [State.rxEdge_trail_mid _ htrail (hbit ▸ hb), hlead, (s.consume b rest).rxBitDone_mid hb]
    cases hcpha : s.par.cpha <;> simp [State.consume, State.rxNextBit, State.rxTrailShr, hcpha]

/-- Two edges receive one bit. -/
theorem run_rxBit {a b : Turn} {rest : List Turn} (n : Nat) (h : s.RxEdgeDue) (he : s.edge = .lead)
    (ha : s.agenda = a :: b :: rest) (hca : a.agent = .controller) (hcb : b.agent = .controller) :
    Host.Core.run core (n + 2) s = Host.Core.run core n ((s.consume b rest).rxBitDone
      (shiftIn s.par.lsbFirst s.shr (if s.par.cpha then b.inp.din else a.inp.din))) := by
  have hlead := (s.consume a (b :: rest)).rxEdge_lead he
  have hdue : (s.consume a (b :: rest)).rxEdge.RxEdgeDue := hlead ▸ ⟨h.phase, h.word, h.live⟩
  have hagenda : (s.consume a (b :: rest)).rxEdge.agenda = b :: rest := hlead ▸ rfl
  rw [run_rxEdge (n + 1) h ha hca, run_rxEdge n hdue hagenda hcb]
  exact congrArg _ ((s.consume a (b :: rest)).rxEdge_rxEdge he b rest)

/-- The edges of the rest of a word receive its `k + 1` bits and store it (R161, R226). -/
theorem run_rxWord (k : Nat) {ts rest : List Turn} (h : s.RxEdgeDue) (he : s.edge = .lead)
    (hbit : s.bit.toNat + k = 15) (ha : s.agenda = ts ++ rest) (hlen : 2 * (k + 1) ≤ ts.length)
    (hc : allController ts) :
    ∃ b, Host.Core.run core (2 * (k + 1)) s = .next
      ((s.consume b (ts.drop (2 * (k + 1)) ++ rest)).rxStoreWord
        ((sampledBits s.par.cpha ts (k + 1)).foldl (shiftIn s.par.lsbFirst) s.shr)) := by
  induction k generalizing s ts with
  | zero =>
    obtain _ | ⟨a, _ | ⟨b, ts⟩⟩ := ts
    · simp at hlen
    · simp at hlen
    obtain ⟨hca, hc⟩ := List.forall_mem_cons.mp hc
    obtain ⟨hcb, -⟩ := List.forall_mem_cons.mp hc
    have hb : s.bit = 15 := BitVec.eq_of_toNat_eq hbit
    rw [sampledBits_cons_cons]
    exact ⟨b, (run_rxBit 0 h he ha hca hcb).trans
      (congrArg Host.Outcome.next ((s.consume b (ts ++ rest)).rxBitDone_last hb))⟩
  | succ k ih =>
    obtain _ | ⟨a, _ | ⟨b, ts⟩⟩ := ts
    · simp at hlen
    · simp at hlen; omega
    obtain ⟨hca, hc⟩ := List.forall_mem_cons.mp hc
    obtain ⟨hcb, hc⟩ := List.forall_mem_cons.mp hc
    rw [List.cons_append, List.cons_append] at ha
    have hb : s.bit ≠ 15 := fun e => by simp [e] at hbit
    have hnext : (s.bit + 1).toNat + k = 15 := by
      rw [BitVec.toNat_add]
      simp
      omega
    rw [sampledBits_cons_cons, show 2 * (k + 1 + 1) = 2 * (k + 1) + 2 by omega,
      run_rxBit _ h he ha hca hcb, (s.consume b (ts ++ rest)).rxBitDone_mid hb]
    exact ih (s := (s.consume b (ts ++ rest)).rxNextBit _) ⟨h.phase, h.word, h.live⟩ rfl hnext rfl
      (by simp at hlen; omega) hc

/-- The word that 32 receive edges, the first at turn 0 of `ts`, shift in. -/
def receivedWord (p : Params) (ts : List Turn) : Half :=
  (sampledBits p.cpha ts 16).foldl (shiftIn p.lsbFirst) 0

/-- A whole word, whatever SHR held. -/
theorem run_rxWholeWord {ts rest : List Turn} (h : s.RxEdgeDue) (he : s.edge = .lead) (hb : s.bit = 0)
    (ha : s.agenda = ts ++ rest) (hlen : 32 ≤ ts.length) (hc : allController ts) :
    ∃ b, Host.Core.run core 32 s = .next
      ((s.consume b (ts.drop 32 ++ rest)).rxStoreWord (receivedWord s.par ts)) := by
  have hbits : (sampledBits s.par.cpha ts 16).length = 16 := by simp [sampledBits]
  rw [receivedWord, foldl_shiftIn_of_length hbits _ 0 s.shr]
  exact run_rxWord 15 h he (by simp [hb]) ha hlen hc

/-- X_RX receives word after word while no tick falls, and writes no other entry of RXBUF (R226). -/
theorem run_rxWords (n : Nat) {ts rest : List Turn} (hp : s.phase = .xRx) (he : s.edge = .lead)
    (hb : s.bit = 0) (hlive : s.expired = false) (hn : s.widx.toNat + n = s.rxlen.toNat)
    (hfit : s.rxlen.toNat ≤ s.rxbuf.length) (ha : s.agenda = ts ++ rest) (hlen : 32 * n ≤ ts.length)
    (hc : allController ts) :
    ∃ t : State, Host.Core.run core (32 * n) s = .next t ∧ t.phase = .xRx ∧ t.widx = t.rxlen ∧
      t.perr = s.perr ∧ t.grace = s.grace ∧ t.agenda = ts.drop (32 * n) ++ rest ∧
      (∀ j, j < n → t.rxWord (s.widx.toNat + j) = receivedWord s.par (ts.drop (32 * j))) ∧
      ∀ j, j < s.widx.toNat ∨ s.rxlen.toNat ≤ j → t.rxWord j = s.rxWord j := by
  induction n generalizing s ts with
  | zero =>
    exact ⟨s, rfl, hp, BitVec.eq_of_toNat_eq hn, rfl, rfl, ha, nofun, fun _ _ => rfl⟩
  | succ n ih =>
    have hw : s.widx ≠ s.rxlen := fun e => by rw [e] at hn; omega
    have hroom : s.widx.toNat < s.rxbuf.length := by omega
    obtain ⟨b, hr⟩ := run_rxWholeWord ⟨hp, hw, hlive⟩ he hb ha (by omega) hc
    let v := s.consume b (ts.drop 32 ++ rest)
    let u := v.rxStoreWord (receivedWord s.par ts)
    have hwidx : u.widx.toNat = s.widx.toNat + 1 := by
      have := s.rxlen.isLt
      simp [u, v, State.rxStoreWord, State.consume]
      omega
    obtain ⟨t, hrt, htp, htw, hperr, hgrace, hta, hword, hother⟩ := ih (s := u) (ts := ts.drop 32)
      hp rfl rfl hlive (by rw [hwidx]; exact Eq.trans (by omega) hn)
      (by simpa [u, v, State.rxStoreWord, State.consume] using hfit) rfl (by rw [List.length_drop]; omega)
      (fun a hmem => hc a (List.mem_of_mem_drop hmem))
    refine ⟨t, ?_, htp, htw, hperr, hgrace, ?_, ?_, ?_⟩
    · rw [show 32 * (n + 1) = 32 + 32 * n by omega, run_add _ _ hr]
      exact hrt
    · rw [hta, List.drop_drop, show 32 * (n + 1) = 32 + 32 * n by omega]
    · intro j hj
      obtain _ | j := j
      · rw [Nat.add_zero, hother _ (.inl (by omega))]
        exact v.rxWord_rxStoreWord_self _ hroom
      · have := hword j (by omega)
        rw [hwidx, List.drop_drop] at this
        rw [show s.widx.toNat + (j + 1) = s.widx.toNat + 1 + j by omega, this,
          show 32 * (j + 1) = 32 + 32 * j by omega]
        rfl
    · intro j hj
      rw [hother j (by rw [hwidx]; exact hj.imp (by omega) id)]
      have hne : j ≠ s.widx.toNat := by omega
      exact v.rxWord_rxStoreWord_other _ hne

end Sys2Proof.Machine

/-! PROOFS. O60, the run from the grace wait to IDLE, and the whole transaction. -/

namespace Sys2Proof.Machine

variable {s t : State}

/-! ## The end of a transaction -/

theorem stepXRx_complete (s : State) (hw : s.widx = s.rxlen) :
    stepXRx s = { s with rxcnt := s.rxlen, phase := .xRelease } := by
  simp [stepXRx, hw]

theorem stepController_xRelease (s : State) (hp : s.phase = .xRelease) :
    stepController s = .next (stepXRelease s) := by
  simp only [stepController, hp]

theorem stepController_xRestore (s : State) (hp : s.phase = .xRestore) :
    stepController s = .next (stepXRestore s) := by
  simp only [stepController, hp]

/-- A read of RXBUF depends on RXBUF only. -/
theorem rxWord_congr (h : t.rxbuf = s.rxbuf) (j : Nat) : t.rxWord j = s.rxWord j := by
  rw [State.rxWord, State.rxWord, h]

/-- The step that finds the words received, X_RELEASE and X_RESTORE (R226, R227, R228). -/
theorem run_rxEnd {a b c : Turn} {rest : List Turn} (hp : s.phase = .xRx) (hw : s.widx = s.rxlen)
    (ha : s.agenda = a :: b :: c :: rest) (hc : allController [a, b, c]) :
    ∃ t : State, Host.Core.run core 3 s = .next t ∧ t.phase = .idle ∧ t.err = s.perr ∧
      t.rxcnt = t.rxlen ∧ t.grace = s.grace ∧ t.rxbuf = s.rxbuf := by
  let u : State := { s.consume a (b :: c :: rest) with rxcnt := s.rxlen, phase := .xRelease }
  let v := stepXRelease (u.consume b (c :: rest))
  have hs : stepController (s.consume a (b :: c :: rest)) = .next u :=
    (stepController_xRx (s.consume a (b :: c :: rest)) hp).trans
      (congrArg _ (stepXRx_complete (s.consume a (b :: c :: rest)) hw))
  have hu : stepController (u.consume b (c :: rest)) = .next v :=
    stepController_xRelease (u.consume b (c :: rest)) rfl
  have hv : stepController (v.consume c rest) = .next (stepXRestore (v.consume c rest)) :=
    stepController_xRestore (v.consume c rest) rfl
  have hub : u.agenda = b :: c :: rest := rfl
  have hvc : v.agenda = c :: rest := rfl
  refine ⟨stepXRestore (v.consume c rest), ?_, rfl, ?_⟩
  · rw [run_controller 2 ha (hc a (by simp)) hs, run_controller 1 hub (hc b (by simp)) hu,
      run_controller 0 hvc (hc c (by simp)) hv]
    rfl
  · simp [u, v, stepXRestore, stepXRelease, State.csDeassert, State.consume]

/-! ## From the grace wait to IDLE -/

theorem stepController_xGrace (s : State) (hp : s.phase = .xGrace) (hd : s.graceDone = true) :
    stepController s = .next (s.setPhase .xDirsw) := by
  simp [stepController, hp, stepXGrace, hd]

theorem stepController_xDirsw (s : State) (hp : s.phase = .xDirsw) :
    stepController s = .next (stepXDirsw s) := by
  simp only [stepController, hp]

/-- `s` at the start of the receive phase, after the turn `b` of X_DIRSW (R225). -/
def State.rxBegin (s : State) (b : Turn) (rest : List Turn) : State :=
  { s with
    agenda := rest
    inp := b.inp
    doe := false
    dir := true
    pstart := s.cyccnt
    plimit := BitVec.ofNat 32 (watchdogCycles s.timeout.toNat b.inp.clkf.toNat)
    widx := 0
    bit := 0
    edge := .lead
    shr := 0
    phase := .xRx }

/-- The deadline of the receive phase has not expired at its start. -/
theorem State.expired_rxBegin (s : State) {b : Turn} (rest : List Turn) (ht : 0 < s.timeout.toNat)
    (hf : 0 < b.inp.clkf.toNat) : (s.rxBegin b rest).expired = false :=
  (s.consume b rest).expired_armWatchdog ht hf

/-- A grace wait that is done ends in X_DIRSW, and X_DIRSW in the receive phase (R224, R225). -/
theorem run_rxBegin {a b : Turn} {rest : List Turn} (n : Nat) (hp : s.phase = .xGrace)
    (hd : s.graceDone = true) (ha : s.agenda = a :: b :: rest) (hca : a.agent = .controller)
    (hcb : b.agent = .controller) :
    Host.Core.run core (n + 2) s = Host.Core.run core n (s.rxBegin b rest) := by
  have hgrace : stepController (s.consume a (b :: rest)) =
      .next ((s.consume a (b :: rest)).setPhase .xDirsw) :=
    stepController_xGrace (s.consume a (b :: rest)) hp hd
  have hagenda : ((s.consume a (b :: rest)).setPhase .xDirsw).agenda = b :: rest := rfl
  have hdirsw : stepController (((s.consume a (b :: rest)).setPhase .xDirsw).consume b rest) =
      .next (s.rxBegin b rest) := by
    rw [stepController_xDirsw _ rfl]
    simp [stepXDirsw, State.consume, State.rxBegin]
  rw [run_controller (n + 1) ha hca hgrace, run_controller n hagenda hcb hdirsw]

/-- From a grace wait that is done, the words are received and the command ends with its result. -/
theorem run_receive {f : Word} {ts rest : List Turn} (h : s.Inv) (hp : s.phase = .xGrace)
    (hd : s.graceDone = true) (hf : 0 < f.toNat) (hto : 0 < s.timeout.toNat) (hc : allController ts)
    (hclk : clkfIs f ts) (hlen : ts.length = 1 + 1 + 32 * s.rxlen.toNat + 3)
    (ha : s.agenda = ts ++ rest) :
    ∃ t : State, Host.Core.run core ts.length s = .next t ∧ t.phase = .idle ∧ t.err = .ok ∧
      t.rxcnt = t.rxlen ∧ t.grace = s.grace ∧
      (∀ j, j < s.rxlen.toNat → t.rxWord j = receivedWord s.par (ts.drop (2 + 32 * j))) ∧
      ∀ j, s.rxlen.toNat ≤ j → t.rxWord j = s.rxWord j := by
  have hperr : s.perr = .ok := h.noPending (by rw [hp]; rfl)
  have hfit : s.rxlen.toNat ≤ s.rxbuf.length := by
    rw [h.bufLength]
    exact h.lengthFits (by rw [hp]; rfl)
  obtain _ | ⟨a, _ | ⟨b, ts⟩⟩ := ts
  · simp at hlen
  · simp at hlen
  obtain ⟨hca, hc⟩ := List.forall_mem_cons.mp hc
  obtain ⟨hcb, hc⟩ := List.forall_mem_cons.mp hc
  have hfb : b.inp.clkf = f := hclk b (by simp)
  rw [List.cons_append, List.cons_append] at ha
  have hlen' : ts.length = 32 * s.rxlen.toNat + 3 := by simp at hlen; omega
  have hlive : (s.rxBegin b (ts ++ rest)).expired = false :=
    s.expired_rxBegin (ts ++ rest) hto (hfb ▸ hf)
  obtain ⟨w, hr, hwp, hww, hwe, hwg, hwa, hword, hother⟩ :=
    run_rxWords (s := s.rxBegin b (ts ++ rest)) (ts := ts) s.rxlen.toNat rfl rfl rfl hlive
      (Nat.zero_add _) hfit rfl (by omega) hc
  obtain ⟨c, d, e, hcde⟩ : ∃ c d e, ts.drop (32 * s.rxlen.toNat) = [c, d, e] := by
    rw [← List.length_eq_three, List.length_drop]
    omega
  obtain ⟨t, hrt, htp, hte, htn, htg, htb⟩ := run_rxEnd (rest := rest) hwp hww (by rw [hwa, hcde]; rfl)
    (fun x hx => hc x (List.mem_of_mem_drop (hcde ▸ hx)))
  have hbuf (j : Nat) : t.rxWord j = w.rxWord j := rxWord_congr htb j
  refine ⟨t, ?_, htp, hte.trans (hwe.trans hperr), htn, htg.trans hwg, fun j hj => ?_, fun j hj => ?_⟩
  · rw [List.length_cons, List.length_cons, hlen', run_rxBegin _ hp hd ha hca hcb,
      run_add _ _ hr, hrt]
  · have hj' := hword j hj
    rw [show (s.rxBegin b (ts ++ rest)).widx.toNat + j = j from Nat.zero_add j] at hj'
    rw [hbuf, hj', Nat.add_comm 2]
    rfl
  · exact (hbuf j).trans (hother j (.inr hj))

/-! ## The whole transaction -/

/-- In IDLE the invariants say that the block is in the safe idle state. -/
theorem State.Inv.safeIdle (h : s.Inv) (hp : s.phase = .idle) : s.safeIdle := by
  have hrest := h.atRest (s.busy_false_iff.mpr (.inr hp))
  have hinit : s.init = true := by
    have hphase := hrest.phase
    rw [hp] at hphase
    by_contra hi
    simp [hi] at hphase
  exact ⟨hrest.csn, hrest.dir, hrest.doe.trans hinit, hrest.ovr, hp⟩

/-- The word received at `ts`, spelled with DIN's levels at turns of a longer list. -/
theorem receivedWord_drop (p : Params) (ts : List Turn) (n : Nat) :
    receivedWord p (ts.drop n) = ((List.range 16).map fun k =>
      dinAt ts (n + 2 * k + p.cpha.toNat)).foldl (shiftIn p.lsbFirst) 0 := by
  simp only [receivedWord, sampledBits, dinAt, List.getElem?_drop, Nat.add_assoc]

/-- As many ticks as the threshold asks for end the grace wait (R144). -/
theorem State.graceDone_of_ticks {n : Nat} (hg : s.grace.toNat = n)
    (hcyc : s.cyccnt = s.wstart + BitVec.ofNat 32 n) : s.graceDone = true := by
  have hlt : n < 2 ^ 32 := hg ▸ s.grace.isLt
  have helapsed : s.elapsed s.wstart = n := by
    rw [State.elapsed, hcyc, add_sub_cancel_left, BitVec.toNat_ofNat, Nat.mod_eq_of_lt hlt]
  rw [s.graceDone_iff, hg, helapsed]

/-- Settles O60: `run_transmit`, `run_ticks` and `run_receive` one after the other. The invariants at
the end give the safe idle state and SCK, and `run_held` the binding, LASTCMD and the turns left. -/
theorem transactionRunsToItsEnd : Obligations.TransactionRunsToItsEnd := by
  intro s f tx ticks rx rest h hp hf hto htxc htxf htxlen htick hticklen hrxc hrxf hrxlen ha
  obtain ⟨u, hu, hup, hug, huw, hub⟩ := run_transmit h hp hf hto htxc htxf htxlen ha
  have huinv := run_keeps_inv _ h hu
  have huheld := run_held ha (fun a ha => .inl (htxc a ha)) hu
  obtain ⟨-, -, hucnt⟩ := huinv.i4 (u.busy_true_iff.mpr (by simp [hup]))
  obtain ⟨inp, hv⟩ := run_ticks (congrArg Held.agenda huheld) htick hucnt
  let v : State := { u with
    agenda := rx ++ rest, inp := inp, cyccnt := u.cyccnt + BitVec.ofNat 32 ticks.length }
  have hvinv : v.Inv := huinv.congr ..
  have hvdone : v.graceDone = true := State.graceDone_of_ticks (n := ticks.length)
    (hug.trans hticklen.symm) (by rw [show v.wstart = u.cyccnt from huw])
  have hvlen : v.rxlen = s.rxlen := congrArg Held.rxlen huheld
  have hvpar : v.par = s.par := congrArg Held.par huheld
  have hvto : v.timeout = s.timeout := congrArg Held.timeout huheld
  have hvbuf (j : Nat) : v.rxWord j = s.rxWord j := rxWord_congr hub j
  obtain ⟨t, ht, htp, hte, htn, htg, hword, hother⟩ := run_receive hvinv hup hvdone hf (hvto ▸ hto)
    hrxc hrxf (hvlen ▸ hrxlen) rfl
  have htheld : t.held = ({ s with agenda := rest } : State).held :=
    (run_held (s := v) rfl (fun a ha => .inl (hrxc a ha)) ht).trans
      (congrArg (fun h : Held => { h with agenda := rest }) huheld)
  have htinv := run_keeps_inv _ hvinv ht
  have htpar : t.par = s.par := congrArg Held.par htheld
  have htlen : t.rxlen = s.rxlen := congrArg Held.rxlen htheld
  have htrest := htinv.atRest (t.busy_false_iff.mpr (.inr htp))
  rw [hvlen, hvpar] at hword
  rw [hvlen] at hother
  refine ⟨t, ?_, htinv.safeIdle htp, hte, htn.trans htlen, congrArg Held.agenda htheld, ?_, ?_,
    (congrArg BitVec.toNat htg).trans hug, congrArg Held.sel htheld, ?_, congrArg Held.lastcmd htheld,
    htpar ▸ htrest.sck⟩
  · rw [run_add _ _ hu, run_add _ _ hv]
    exact ht
  · exact fun j hj => (hword j hj).trans (receivedWord_drop _ _ _)
  · exact fun j hj => (hother j hj).trans (hvbuf j)
  · exact (congrArg Held.selv htheld).trans (h.i4 (s.busy_true_iff.mpr (by simp [hp]))).2.1

end Sys2Proof.Machine

/-! PROOFS. O38, O39, O40: the window on the bus, and what one host access does. -/

namespace Sys2Proof.Machine

variable {p : Params} {s : State} {tgt : Target} {off : Nat}

/-! ## The window -/

/-- R81: WSPAN is a power of two, and no smaller one holds the map. -/
theorem wspan_eq_two_pow (p : Params) :
    ∃ e, wspan p = 2 ^ e ∧ ∀ e', e' < e → 2 ^ e' < 0x100 + 4 * p.rxDepth := by
  have hfuel : 0x100 + 4 * p.rxDepth ≤ 1 * 2 ^ (0x100 + 4 * p.rxDepth) := by
    rw [one_mul]
    exact Nat.lt_two_pow_self.le
  obtain ⟨-, e, he, hmin⟩ := pow2From_spec _ 1 _ one_pos hfuel
  exact ⟨e, by rw [wspan, he, one_mul], fun e' h => by simpa using hmin e' h⟩

/-- A power of two that holds the map is at least WSPAN (R81). -/
theorem wspan_le_two_pow {e : Nat} (h : 0x100 + 4 * p.rxDepth ≤ 2 ^ e) : wspan p ≤ 2 ^ e := by
  obtain ⟨least, heq, hmin⟩ := wspan_eq_two_pow p
  rw [heq]
  refine Nat.pow_le_pow_right two_pos (Nat.le_of_not_lt fun hlt => ?_)
  exact absurd h (Nat.not_le.mpr (hmin e hlt))

theorem offsetOf_address_iff {a : Nat} :
    offsetOf p (.address a) = some off ↔ a = base p + off ∧ off < wspan p := by
  rw [offsetOf]
  split_ifs with h
  · rw [Option.some.injEq]; omega
  · simp only [false_iff]; omega

theorem offsetOf_address_eq_none {a : Nat} (h : a < base p ∨ base p + wspan p ≤ a) :
    offsetOf p (.address a) = none := by
  refine Option.eq_none_iff_forall_ne_some.mpr fun off ho => ?_
  have := offsetOf_address_iff.mp ho
  omega

/-! ## One host access -/

theorem stepHost_outside (h : offsetOf s.par tgt = none) (w : Width) (k : Direction) :
    stepHost ⟨tgt, w, k⟩ s = .next (outsideAccess k s) := by
  simp [stepHost, h]

/-- R81: an access outside the window writes at most what the host has read and the count of draws. -/
theorem outsideAccess_eq (k : Direction) (s : State) :
    ∃ rdata draws, outsideAccess k s = { s with rdata := rdata, draws := draws } := by
  cases k with
  | read => exact ⟨some (Config.platformData s.draws), s.draws + 1, rfl⟩
  | write v => exact ⟨s.rdata, s.draws, rfl⟩

theorem stepHost_odd (h : offsetOf s.par tgt = some off) {w : Width} (hodd : w ≠ .word ∨ off % 4 ≠ 0)
    (k : Direction) : ∃ r, stepHost ⟨tgt, w, k⟩ s = .refused r := by
  by_cases hw : w = .word
  · exact ⟨.accessAlignment, by simp [stepHost, h, hw, hodd.resolve_left (not_not_intro hw)]⟩
  · exact ⟨.accessWidth, by simp [stepHost, h, hw]⟩

theorem stepHost_read (h : offsetOf s.par tgt = some off) (halign : off % 4 = 0) :
    stepHost ⟨tgt, .word, .read⟩ s = .next (hostRead off s) := by
  simp [stepHost, h, halign]

theorem stepHost_write (h : offsetOf s.par tgt = some off) (halign : off % 4 = 0) (v : Word) :
    stepHost ⟨tgt, .word, .write v⟩ s = hostWrite off v s := by
  simp [stepHost, h, halign]

/-- A word written to CMD is always answered, legal or not (R286, R289). -/
theorem acceptWord_answers (v : Word) (s : State) : ∃ t, acceptWord v s = .next t := by
  rcases acceptWord_cases v s with ⟨i, -, he⟩ | ⟨-, -, he⟩
  · exact ⟨_, he.trans (exec_eq_accept i s)⟩
  · exact ⟨_, he⟩

/-- Every register answers a write: only the one to CMD is more than an update of the state. -/
theorem writeReg_answers (r : Reg) (v : Word) (s : State) : ∃ t, writeReg r v s = .next t := by
  cases r with
  | cmd => exact acceptWord_answers v s
  | status | txdata0 | txdata1 | timeout => exact ⟨_, rfl⟩
  | rxcnt | grace | cyccnt | clkfreq | param | rxbuf _ | reserved => exact ⟨s, rfl⟩

/-! ## The statements -/

/-- Settles O38: the least power of two that holds the map of 64 entries is 2 ^ 9, the map's own size. -/
theorem windowIsWspanBytesAtBase : Obligations.WindowIsWspanBytesAtBase := by
  intro p
  refine ⟨⟨wspan_ge p, ?pow, fun e => wspan_le_two_pow⟩, ?depth64, Nat.mul_mod_left _ _,
    fun off h => offsetOf_address_iff.mpr ⟨rfl, h⟩, fun a => offsetOf_address_eq_none, ?outside⟩
  case pow =>
    obtain ⟨e, he, -⟩ := wspan_eq_two_pow p
    exact ⟨e, he⟩
  case depth64 =>
    intro h
    have hge := wspan_ge p
    have hle : wspan p ≤ 2 ^ 9 := wspan_le_two_pow (by omega)
    omega
  case outside =>
    rintro s tgt w k rfl ho
    rw [stepHost_outside ho]
    obtain ⟨rdata, draws, he⟩ := outsideAccess_eq k s
    exact ⟨rdata, draws, congrArg _ he⟩

/-- Settles O39: the only refusals are of width and alignment, since every register answers. -/
theorem oddAccessIsRefused : Obligations.OddAccessIsRefused := by
  intro s tgt w k off ho
  refine ⟨fun hodd => stepHost_odd ho hodd k, ?_⟩
  rintro rfl halign
  cases k with
  | read => exact ⟨_, stepHost_read ho halign⟩
  | write v => exact stepHost_write ho halign v ▸ writeReg_answers (regAt s.par off) v s

/-- Settles O40: the host's turn is `hostRead`, which writes `rdata` alone. -/
theorem readHasNoSideEffect : Obligations.ReadHasNoSideEffect := by
  intro s off inp rest ha hlt halign
  rw [step_cons ha]
  exact stepHost_read (offsetOf_offset_of_lt hlt) halign

end Sys2Proof.Machine

/-! PROOFS. O7, O41, O43, O44: what each register of the window reads, and what a write to it does. -/

namespace Sys2Proof

/-- R11's ranges as inequalities. -/
theorem Params.wf_iff (p : Params) :
    p.wf = true ↔ 1 ≤ p.numSlaves ∧ p.numSlaves ≤ 4 ∧ 1 ≤ p.rxDepth ∧ p.rxDepth ≤ 65535 := by
  simp [Params.wf, and_assoc]

end Sys2Proof

namespace Sys2Proof.Machine

variable {s : State} {off : Nat}

/-! ## The map -/

/-- R95: the offsets between PARAM and RXBUF, and those after RXBUF, are reserved. -/
theorem regAt_reserved {p : Params}
    (h : (0x028 ≤ off ∧ off ≤ 0x0FC) ∨ 0x100 + 4 * p.rxDepth ≤ off) : regAt p off = .reserved := by
  unfold regAt
  iterate 10 refine (if_neg (by omega)).trans ?_
  rcases h with ⟨-, h⟩ | h
  · exact if_pos (by omega)
  · exact (if_neg (by omega)).trans (if_neg (by omega))

/-! ## Writes -/

/-- R288, R99: while BUSY a write to a guarded register sets CAV. -/
theorem writeReg_guarded_busy {r : Reg} (hr : r.isGuarded = true) (hb : s.busy = true) (v : Word) :
    writeReg r v s = .next (s.setCav true) := by
  cases r with
  | cmd =>
    rcases acceptWord_cases v s with ⟨i, -, he⟩ | ⟨-, -, he⟩ <;> rw [writeReg, he]
    · rw [exec_eq_accept, s.accept_busy hb]
    · rw [State.acceptIllegal, if_pos hb]
  | txdata0 | txdata1 | timeout => rw [writeReg, State.guarded, if_pos hb]
  | status | rxcnt | grace | cyccnt | clkfreq | param | rxbuf _ | reserved => cases hr

/-- A guarded register takes its write while BUSY = 0 (R99). -/
theorem State.guarded_idle (hb : s.busy = false) (f : State → State) : s.guarded f = f s := by
  simp [State.guarded, hb]

/-- R83, R95: a read-only register and a reserved offset ignore a write. -/
theorem writeReg_ignored {r : Reg} (hg : r.isGuarded ≠ true) (hs : r ≠ .status) (v : Word) :
    writeReg r v s = .next s := by
  cases r with
  | status => exact absurd rfl hs
  | cmd | txdata0 | txdata1 | timeout => exact absurd rfl hg
  | rxcnt | grace | cyccnt | clkfreq | param | rxbuf _ | reserved => rfl

/-- Settles O7: the four offsets are those of the guarded registers. -/
theorem busyGuardedWriteOnlySetsCav : Obligations.BusyGuardedWriteOnlySetsCav := by
  intro s off v hb hoff
  have hg : (regAt s.par off).isGuarded = true := by
    rcases hoff with rfl | rfl | rfl | rfl <;> rfl
  exact writeReg_guarded_busy hg hb v

/-- Settles O44: by the register at each offset. Any other offset is of neither STATUS nor a guarded
register (`off_of_regAt_status`, `off_of_regAt_guarded`). -/
theorem writesReachOnlyTheirRegister : Obligations.WritesReachOnlyTheirRegister := by
  intro s v
  refine ⟨fun h6 => congrArg _ (if_pos h6), fun h6 => congrArg _ (if_neg (ne_true_of_eq_false h6)), ?txdata0,
    ?txdata1, ?timeout, ?other⟩
  case txdata0 | txdata1 | timeout => exact fun hb => congrArg _ (State.guarded_idle hb _)
  case other =>
    intro off hcmd hstatus htx0 htx1 htimeout
    refine writeReg_ignored (fun hg => ?_) (fun hs => hstatus (off_of_regAt_status hs)) v
    have := off_of_regAt_guarded hg
    omega

/-! ## Reads -/

/-- Settles O41: by the register at each offset of the map. -/
theorem readsReturnTheRegisters : Obligations.ReadsReturnTheRegisters := by
  intro s
  refine ⟨rfl, rfl, rfl, rfl, rfl, rfl, rfl, rfl, rfl, rfl, fun j hj => ?rxbuf, fun off h _ => ?reserved⟩
  case rxbuf => rw [regAt_rxbuf _ _ hj, State.readReg]
  case reserved => rw [regAt_reserved h, State.readReg]

/-! ## PARAM -/

/-- A field of PARAM is the `n`-bit value that gives its bits. -/
theorem paramWord_field (p : Params) {n : Nat} (x : BitVec n) (i : Nat)
    (h : ∀ j, j < n → (paramWord p).getLsbD (i + j) = x.getLsbD j) :
    (paramWord p).extractLsb' i n = x := by
  apply BitVec.eq_of_getLsbD_eq
  intro j hj
  rw [BitVec.getLsbD_extractLsb', h j hj]
  simp [hj]

theorem paramWord_numSlaves (p : Params) :
    (paramWord p).extractLsb' 0 3 = BitVec.ofNat 3 p.numSlaves := by
  apply paramWord_field
  intro j hj
  rw [paramWord_getLsbD p _ (by omega), Nat.zero_add, if_pos hj]

theorem paramWord_reserved (p : Params) : (paramWord p).extractLsb' 7 9 = 0 := by
  apply paramWord_field
  intro j hj
  rw [paramWord_getLsbD p _ (by omega)]
  interval_cases j <;> rfl

theorem paramWord_rxDepth (p : Params) :
    (paramWord p).extractLsb' 16 16 = BitVec.ofNat 16 p.rxDepth := by
  apply paramWord_field
  intro j hj
  rw [paramWord_getLsbD p _ (by omega)]
  interval_cases j <;> rfl

/-- Settles O43: the ranges of R11 fit the two number fields; the default value is a computation. -/
theorem paramFields : Obligations.ParamFields := by
  refine ⟨fun p hp => ?_, rfl⟩
  obtain ⟨-, hslaves, -, hdepth⟩ := p.wf_iff.mp hp
  have bit := paramWord_getLsbD p
  refine ⟨?slaves, bit 3 (by omega), bit 4 (by omega), bit 5 (by omega), bit 6 (by omega),
    paramWord_reserved p, ?depth⟩
  case slaves => rw [paramWord_numSlaves, BitVec.toNat_ofNat, Nat.mod_eq_of_lt (by omega)]
  case depth => rw [paramWord_rxDepth, BitVec.toNat_ofNat, Nat.mod_eq_of_lt (by omega)]

end Sys2Proof.Machine

/-! PROOFS. O2, O3: encoding and decoding are inverse, field by field of R111. -/

namespace Sys2Proof

/-! ## The word of a command -/

/-- R112, R113: every command's word carries its opcode and no must-be-zero bit. -/
theorem Instr.encodedOpcode (i : Instr) : Laws.EncodedOpcode.Statement i := by
  cases i with
  | nop => exact Laws.EncodedOpcode.nop
  | init => exact Laws.EncodedOpcode.init
  | select s => exact Laws.EncodedOpcode.select s
  | xfer d n => exact Laws.EncodedOpcode.xfer d n
  | sendrecv s d n => exact Laws.EncodedOpcode.sendrecv s d n
  | trig => exact Laws.EncodedOpcode.trig
  | deinit => exact Laws.EncodedOpcode.deinit

theorem slaveField_commandWord (op : Op) {s : Nat} (hs : s ≤ 15) (d : Bool) (n : Nat) :
    slaveField (commandWord op s d n) = s := by
  rw [commandWord_eq, slaveField_fieldsWord, BitVec.toNat_ofNat, Nat.mod_eq_of_lt (by omega)]

theorem dataField_commandWord (op : Op) (s : Nat) (d : Bool) (n : Nat) :
    dataField (commandWord op s d n) = d := by
  rw [commandWord_eq, dataField_fieldsWord]

theorem rxlenField_commandWord (op : Op) (s : Nat) (d : Bool) {n : Nat} (hn : n ≤ 65535) :
    rxlenField (commandWord op s d n) = n := by
  rw [commandWord_eq, rxlenField_fieldsWord, BitVec.toNat_ofNat, Nat.mod_eq_of_lt (by omega)]

/-- R122: the fields of a well-formed command's word are its operands. -/
theorem Instr.withFields_encode (i : Instr) (h : i.wellFormed = true) :
    i.op.withFields (encode i) = i := by
  cases i with
  | nop | init | trig | deinit => rfl
  | select s =>
    have hs : s ≤ 15 := of_decide_eq_true h
    exact congrArg Instr.select (slaveField_commandWord _ hs _ _)
  | xfer d n =>
    have hn : n ≤ 65535 := of_decide_eq_true h
    exact congrArg₂ Instr.xfer (dataField_commandWord _ _ _ _) (rxlenField_commandWord _ _ _ hn)
  | sendrecv s d n =>
    obtain ⟨hs, hn⟩ : s ≤ 15 ∧ n ≤ 65535 := by simpa [Instr.wellFormed] using h
    rw [Instr.op, Op.withFields, encode, slaveField_commandWord _ hs, dataField_commandWord,
      rxlenField_commandWord _ _ _ hn]

theorem decode_encode (i : Instr) (h : i.wellFormed = true) : decode (encode i) = .legal i := by
  obtain ⟨hop, hmbz⟩ := i.encodedOpcode
  exact (decode_legal_iff _ _).mpr ⟨hop, hmbz, (i.withFields_encode h).symm⟩

/-- Settles O2: the word has the opcode and no must-be-zero bit, and its fields are the operands. -/
theorem decodeOfEncodeIsTheCommand : Obligations.DecodeOfEncodeIsTheCommand := decode_encode

/-! ## The command of a word -/

variable {c : Word}

/-- R114, R116: a field of a word holds no operand out of its range. -/
theorem Op.wellFormed_withFields (op : Op) (c : Word) : (op.withFields c).wellFormed = true := by
  have hs : slaveField c ≤ 15 := Nat.le_of_lt_succ (c.extractLsb' 4 4).isLt
  have hn : rxlenField c ≤ 65535 := Nat.le_of_lt_succ (c.extractLsb' 16 16).isLt
  cases op with
  | nop | init | trig | deinit => rfl
  | select => exact decide_eq_true hs
  | xfer => exact decide_eq_true hn
  | sendrecv => simp [Op.withFields, Instr.wellFormed, hs, hn]

/-- A field that a must-be-zero mask covers is 0 (R113). -/
theorem extractLsb'_eq_zero {m : Word} (hz : c &&& m = 0) (lo len : Nat) (hlen : lo + len ≤ 32)
    (hm : ∀ j, j < len → m.getLsbD (lo + j) = true) : c.extractLsb' lo len = 0 := by
  apply BitVec.eq_of_getLsbD_eq
  intro j hj
  have : c.getLsbD (lo + j) = false := (and_eq_zero_iff c m).mp hz _ (by omega) (hm j hj)
  simp [this]

/-- R111, R113: a word with no must-be-zero bit of its opcode is the layout of its fields, as every
mask covers the bits 15:9 of no field. -/
theorem fieldsWord_of_mbz {op : Op} (hop : opField c = op.code) (hz : c &&& op.mbz = 0) :
    fieldsWord (c.extractLsb' 16 16) (dataField c) (c.extractLsb' 4 4) op.code = c := by
  have hmask : ∀ i, i < 16 → 9 ≤ i → op.mbz.getLsbD i = true := by cases op <;> decide
  rw [← hop]
  refine (eq_fieldsWord c fun i h9 h16 => ?_).symm
  exact (and_eq_zero_iff c op.mbz).mp hz i (by omega) (hmask i h16 h9)

theorem ofNat_slaveField (c : Word) : BitVec.ofNat 4 (slaveField c) = c.extractLsb' 4 4 := by
  rw [slaveField, BitVec.ofNat_toNat, BitVec.setWidth_eq]

theorem ofNat_rxlenField (c : Word) : BitVec.ofNat 16 (rxlenField c) = c.extractLsb' 16 16 := by
  rw [rxlenField, BitVec.ofNat_toNat, BitVec.setWidth_eq]

/-- R120: a word with no must-be-zero bit is the encoding of its command. The fields that the command
does not use are those its opcode's mask covers. -/
theorem Op.encode_withFields {op : Op} (hop : opField c = op.code) (hz : c &&& op.mbz = 0) :
    encode (op.withFields c) = c := by
  have hword := fieldsWord_of_mbz hop hz
  have slave (hm : ∀ j, j < 4 → op.mbz.getLsbD (4 + j) = true) : c.extractLsb' 4 4 = 0 :=
    extractLsb'_eq_zero hz 4 4 (by omega) hm
  have data (hm : op.mbz.getLsbD 8 = true) : dataField c = false :=
    (and_eq_zero_iff c op.mbz).mp hz 8 (by omega) hm
  have rxlen (hm : ∀ j, j < 16 → op.mbz.getLsbD (16 + j) = true) : c.extractLsb' 16 16 = 0 :=
    extractLsb'_eq_zero hz 16 16 (by omega) hm
  cases op with
  | nop | init | trig | deinit =>
    rw [slave (by decide), data (by decide), rxlen (by decide)] at hword
    exact hword
  | select =>
    rw [data (by decide), rxlen (by decide)] at hword
    rw [withFields, encode, commandWord_eq, ofNat_slaveField]
    exact hword
  | xfer =>
    rw [slave (by decide)] at hword
    rw [withFields, encode, commandWord_eq, ofNat_rxlenField]
    exact hword
  | sendrecv =>
    rw [withFields, encode, commandWord_eq, ofNat_slaveField, ofNat_rxlenField]
    exact hword

theorem wellFormed_encode_of_decode {i : Instr} (h : decode c = .legal i) :
    i.wellFormed = true ∧ encode i = c := by
  obtain ⟨hop, hz, hi⟩ := (decode_legal_iff c i).mp h
  rw [hi]
  exact ⟨Op.wellFormed_withFields _ c, Op.encode_withFields hop hz⟩

/-- Settles O3: decoding and encoding are inverse between the legal words and the well-formed commands. -/
theorem legalWordIsItsCommandsEncoding : Obligations.LegalWordIsItsCommandsEncoding := by
  refine ⟨fun c i => wellFormed_encode_of_decode, fun c i => ?_,
    fun i => (Machine.assemble_eq_none_iff i).mpr⟩
  rw [Machine.assemble_eq_some_iff]
  constructor
  · rintro ⟨hwf, rfl⟩
    exact decode_encode i hwf
  · exact wellFormed_encode_of_decode

end Sys2Proof

/-! PROOFS. O4, O5, O1: which words are legal, and what the host's write of an illegal one does. -/

namespace Sys2Proof

variable {c : Word}

/-! ## Legal and illegal words -/

/-- R117: the opcode and its must-be-zero bits say whether a word is a command of that opcode. -/
theorem decode_legal_op_iff (c : Word) (op : Op) :
    (∃ i, decode c = .legal i ∧ i.op = op) ↔ opField c = op.code ∧ c &&& op.mbz = 0 := by
  constructor
  · rintro ⟨i, hd, rfl⟩
    obtain ⟨hop, hz, -⟩ := (decode_legal_iff c i).mp hd
    exact ⟨hop, hz⟩
  · rintro ⟨hop, hz⟩
    refine ⟨op.withFields c, (decode_legal_iff c _).mpr ?_, op.op_withFields c⟩
    rw [op.op_withFields]
    exact ⟨hop, hz, rfl⟩

/-- R112: the numbers 7 to 15 are those of no opcode. -/
theorem ofCode_eq_none_iff (b : BitVec 4) : Op.ofCode b = none ↔ 7 ≤ b.toNat := by
  revert b
  decide

theorem ofCode_eq_some_iff (b : BitVec 4) (op : Op) : Op.ofCode b = some op ↔ op.code = b :=
  ⟨code_of_ofCode, fun h => h ▸ ofCode_code op⟩

/-- R118, R119: the two ways in which a word is illegal. -/
theorem decode_illegal_iff (c : Word) :
    (∃ why, decode c = .illegal why) ↔
      7 ≤ (opField c).toNat ∨ ∃ op : Op, op.code = opField c ∧ c &&& op.mbz ≠ 0 := by
  simp only [← ofCode_eq_none_iff, ← ofCode_eq_some_iff]
  unfold decode
  cases Op.ofCode (opField c) with
  | none => simp
  | some op => by_cases hz : c &&& op.mbz = 0#32 <;> simp [hz]

end Sys2Proof

namespace Sys2Proof.Machine

/-! ## The table of R113 -/

/-- R113: `mask` adds the bits of OP to the must-be-zero bits. -/
theorem tableMask_eq (op : Op) : tableMask op = op.mbz ||| 0xF := by cases op <;> rfl

theorem tableMatch_eq (op : Op) : tableMatch op = op.code.setWidth 32 := by cases op <;> rfl

/-- The masked word has OP in bits 3:0, and above them the must-be-zero bits that are set. -/
theorem and_tableMask_getLsbD (c : Word) (op : Op) (i : Nat) (hi : i < 32) :
    (c &&& tableMask op).getLsbD i =
      if i < 4 then (opField c).getLsbD i else (c &&& op.mbz).getLsbD i := by
  have hF : (0xF : Word).getLsbD i = decide (i < 4) := by
    revert i
    decide
  simp only [tableMask_eq, BitVec.getLsbD_and, BitVec.getLsbD_or, hF]
  split_ifs with h <;> simp [h, opField]

theorem mbz_getLsbD_low (op : Op) {i : Nat} (hi : i < 4) : op.mbz.getLsbD i = false := by
  have : ∀ j, j < 4 → op.mbz.getLsbD j = false := by cases op <;> decide
  exact this i hi

theorem and_tableMask_eq_iff (c : Word) (op : Op) :
    c &&& tableMask op = tableMatch op ↔ opField c = op.code ∧ c &&& op.mbz = 0 := by
  constructor
  · intro h
    have bit (i : Nat) (hi : i < 32) :
        (if i < 4 then (opField c).getLsbD i else (c &&& op.mbz).getLsbD i) = op.code.getLsbD i := by
      rw [← and_tableMask_getLsbD c op i hi, h, tableMatch_eq]
      simp [hi]
    refine ⟨BitVec.eq_of_getLsbD_eq fun i hi => ?op, BitVec.eq_of_getLsbD_eq fun i hi => ?mbz⟩
    case op => rw [← bit i (by omega), if_pos hi]
    case mbz =>
      by_cases h4 : i < 4
      · simp [mbz_getLsbD_low op h4]
      · have hmbz := bit i hi
        rw [if_neg h4, BitVec.getLsbD_of_ge op.code i (by omega)] at hmbz
        exact hmbz.trans BitVec.getLsbD_zero.symm
  · rintro ⟨hop, hz⟩
    apply BitVec.eq_of_getLsbD_eq
    intro i hi
    rw [and_tableMask_getLsbD c op i hi, hop, hz, tableMatch_eq, BitVec.getLsbD_setWidth]
    split_ifs with h4
    · simp [hi]
    · simp [BitVec.getLsbD_of_ge op.code i (by omega)]

/-- Settles O4: both columns say what the opcode and the must-be-zero bits say. -/
theorem wordSpellsMnemonicByMask : Obligations.WordSpellsMnemonicByMask := fun c op =>
  ⟨(decode_legal_op_iff c op).trans (and_tableMask_eq_iff c op).symm, decode_legal_op_iff c op⟩

/-! ## The statements on words -/

/-- R286: accepted with BUSY = 0, an illegal word writes LASTCMD and ERR = 5 whatever INIT is. -/
theorem acceptWord_illegal {c : Word} {s : State} (hill : ∃ why, decode c = .illegal why)
    (hb : s.busy = false) : acceptWord c s = .next ((s.setLastcmd c).setErr .illegalCommand) := by
  obtain ⟨why, hd⟩ := hill
  rw [acceptWord, hd, State.acceptIllegal, hb]
  rfl

/-- Settles O5: the two example words each set a must-be-zero bit. -/
theorem illegalWordOnlyReports : Obligations.IllegalWordOnlyReports :=
  ⟨decode_illegal_iff, fun _ _ => acceptWord_illegal, ⟨.mustBeZero, rfl⟩,
    ⟨.mustBeZero, rfl⟩⟩

/-- R195: SELECT of a slave that is not wired clears the binding. -/
theorem State.selectBody_invalid {s : State} {k : Nat} (h : s.par.numSlaves ≤ k) :
    State.selectBody k s = s.unbindSel.setErr .invalidSlaveSelection := by
  rw [State.selectBody, if_neg (mt (s.slaveValid_iff k).mp (Nat.not_lt.mpr h))]

/-- Settles O1: each word is its command's encoding, and slave 4 of 4 is not wired. -/
theorem specWordsDecodeAsSpelled : Obligations.SpecWordsDecodeAsSpelled := by
  refine ⟨decode_encode (.select 2) rfl, decode_encode (.xfer false 2) rfl,
    decode_encode (.xfer true 1) rfl, decode_encode (.sendrecv 3 false 2) rfl,
    decode_encode (.sendrecv 0 true 0) rfl, decode_encode (.select 4) rfl, ?select4,
    decode_encode .nop rfl, decode_encode .init rfl, decode_encode .trig rfl,
    decode_encode .deinit rfl⟩
  case select4 =>
    rintro s ⟨hbusy, hinit⟩ hslaves
    have hinvalid : (s.setLastcmd (encode (.select 4))).par.numSlaves ≤ 4 := hslaves.le
    rw [exec_eq_accept, s.accept_run hbusy fun _ => hinit, bodyOf, State.selectBody_invalid hinvalid]
    rfl

end Sys2Proof.Machine

/-! PROOFS. O27, O28, O29, O30, O31: the counter, the grace threshold and the watchdog limit. -/

namespace Sys2Proof.Machine

/-! ## The counter -/

/-- Settles O27: the two branches of the tick. -/
theorem tickCountsWhileEnabled : Obligations.TickCountsWhileEnabled :=
  fun _ => ⟨fun hen => congrArg _ (if_pos hen), fun hen => congrArg _ (if_neg (ne_true_of_eq_false hen))⟩

/-- R143: Elapsed on integers. -/
theorem State.elapsed_eq (s : State) (b : Word) :
    (s.elapsed b : Int) = ((s.cyccnt.toNat : Int) - b.toNat) % 2 ^ 32 := by
  have hb := b.isLt
  rw [State.elapsed, BitVec.toNat_sub]
  omega

/-- Elapsed is the count added since, below one whole round of the counter (R143). -/
theorem State.elapsed_of_cyccnt {s : State} {b : Word} {n : Nat}
    (hcyc : s.cyccnt = b + BitVec.ofNat 32 n) (hn : n < 2 ^ 32) : s.elapsed b = n := by
  rw [State.elapsed, hcyc, add_sub_cancel_left, BitVec.toNat_ofNat, Nat.mod_eq_of_lt hn]

/-- Settles O28: `run_ticks` says what the ticks leave in CYCCNT. -/
theorem elapsedCountsTicks : Obligations.ElapsedCountsTicks := by
  refine ⟨State.elapsed_eq, fun s ticks rest hen ha hticks hlen => ?_⟩
  obtain ⟨inp, hr⟩ := run_ticks ha hticks hen
  exact ⟨_, hr, rfl, State.elapsed_of_cyccnt rfl hlen⟩

/-! ## The grace threshold -/

/-- Settles O29: `ceilDiv_eq_formula`, and GRACE holds every threshold of a 32-bit frequency. -/
theorem graceThresholdIsExact : Obligations.GraceThresholdIsExact := by
  refine ⟨fun f => ceilDiv_eq_formula _ _ (by omega), fun f => ?_, rfl,
    fun s => ⟨rfl, s.graceBegin_grace_toNat⟩⟩
  have := f.isLt
  rw [graceCycles_eq]
  omega

/-- Settles O30: linear arithmetic on the threshold's formula (`graceCycles_eq`). -/
theorem graceThresholdLaws : Obligations.GraceThresholdLaws := by
  unfold Obligations.GraceThresholdLaws
  simp only [graceCycles_eq]
  refine ⟨fun f => ?_, fun f => ?_, fun f _ => ⟨?_, fun h => ?_⟩, trivial⟩ <;> omega

/-! ## The watchdog limit -/

theorem watchdogCycles_eq_zero {ms f : Nat} (h : ms = 0 ∨ f = 0) : watchdogCycles ms f = 0 := by
  rw [watchdogCycles, Nat.mul_eq_zero.mpr h]
  rfl

/-- R146: a limit of 0 has expired whatever the counter holds. -/
theorem State.expired_of_plimit {s : State} (h : s.plimit = 0) : s.expired = true := by
  rw [s.expired_iff, h]
  exact Nat.zero_le _

/-- Settles O31: `ceilDiv_eq_formula`, PLIMIT holds every limit, and a product of 0 gives the limit 0. -/
theorem watchdogLimitIsExact : Obligations.WatchdogLimitIsExact := by
  refine ⟨fun ms f => ?_, fun s => ⟨rfl, s.armWatchdog_plimit_toNat⟩, fun s h => ?_⟩
  · rw [watchdogCycles, ceilDiv_eq_formula _ _ (by omega)]
  · have hzero : s.armWatchdog.plimit = 0 := by
      apply BitVec.eq_of_toNat_eq
      rw [s.armWatchdog_plimit_toNat]
      exact watchdogCycles_eq_zero (h.imp (congrArg BitVec.toNat) (congrArg BitVec.toNat))
    exact ⟨hzero, State.expired_of_plimit hzero⟩

end Sys2Proof.Machine

/-! PROOFS. O32, O33, O34, O35: the edges of the shift engine, and a word shifted in bit by bit. -/

namespace Sys2Proof.Machine

/-- Settles O32: the model's laws of LoadTx and of the four kinds of edge. -/
theorem txEdgeRule : Obligations.TxEdgeRule := fun s =>
  ⟨s.loadTx_eq, s.txEdge_lead, s.txEdge_trail_mid, s.txEdge_trail_next,
    fun he hb hw => s.txEdge_trail_last he hb (Nat.not_lt.mpr hw)⟩

/-- Settles O33: the model's laws of the three kinds of edge. -/
theorem rxEdgeRule : Obligations.RxEdgeRule := fun s =>
  ⟨s.rxEdge_lead, s.rxEdge_trail_mid, s.rxEdge_trail_last⟩

/-- Where the `i`-th of `n` bits shifted in stands (R156): with LSB_FIRST = 1 the bits enter at bit 15 and
move down, with LSB_FIRST = 0 they enter at bit 0 and move up. -/
def shiftedPlace (lsb : Bool) (n i : Nat) : Nat := if lsb then 16 - n + i else n - 1 - i

/-- The bit shifted in last stands where bits enter. -/
theorem shiftIn_getLsbD_last (lsb : Bool) (r : Half) (b : Bool) {n : Nat} (hn : n < 16) :
    (shiftIn lsb r b).getLsbD (shiftedPlace lsb (n + 1) n) = b := by
  cases lsb with
  | true => rw [shiftIn_getLsbD _ _ _ _ (by simp [shiftedPlace]; omega)]; simp [shiftedPlace]; omega
  | false => rw [shiftIn_getLsbD _ _ _ _ (by simp [shiftedPlace])]; simp [shiftedPlace]

/-- A bit shifted in before moves on by one place. -/
theorem shiftIn_getLsbD_earlier (lsb : Bool) (r : Half) (b : Bool) {n i : Nat} (hn : n < 16) (hi : i < n) :
    (shiftIn lsb r b).getLsbD (shiftedPlace lsb (n + 1) i) = r.getLsbD (shiftedPlace lsb n i) := by
  cases lsb with
  | true =>
    have hplace : 16 - (n + 1) + i + 1 = 16 - n + i := by omega
    rw [shiftIn_getLsbD _ _ _ _ (by simp [shiftedPlace]; omega)]
    simp only [shiftedPlace, if_true, hplace]
    exact if_neg (by omega)
  | false =>
    have hplace : n + 1 - 1 - i - 1 = n - 1 - i := by omega
    rw [shiftIn_getLsbD _ _ _ _ (by simp [shiftedPlace]; omega)]
    simp only [shiftedPlace, Bool.false_eq_true, if_false, hplace]
    exact if_neg (by omega)

/-- Bits shifted in stand in order, by induction from the last one back. -/
theorem foldl_shiftIn_getLsbD (lsb : Bool) (r : Half) (bits : List Bool) (hlen : bits.length ≤ 16) {i : Nat}
    (hi : i < bits.length) :
    (bits.foldl (shiftIn lsb) r).getLsbD (shiftedPlace lsb bits.length i) = bits.getD i false := by
  induction bits using List.reverseRecOn with
  | nil => simp at hi
  | append_singleton bits b ih =>
    rw [List.length_append, List.length_singleton] at hlen hi ⊢
    rw [List.foldl_concat]
    obtain hi | rfl := Nat.lt_succ_iff_lt_or_eq.mp hi
    · rw [shiftIn_getLsbD_earlier _ _ _ hlen hi, ih (by omega) hi, List.getD_append _ _ _ _ hi]
    · rw [shiftIn_getLsbD_last _ _ _ hlen, List.getD_append_right _ _ _ _ le_rfl, Nat.sub_self]
      rfl

/-- Settles O34: of 16 bits, the `i`-th has its place of R156 in SHR. -/
theorem receivedBitsStandInOrder : Obligations.ReceivedBitsStandInOrder := by
  refine ⟨fun r b => ⟨rfl, rfl⟩, fun lsb r bits i hlen hi => ?_⟩
  have hplace : (if lsb then i else 15 - i) = shiftedPlace lsb bits.length i := by
    simp [shiftedPlace, hlen]
  rw [hplace]
  exact foldl_shiftIn_getLsbD lsb r bits hlen.le (hlen ▸ hi)

/-- R155: bit `i` on the wire is the bit of the word at the place where R156 puts the `i`-th bit. -/
theorem outBit_eq_getLsbD (lsb : Bool) (w : Half) (i : Nat) :
    outBit lsb w i = w.getLsbD (if lsb then i else 15 - i) := by
  cases lsb <;> rfl

/-- Settles O35: bit `i` of a word is the bit sent at its own place in the wire order, and received there
(O34). -/
theorem receivingWhatIsSentGivesTheWord : Obligations.ReceivingWhatIsSentGivesTheWord := by
  intro lsb w r
  apply BitVec.eq_of_getLsbD_eq
  intro i hi
  obtain ⟨j, hj, rfl⟩ : ∃ j, j < 16 ∧ (if lsb then j else 15 - j) = i :=
    ⟨if lsb then i else 15 - i, by cases lsb <;> simp <;> omega, by cases lsb <;> simp; omega⟩
  rw [receivedBitsStandInOrder.2 lsb r _ j (by simp) hj, ← outBit_eq_getLsbD]
  simp [hj]

end Sys2Proof.Machine

/-! PROOFS. O19, O21, O24, O25, O26: the controller's steps outside the shifting phases. -/

namespace Sys2Proof.Machine

variable {s : State}

/-! ## Chip-selects -/

/-- With every line high none other than that of SEL is asserted. -/
theorem State.otherSelected_of_high (h : s.csn = 0b1111) : s.otherSelected = false := by
  refine s.otherSelected_false_iff.mpr fun k hk _ => ?_
  rw [State.csLevel, h, getLsbD_csn_high k hk, ite_self]

/-- A wired line other than that of SEL is asserted (93_implementation_defined.md U1). -/
theorem State.otherSelected_of_low {k : Nat} (hwired : k < s.par.numSlaves) (hk : k < 4)
    (hne : k ≠ s.sel.toNat) (hlow : s.csn.getLsbD k = false) : s.otherSelected = true := by
  by_contra hnone
  have hhigh := s.otherSelected_false_iff.mp (by simpa using hnone) k hk hne
  rw [State.csLevel, if_pos hwired, hlow] at hhigh
  cases hhigh

theorem State.csAssert_refused (h : s.otherSelected = true) :
    s.csAssert = .refused .secondChipSelect := if_pos h

/-- CsAssert on an idle bus (R150). -/
theorem State.setCsn_low_eq (h : s.csn = 0b1111) (hn : s.sel.toNat < s.par.numSlaves) :
    s.setCsn s.sel.toNat false = { s with csn := ~~~(BitVec.twoPow 4 s.sel.toNat) } := by
  rw [← State.csn_setCsn_low h hn]
  rfl

/-- CsDeassert of a wired line (R151). -/
theorem State.csDeassert_eq (hn : s.sel.toNat < s.par.numSlaves) :
    s.csDeassert = { s with csn := s.csn ||| BitVec.twoPow 4 s.sel.toNat } := by
  simp [State.csDeassert, State.setCsn, writeBit, hn]

/-! ## The phases -/

theorem stepController_tAssert (s : State) (hp : s.phase = .tAssert) :
    stepController s = stepTAssert s := by
  simp only [stepController, hp]

/-- Settles O19: CsAssert on an idle bus, and LoadTx of word 0 (`State.loadTx_eq`). -/
theorem xStartAssertsAndLoads : Obligations.XStartAssertsAndLoads := by
  intro s hp hcsn hn
  rw [stepController_xStart s hp, stepXStart_of_none (State.otherSelected_of_high hcsn),
    State.loadTx_eq, State.setCsn_low_eq hcsn hn]
  rfl

/-- Settles O26: both phases call CsAssert first. -/
theorem secondChipSelectIsRefused : Obligations.SecondChipSelectIsRefused := by
  intro s k hp hwired hk hne hlow
  have hrefused := State.csAssert_refused (State.otherSelected_of_low hwired hk hne hlow)
  rcases hp with hp | hp
  · rw [stepController_xStart s hp, stepXStart, hrefused, andThen]
  · rw [stepController_tAssert s hp, stepTAssert, hrefused, andThen]

theorem stepController_xGrace_poll (hp : s.phase = .xGrace) (hd : s.graceDone = false) :
    stepController s = .next s := by
  simp [stepController, hp, stepXGrace, hd]

theorem stepController_tHold_poll (hp : s.phase = .tHold) (hd : s.graceDone = false) :
    stepController s = .next s := by
  simp [stepController, hp, stepTHold, hd]

theorem stepController_tHold (hp : s.phase = .tHold) (hd : s.graceDone = true) :
    stepController s = .next (s.setPhase .tRelease) := by
  simp [stepController, hp, stepTHold, hd]

/-- Settles O21: both waits test GraceDone (`State.graceDone_iff`). -/
theorem graceWaitEndsExactlyWhenDone : Obligations.GraceWaitEndsExactlyWhenDone := by
  intro s
  refine ⟨fun hp hd => stepController_xGrace s hp (s.graceDone_iff.mpr hd),
    fun hp hd => stepController_tHold hp (s.graceDone_iff.mpr hd), fun hp hwait => ?_⟩
  have hd : s.graceDone = false := decide_eq_false (Nat.not_le.mpr hwait)
  exact hp.elim (stepController_xGrace_poll · hd) (stepController_tHold_poll · hd)

/-- Settles O24: CsDeassert of a wired line, and DirToTx. -/
theorem releaseThenRestore : Obligations.ReleaseThenRestore := by
  intro s
  refine ⟨fun hp hn => ?_, fun hp => stepController_xRestore s hp⟩
  rw [stepController_xRelease s hp, stepXRelease, State.csDeassert_eq hn]
  rfl

/-- Settles O25: CsAssert on an idle bus and CsDeassert of a wired line; the other two are updates. -/
theorem triggerPhaseSteps : Obligations.TriggerPhaseSteps := by
  intro s
  refine ⟨fun hp => ?start, fun hp hcsn hn => ?assert, fun hp hn => ?release, fun hp => ?finish⟩
  case start => simp only [stepController, hp, stepTStart]
  case assert =>
    rw [stepController_tAssert s hp, stepTAssert_of_none (State.otherSelected_of_high hcsn),
      State.setCsn_low_eq hcsn hn]
    rfl
  case release =>
    simp only [stepController, hp, stepTRelease, State.csDeassert_eq hn]
    rfl
  case finish => simp only [stepController, hp, stepTEnd]

end Sys2Proof.Machine

/-! PROOFS. O36, O37: a word sent and a word received in 32 controller steps. -/

namespace Sys2Proof.Machine

variable {s : State}

/-! ## Sending a bit -/

/-- The next controller step is an edge of the transmit phase (R223). -/
structure State.TxEdgeDue (s : State) : Prop where
  phase : s.phase = .xTx
  word : s.widx.toNat < s.ntxw
  live : s.expired = false

/-- With CPHA = 0 the bit of the next leading edge is on DOUT already (R158, R159). -/
def State.BitReady (s : State) : Prop :=
  s.par.cpha = false → s.dout = outBit s.par.lsbFirst s.shr s.bit.toNat

/-- `s` after the leading edge of its bit, which is on DOUT (R159). -/
def State.txBitOut (s : State) : State :=
  { s with sck := !s.par.cpol, edge := .trail, dout := outBit s.par.lsbFirst s.shr s.bit.toNat }

theorem State.txEdge_bitOut (he : s.edge = .lead) (hready : s.BitReady) : s.txEdge = s.txBitOut := by
  rw [s.txEdge_lead he]
  cases hcpha : s.par.cpha
  · simp [State.txBitOut, hready hcpha]
  · simp [State.txBitOut]

/-- The leading edge of a bit in front of a run. -/
theorem run_txBitOut {a : Turn} {rest : List Turn} (n : Nat) (h : s.TxEdgeDue) (he : s.edge = .lead)
    (hready : s.BitReady) (ha : s.agenda = a :: rest) (hc : a.agent = .controller) :
    Host.Core.run core (n + 1) s = Host.Core.run core n (s.consume a rest).txBitOut :=
  (run_txEdge n h.phase h.live h.word.ne ha hc).trans
    (congrArg _ (State.txEdge_bitOut (s := s.consume a rest) he hready))

/-- The two edges of a bit in front of a run. -/
theorem run_txBit {a b : Turn} {rest : List Turn} (n : Nat) (h : s.TxEdgeDue) (he : s.edge = .lead)
    (hready : s.BitReady) (ha : s.agenda = a :: b :: rest) (hca : a.agent = .controller)
    (hcb : b.agent = .controller) :
    Host.Core.run core (n + 2) s = Host.Core.run core n (s.consume b rest).txBitOut.txEdge :=
  (run_txBitOut (n + 1) h he hready ha hca).trans
    (run_txEdge (s := (s.consume a (b :: rest)).txBitOut) n h.phase h.live h.word.ne rfl hcb)

/-! ## The trailing edge of a bit -/

/-- `s` at the start of bit `k` of its word, with the turns `turns` to come. -/
def State.atTxBit (s : State) (k : Nat) (turns : List Turn) (inp : Inputs) (sck dout : Bool) : State :=
  { s with agenda := turns, inp := inp, sck := sck, dout := dout, bit := BitVec.ofNat 4 k, edge := .lead }

/-- Before the last bit a trailing edge leads to the next bit, and with CPHA = 0 makes it ready. -/
theorem State.txEdge_txBitOut_atTxBit (s : State) {k : Nat} (hk : k < 15) (turns rest : List Turn)
    (inp : Inputs) (sck dout : Bool) (b : Turn) :
    ∃ dout', ((s.atTxBit k turns inp sck dout).consume b rest).txBitOut.txEdge =
        s.atTxBit (k + 1) rest b.inp s.par.cpol dout' ∧
      (s.atTxBit (k + 1) rest b.inp s.par.cpol dout').BitReady := by
  have hb : BitVec.ofNat 4 k ≠ 15 := by bv_omega
  have hsucc : BitVec.ofNat 4 k + 1 = BitVec.ofNat 4 (k + 1) := (BitVec.ofNat_add k 1).symm
  rw [State.txEdge_trail_mid _ rfl hb]
  refine ⟨if s.par.cpha then outBit s.par.lsbFirst s.shr (BitVec.ofNat 4 k).toNat
    else outBit s.par.lsbFirst s.shr (BitVec.ofNat 4 (k + 1)).toNat, ?_, fun hcpha => ?_⟩
  · simp only [State.txBitOut, State.consume, State.atTxBit, hsucc]
  · exact if_neg (ne_true_of_eq_false hcpha)

/-- The trailing edge of the last bit when a word is left: TXD1 is loaded (R158, R159). -/
theorem State.txEdge_txBitOut_next (hb : s.bit = 15) (hw : (s.widx + 1).toNat = 1) (hn : 1 < s.ntxw) :
    s.txBitOut.txEdge = { s with
      sck := s.par.cpol, edge := .lead, bit := 0, widx := s.widx + 1, shr := s.txd1
      dout := if s.par.cpha then outBit s.par.lsbFirst s.shr 15 else outBit s.par.lsbFirst s.txd1 0 } := by
  have hword : (s.txBitOut.widx + 1).toNat = 1 := hw
  rw [s.txBitOut.txEdge_trail_next rfl hb (hword.trans_lt hn), hword, State.loadTx_eq]
  simp [State.txBitOut, hb]

/-- The trailing edge of the last bit of the last word: DOUT keeps it (R159). -/
theorem State.txEdge_txBitOut_last (hb : s.bit = 15) (hw : s.ntxw ≤ (s.widx + 1).toNat) :
    s.txBitOut.txEdge = { s with
      sck := s.par.cpol, edge := .lead, bit := 0, widx := s.widx + 1
      dout := outBit s.par.lsbFirst s.shr 15 } := by
  rw [s.txBitOut.txEdge_trail_last rfl hb (Nat.not_lt.mpr hw)]
  simp [State.txBitOut, hb]

/-! ## Sending a word -/

/-- Two turns of the controller at place `n` of a list. -/
theorem exists_two_turns {ts : List Turn} {n : Nat} (hc : allController ts) (h : n + 2 ≤ ts.length) :
    ∃ a b, ts.drop n = a :: b :: ts.drop (n + 2) ∧ a.agent = .controller ∧ b.agent = .controller :=
  ⟨ts[n], ts[n + 1], by rw [List.drop_eq_getElem_cons (by omega), List.drop_eq_getElem_cons (by omega)],
    hc _ (List.getElem_mem _), hc _ (List.getElem_mem _)⟩

section Word

variable {ts rest : List Turn} (hdue : s.TxEdgeDue) (he : s.edge = .lead) (hb : s.bit = 0)
  (hready : s.BitReady) (ha : s.agenda = ts ++ rest) (hlen : ts.length = 32) (hc : allController ts)

include hdue he hb hready ha hlen hc

/-- The bits before bit `k` of a word take `2 * k` controller steps. -/
theorem run_txBits (k : Nat) (hk : k < 16) :
    ∃ inp sck dout,
      Host.Core.run core (2 * k) s = .next (s.atTxBit k (ts.drop (2 * k) ++ rest) inp sck dout) ∧
      (s.atTxBit k (ts.drop (2 * k) ++ rest) inp sck dout).BitReady := by
  induction k with
  | zero =>
    have hs : s = s.atTxBit 0 (ts ++ rest) s.inp s.sck s.dout := by
      cases s
      simp_all [State.atTxBit]
    exact ⟨s.inp, s.sck, s.dout, congrArg _ hs, hs ▸ hready⟩
  | succ k ih =>
    obtain ⟨inp, sck, dout, hr, hbit⟩ := ih (by omega)
    obtain ⟨a, b, hab, hca, hcb⟩ := exists_two_turns (n := 2 * k) hc (by omega)
    rw [hab] at hr hbit
    let turns := a :: b :: ts.drop (2 * k + 2) ++ rest
    obtain ⟨dout', hedge, hbit'⟩ := s.txEdge_txBitOut_atTxBit (k := k) (by omega) turns
      (ts.drop (2 * k + 2) ++ rest) inp sck dout b
    have hsent := run_txBit (s := s.atTxBit k turns inp sck dout) 0
      ⟨hdue.phase, hdue.word, hdue.live⟩ rfl hbit rfl hca hcb
    exact ⟨b.inp, s.par.cpol, dout', (run_add (2 * k) 2 hr).trans
      (hsent.trans (congrArg Host.Outcome.next hedge)), hbit'⟩

/-- At the leading edge of bit `k` SCK is active and the bit is on DOUT. -/
theorem run_txLeadingEdge (k : Nat) (hk : k < 16) :
    ∃ t, Host.Core.run core (2 * k + 1) s = .next t ∧
      t.sck = (!s.par.cpol) ∧ t.dout = outBit s.par.lsbFirst s.shr k := by
  obtain ⟨inp, sck, dout, hr, hbit⟩ := run_txBits hdue he hb hready ha hlen hc k hk
  obtain ⟨a, b, hab, hca, -⟩ := exists_two_turns (n := 2 * k) hc (by omega)
  rw [hab] at hr hbit
  have hout := run_txBitOut (s := s.atTxBit k (a :: b :: ts.drop (2 * k + 2) ++ rest) inp sck dout) 0
    ⟨hdue.phase, hdue.word, hdue.live⟩ rfl hbit rfl hca
  refine ⟨_, (run_add _ _ hr).trans hout, rfl, ?_⟩
  exact congrArg (outBit s.par.lsbFirst s.shr) (Nat.mod_eq_of_lt hk)

/-- The last edge of a word comes after 31 others. -/
theorem run_txWord :
    ∃ inp sck dout, Host.Core.run core 32 s =
      .next (s.atTxBit 15 rest inp sck dout).txBitOut.txEdge := by
  obtain ⟨inp, sck, dout, hr, hbit⟩ := run_txBits hdue he hb hready ha hlen hc 15 (by omega)
  obtain ⟨a, b, hab, hca, hcb⟩ := exists_two_turns (n := 2 * 15) hc (by omega)
  rw [List.drop_of_length_le (i := 2 * 15 + 2) hlen.le] at hab
  rw [hab] at hr hbit
  have hsent := run_txBit (s := s.atTxBit 15 ([a, b] ++ rest) inp sck dout) 0
    ⟨hdue.phase, hdue.word, hdue.live⟩ rfl hbit rfl hca hcb
  exact ⟨b.inp, sck, dout, (run_add 30 2 hr).trans hsent⟩

end Word

/-- Settles O36: `run_txLeadingEdge`, and the last trailing edge with and without a word left. -/
theorem wordIsSentInThirtyTwoEdges : Obligations.WordIsSentInThirtyTwoEdges := by
  intro s ts rest hp he hb hw hlive hdout ha hlen hc
  have hdue : s.TxEdgeDue := ⟨hp, hw, decide_eq_false (Nat.not_le.mpr hlive)⟩
  have hready : s.BitReady := fun hcpha => by rw [hb]; exact hdout hcpha
  refine ⟨run_txLeadingEdge hdue he hb hready ha hlen hc, ?_⟩
  obtain ⟨inp, sck, dout, hr⟩ := run_txWord hdue he hb hready ha hlen hc
  have hn := s.ntxw_le
  have hnext : (s.widx + 1).toNat = s.widx.toNat + 1 := by bv_omega
  let v := s.atTxBit 15 rest inp sck dout
  by_cases hl : s.widx.toNat + 1 < s.ntxw
  · have hfirst : (v.widx + 1).toNat = 1 := hnext.trans (by omega)
    have hedge := State.txEdge_txBitOut_next (s := v) rfl hfirst (hfirst ▸ hnext.trans_lt hl)
    refine ⟨_, hr.trans (congrArg Host.Outcome.next hedge), ?_, fun _ => ⟨rfl, rfl⟩,
      fun h => absurd h hl.ne⟩
    rw [← hp]
    rfl
  · have hedge := State.txEdge_txBitOut_last (s := v) rfl (hnext ▸ Nat.not_lt.mp hl)
    refine ⟨_, hr.trans (congrArg Host.Outcome.next hedge), ?_, fun h => absurd h hl,
      fun _ => ⟨rfl, rfl⟩⟩
    rw [← hp]
    rfl

/-! ## Receiving a word -/

/-- Settles O37: `run_rxWord` from the first bit of a word; of what it leaves, only RXBUF[WIDX] needs an
entry to be there. -/
theorem wordIsReceivedInThirtyTwoEdges : Obligations.WordIsReceivedInThirtyTwoEdges := by
  intro s ts rest hp he hb hw hroom hlive ha hlen hc
  have hdue : s.RxEdgeDue :=
    ⟨hp, fun e => hw.ne (congrArg BitVec.toNat e), decide_eq_false (Nat.not_le.mpr hlive)⟩
  obtain ⟨b, hr⟩ := run_rxWord 15 hdue he (by simp [hb]) ha hlen.ge hc
  rw [List.drop_of_length_le (i := 2 * (15 + 1)) hlen.le] at hr
  refine ⟨_, hr, rfl, hp, ?_, fun j hj => ?_, rfl, rfl, rfl, rfl, rfl, rfl⟩
  · exact State.rxWord_rxStoreWord_self _ _ hroom
  · exact State.rxWord_rxStoreWord_other _ _ hj

end Sys2Proof.Machine

/-! PROOFS. O52, O53, O57: what a step does to the chip-selects and the direction, and how a command
ends. -/

namespace Sys2Proof.Machine

variable {s t : State}

/-! ## What the controller writes -/

/-- The phases whose steps assert or deassert the line of SEL (R150, R151). -/
abbrev State.switchesCs (s : State) : Prop :=
  s.phase = .xStart ∨ s.phase = .xRelease ∨ s.phase = .tAssert ∨ s.phase = .tRelease

/-- What a step of the controller does to CSN and DIR: nothing, or it switches the line of SEL, or it
switches the direction (R150, R151, R167, R168). -/
inductive State.BusStep (s t : State) : Prop where
  | quiet (csn : t.csn = s.csn) (dir : t.dir = s.dir)
  | select (phase : s.switchesCs) (b : Bool) (csn : t.csn = (s.setCsn s.sel.toNat b).csn)
      (dir : t.dir = s.dir)
  | receive (phase : s.phase = .xDirsw) (csn : t.csn = s.csn) (dir : t.dir = true)
  | transmit (phase : s.phase = .xRestore) (csn : t.csn = s.csn) (dir : t.dir = false)

theorem State.BusStep.txEdge (s : State) : s.BusStep s.txEdge := by
  obtain ⟨_, _, _, _, _, _, he⟩ := s.txEdge_frame
  rw [he]
  exact .quiet rfl rfl

theorem State.BusStep.rxEdge (s : State) : s.BusStep s.rxEdge := by
  obtain ⟨_, _, _, _, _, _, he, -⟩ := s.rxEdge_frame
  rw [he]
  exact .quiet rfl rfl

theorem State.BusStep.stepXTx (s : State) : s.BusStep (stepXTx s) := by
  unfold Machine.stepXTx
  split
  · exact .quiet rfl rfl
  · split
    · exact .quiet rfl rfl
    · exact .txEdge s

theorem State.BusStep.stepXRx (s : State) : s.BusStep (stepXRx s) := by
  unfold Machine.stepXRx
  split
  · exact .quiet rfl rfl
  · split
    · exact .quiet rfl rfl
    · exact .rxEdge s

theorem State.BusStep.stepController (h : stepController s = .next t) : s.BusStep t := by
  rcases stepController_next_cases h with
    ⟨-, rfl⟩ | ⟨hp, ho, hs⟩ | ⟨-, rfl⟩ | ⟨-, rfl⟩ | ⟨hp, rfl⟩ | ⟨-, rfl⟩ | ⟨hp, rfl⟩ | ⟨hp, rfl⟩ |
    ⟨-, rfl⟩ | ⟨hp, ho, hs⟩ | ⟨-, rfl⟩ | ⟨hp, rfl⟩ | ⟨-, rfl⟩
  · exact .quiet rfl rfl
  · rw [stepXStart_of_none ho, State.loadTx_eq] at hs
    cases hs
    exact .select (.inl hp) false rfl rfl
  · exact .stepXTx s
  · unfold stepXGrace; split <;> exact .quiet rfl rfl
  · exact .receive hp rfl rfl
  · exact .stepXRx s
  · exact .select (.inr (.inl hp)) true rfl rfl
  · exact .transmit hp rfl rfl
  · exact .quiet rfl rfl
  · rw [stepTAssert_of_none ho] at hs
    cases hs
    exact .select (.inr (.inr (.inl hp))) false rfl rfl
  · unfold stepTHold; split <;> exact .quiet rfl rfl
  · exact .select (.inr (.inr (.inr hp))) true rfl rfl
  · exact .quiet rfl rfl

/-! ## What the host writes -/

/-- Every line is high and the direction is transmit. -/
def State.quietBus (s : State) : Prop := s.csn = 0b1111 ∧ s.dir = false

/-- A command's body leaves a quiet bus quiet: only INIT writes CSN, and only INIT and DEINIT write DIR. -/
theorem State.quietBus.bodyOf (h : s.quietBus) (i : Instr) : (bodyOf i s).quietBus := by
  cases i with
  | nop => exact h
  | init => rw [Machine.bodyOf, State.initBody_eq]; split <;> exact ⟨rfl, rfl⟩
  | select k => simp only [Machine.bodyOf, State.selectBody]; split <;> exact h
  | xfer d n => simp only [Machine.bodyOf, State.xferBody, State.checkedStart]; split_ifs <;> exact h
  | sendrecv k d n =>
    simp only [Machine.bodyOf, State.sendrecvBody, State.checkedStart]; split_ifs <;> exact h
  | trig => simp only [Machine.bodyOf, State.trigBody]; split <;> exact h
  | deinit => exact ⟨h.1, rfl⟩

theorem State.quietBus.acceptWord (h : s.quietBus) {v : Word} (hs : acceptWord v s = .next t) :
    t.quietBus := by
  rcases acceptWord_cases v s with ⟨i, -, he⟩ | ⟨-, -, he⟩ <;> rw [he] at hs
  · rw [exec_eq_accept] at hs
    cases hs
    rcases s.accept_cases (encode i) (needsInit i) (Machine.bodyOf i) with
      ⟨-, he⟩ | ⟨-, -, -, he⟩ | ⟨-, -, he⟩ <;> rw [he]
    · exact h
    · exact h
    · exact State.quietBus.bodyOf (s := s.setLastcmd (encode i)) h i
  · cases hs
    rcases s.acceptIllegal_cases v with ⟨-, he⟩ | ⟨-, he⟩ <;> rw [he] <;> exact h

theorem State.quietBus.writeReg (h : s.quietBus) {r : Reg} {v : Word}
    (hs : writeReg r v s = .next t) : t.quietBus := by
  cases r with
  | cmd => exact h.acceptWord hs
  | status => cases hs; split <;> exact h
  | txdata0 | txdata1 | timeout => cases hs; unfold State.guarded; split <;> exact h
  | rxcnt | grace | cyccnt | clkfreq | param | rxbuf _ | reserved => cases hs; exact h

theorem State.quietBus.stepHost (h : s.quietBus) {a : HostAccess} (hs : stepHost a s = .next t) :
    t.quietBus := by
  rcases stepHost_next_cases hs with ⟨-, rfl⟩ | ⟨off, -, -, -, ⟨-, rfl⟩ | ⟨v, -, hw⟩⟩
  · cases a.kind <;> exact h
  · exact h
  · exact h.writeReg hw

/-- The host changes neither CSN nor DIR: a command's body runs only at rest, where the bus is quiet. -/
theorem State.Inv.stepHost_bus (h : s.Inv) {a : HostAccess} (hs : Machine.stepHost a s = .next t) :
    t.csn = s.csn ∧ t.dir = s.dir := by
  cases hb : s.busy with
  | true =>
    obtain ⟨_, _, _, rfl⟩ := stepHost_busy hb hs
    exact ⟨rfl, rfl⟩
  | false =>
    have hrest := h.atRest hb
    have hquiet : s.quietBus := ⟨hrest.csn, hrest.dir⟩
    obtain ⟨hcsn, hdir⟩ := hquiet.stepHost hs
    exact ⟨hcsn.trans hrest.csn.symm, hdir.trans hrest.dir.symm⟩

/-! ## What a step writes -/

/-- Besides the controller only reset changes CSN or DIR, and it leaves the bus quiet (R320). -/
theorem State.Inv.stepAgent_bus (h : s.Inv) {a : Agent} (hs : Machine.stepAgent a s = .next t) :
    (t.csn = s.csn ∧ t.dir = s.dir) ∨ (a = .controller ∧ s.BusStep t) ∨ (a = .reset ∧ t.quietBus) := by
  cases a with
  | host x => exact .inl (h.stepHost_bus hs)
  | controller => exact .inr (.inl ⟨rfl, .stepController hs⟩)
  | counter =>
    cases hs
    rcases s.tick_cases with ⟨-, he⟩ | ⟨-, he⟩ <;> rw [he] <;> exact .inl ⟨rfl, rfl⟩
  | environment => cases hs; exact .inl ⟨rfl, rfl⟩
  | reset => cases hs; exact .inr (.inr ⟨rfl, rfl, rfl⟩)

theorem State.busStep_takeTurn : s.takeTurn.BusStep t → s.BusStep t := by
  obtain ⟨_, _, _, he⟩ := s.takeTurn_eq
  rw [he]
  rintro (⟨hcsn, hdir⟩ | ⟨hp, b, hcsn, hdir⟩ | ⟨hp, hcsn, hdir⟩ | ⟨hp, hcsn, hdir⟩)
  · exact .quiet hcsn hdir
  · exact .select hp b hcsn hdir
  · exact .receive hp hcsn hdir
  · exact .transmit hp hcsn hdir

theorem State.Inv.step_bus (h : s.Inv) (hs : step s = .next t) :
    (t.csn = s.csn ∧ t.dir = s.dir) ∨ (s.nextTurn.agent = .controller ∧ s.BusStep t) ∨
      (s.nextTurn.agent = .reset ∧ t.quietBus) := by
  rw [← s.takeTurn_csn, ← s.takeTurn_dir]
  exact (h.takeTurn.stepAgent_bus hs).imp_right (.imp_left (.imp_right State.busStep_takeTurn))

/-- A line other than that of SEL is high (R326 I1). -/
theorem State.Inv.csn_other (h : s.Inv) {k : Nat} (hk : k < 4) (hne : k ≠ s.sel.toNat) :
    s.csn.getLsbD k = true := by
  by_contra hlow
  exact hne (h.i1 k hk (by simpa using hlow)).1

/-- Settles O52: the controller writes only the bit of SEL, and reset makes high what was high. -/
theorem otherChipSelectsNeverToggle : Obligations.OtherChipSelectsNeverToggle := by
  intro s t h hs
  have same (hcsn : t.csn = s.csn) : ∀ k, k < 4 → k ≠ s.sel.toNat → t.csn.getLsbD k = s.csn.getLsbD k :=
    fun k _ _ => by rw [hcsn]
  rcases h.step_bus hs with ⟨hcsn, -⟩ | ⟨ha, ⟨hcsn, -⟩ | ⟨hp, b, hcsn, -⟩ | ⟨-, hcsn, -⟩ | ⟨-, hcsn, -⟩⟩ |
    ⟨ha, hcsn, -⟩
  · exact ⟨same hcsn, fun hne => absurd hcsn hne⟩
  · exact ⟨same hcsn, fun hne => absurd hcsn hne⟩
  · refine ⟨fun k hk hne => ?_, fun _ => .inr ⟨ha, hp⟩⟩
    rw [hcsn, s.csn_setCsn_getLsbD _ _ _ hk, if_neg fun hsel => hne hsel.1]
  · exact ⟨same hcsn, fun hne => absurd hcsn hne⟩
  · exact ⟨same hcsn, fun hne => absurd hcsn hne⟩
  · refine ⟨fun k hk hne => ?_, fun _ => .inl ha⟩
    rw [hcsn, getLsbD_csn_high k hk, h.csn_other hk hne]

/-- Settles O53: DIR is written in X_DIRSW, which has CSN[SEL] = 0, in X_RESTORE, which has every line
high, and by reset. -/
theorem directionSwitchesOnlyInItsPhases : Obligations.DirectionSwitchesOnlyInItsPhases := by
  intro s t h hs
  have same (hdir : t.dir = s.dir) {P Q : Prop} :
      (s.dir = false → t.dir = true → P) ∧ (s.dir = true → t.dir = false → Q) :=
    ⟨fun h0 h1 => by simp [hdir, h0] at h1, fun h1 h0 => by simp [hdir, h1] at h0⟩
  rcases h.step_bus hs with ⟨-, hdir⟩ |
    ⟨ha, ⟨-, hdir⟩ | ⟨-, -, -, hdir⟩ | ⟨hp, hcsn, hdir⟩ | ⟨hp, -, hdir⟩⟩ | ⟨ha, -, hdir⟩
  · exact same hdir
  · exact same hdir
  · exact same hdir
  · exact ⟨fun _ _ => ⟨ha, hp, h.selected (by rw [hp]; rfl), hcsn⟩, fun _ h0 => by simp [hdir] at h0⟩
  · exact ⟨fun _ h1 => by simp [hdir] at h1, fun _ _ => .inl ⟨ha, hp, h.csn_high (by rw [hp]; rfl)⟩⟩
  · exact ⟨fun _ h1 => by simp [hdir] at h1, fun _ _ => .inr ha⟩

/-! ## The end of a command -/

/-- Settles O57: the controller leaves INIT alone, so a command ends in IDLE and not in OFF, and there the
invariants say the rest. -/
theorem everyCommandEndsSafelyIdle : Obligations.EveryCommandEndsSafelyIdle := by
  intro s t h hb ha hs hend
  have htinv := everyStepKeepsTheInvariants s t h hs
  have hctl : stepController s.takeTurn = .next t := by rwa [step, ha] at hs
  obtain ⟨hinit, -⟩ := h.i4 hb
  have htinit : t.init = true :=
    (congrArg Held.init (stepController_held hctl)).trans (s.takeTurn_init.trans hinit)
  rcases t.busy_false_iff.mp hend with hoff | hidle
  · simp [htinv.i3.mp hoff] at htinit
  · exact htinv.safeIdle hidle

end Sys2Proof.Machine

/-! PROOFS. O55, O56: an agent's move does the same under two choices of the inputs that agree on what it
reads. -/

namespace Sys2Proof.Machine

variable {s : State} {i : Inputs}

/-- `s` with the inputs `i`. -/
def State.withInp (s : State) (i : Inputs) : State := { s with inp := i }

/-- The move of `a` reads CLKF: in GraceBegin, in ArmWatchdog or for a CLKFREQ read (R175). -/
def State.ReadsClkf (s : State) (a : Agent) : Prop :=
  (a = .controller ∧ (s.phase = .xStart ∨ s.phase = .xDirsw ∨ s.phase = .tAssert ∨
    (s.phase = .xTx ∧ s.widx.toNat = s.ntxw))) ∨
  ∃ tgt w, a = .host ⟨tgt, w, .read⟩ ∧ offsetOf s.par tgt = some 0x020

/-- The move of `a` samples DIN (R160). -/
def State.SamplesDin (s : State) (a : Agent) : Prop :=
  a = .controller ∧ s.phase = .xRx ∧ s.widx ≠ s.rxlen ∧ s.expired = false ∧
    (s.edge = .trail ↔ s.par.cpha = true)

/-- The inputs `i` agree with those of `s` on what the move of `a` reads. -/
structure State.Agrees (s : State) (a : Agent) (i : Inputs) : Prop where
  startOk : i.startOk = s.inp.startOk
  cycDraw : i.cycDraw = s.inp.cycDraw
  clkf : s.ReadsClkf a → i.clkf = s.inp.clkf
  din : s.SamplesDin a → i.din = s.inp.din

theorem ite_withInp (c : Prop) [Decidable c] (t u : State) :
    (if c then t else u).withInp i = if c then t.withInp i else u.withInp i :=
  apply_ite (State.withInp · i) c t u

/-! ## The host -/

theorem State.initBody_withInp (hs : i.startOk = s.inp.startOk) (hc : i.cycDraw = s.inp.cycDraw) :
    (s.withInp i).initBody = s.initBody.withInp i := by
  rw [State.initBody_eq, State.initBody_eq, show (s.withInp i).inp.startOk = s.inp.startOk from hs]
  split
  · simp only [State.withInp, State.initCs, State.initOk, hc]
  · rfl

/-- INIT alone reads inputs: START_OK and the draw of CYCCNT (R192). -/
theorem bodyOf_withInp (c : Instr) (hs : i.startOk = s.inp.startOk) (hc : i.cycDraw = s.inp.cycDraw) :
    bodyOf c (s.withInp i) = (bodyOf c s).withInp i := by
  cases c with
  | nop | deinit => rfl
  | init => exact State.initBody_withInp hs hc
  | select k => simp only [bodyOf, State.selectBody, ite_withInp]; rfl
  | xfer d n => simp only [bodyOf, State.xferBody, State.checkedStart, ite_withInp]; rfl
  | sendrecv k d n => simp only [bodyOf, State.sendrecvBody, State.checkedStart, ite_withInp]; rfl
  | trig => simp only [bodyOf, State.trigBody, ite_withInp]; rfl

theorem acceptWord_withInp (v : Word) (hs : i.startOk = s.inp.startOk) (hc : i.cycDraw = s.inp.cycDraw) :
    acceptWord v (s.withInp i) = andThen (acceptWord v s) (State.withInp · i) := by
  unfold acceptWord
  cases decode v with
  | legal c =>
    have hbody := bodyOf_withInp (s := s.setLastcmd (encode c)) c hs hc
    simp only [exec_eq_accept, andThen, State.accept, ite_withInp, ← hbody]
    rfl
  | illegal why =>
    simp only [andThen, State.acceptIllegal, ite_withInp]
    rfl

theorem writeReg_withInp (r : Reg) (v : Word) (hs : i.startOk = s.inp.startOk)
    (hc : i.cycDraw = s.inp.cycDraw) :
    writeReg r v (s.withInp i) = andThen (writeReg r v s) (State.withInp · i) := by
  cases r with
  | cmd => exact acceptWord_withInp v hs hc
  | status => simp only [writeReg, andThen, ite_withInp]; rfl
  | txdata0 | txdata1 | timeout => simp only [writeReg, andThen, State.guarded, ite_withInp]; rfl
  | rxcnt | grace | cyccnt | clkfreq | param | rxbuf _ | reserved => rfl

/-- R92: of the registers only CLKFREQ reads an input. -/
theorem State.readReg_withInp {r : Reg} (h : r = .clkfreq → i.clkf = s.inp.clkf) :
    (s.withInp i).readReg r = s.readReg r := by
  cases r with
  | clkfreq => exact h rfl
  | cmd | status | txdata0 | txdata1 | rxcnt | grace | timeout | cyccnt | param | rxbuf _ | reserved => rfl

/-- R82: CLKFREQ is at one offset only. -/
theorem off_of_regAt_clkfreq {p : Params} {off : Nat} : regAt p off = .clkfreq → off = 0x020 := by
  unfold regAt
  repeat' refine iteInduction (motive := (· = Reg.clkfreq → _)) (fun h => ?_) (fun _ => ?_)
  all_goals intro hr; first | exact h | cases hr

theorem hostRead_withInp {off : Nat} (h : off = 0x020 → i.clkf = s.inp.clkf) :
    hostRead off (s.withInp i) = (hostRead off s).withInp i := by
  have hread : (s.withInp i).readReg (regAt s.par off) = s.readReg (regAt s.par off) :=
    State.readReg_withInp fun hr => h (off_of_regAt_clkfreq hr)
  exact congrArg (fun w => (s.setRdata w).withInp i) hread

theorem outsideAccess_withInp (k : Direction) :
    outsideAccess k (s.withInp i) = (outsideAccess k s).withInp i := by
  cases k <;> rfl

theorem stepHost_withInp {x : HostAccess} (h : s.Agrees (.host x) i) :
    stepHost x (s.withInp i) = andThen (stepHost x s) (State.withInp · i) := by
  obtain ⟨tgt, w, k⟩ := x
  have hpar : (s.withInp i).par = s.par := rfl
  simp only [stepHost, hpar]
  cases ho : offsetOf s.par tgt with
  | none => exact congrArg Host.Outcome.next (outsideAccess_withInp k)
  | some off =>
    by_cases hw : w = .word
    · by_cases halign : off % 4 = 0
      · simp only [hw, halign, ne_eq, not_true_eq_false, if_false]
        cases k with
        | read =>
          exact congrArg Host.Outcome.next
            (hostRead_withInp fun hoff => h.clkf (.inr ⟨tgt, w, rfl, hoff ▸ ho⟩))
        | write v => exact writeReg_withInp _ v h.startOk h.cycDraw
      · simp only [hw, halign, ne_eq, not_true_eq_false, not_false_eq_true, if_false, if_true, andThen]
    · simp only [hw, ne_eq, not_false_eq_true, if_true, andThen]

/-! ## The controller -/

theorem State.armWatchdog_withInp (h : i.clkf = s.inp.clkf) :
    (s.withInp i).armWatchdog = s.armWatchdog.withInp i := by
  simp only [State.withInp, State.armWatchdog, h]

theorem State.graceBegin_withInp (h : i.clkf = s.inp.clkf) :
    (s.withInp i).graceBegin = s.graceBegin.withInp i := by
  simp only [State.withInp, State.graceBegin, h]

/-- TxEdge reads no input. -/
theorem State.txEdge_withInp : (s.withInp i).txEdge = s.txEdge.withInp i := by
  cases he : s.edge with
  | lead => rw [s.txEdge_lead he, (s.withInp i).txEdge_lead he]; rfl
  | trail =>
    by_cases hb : s.bit = 15
    · by_cases hw : (s.widx + 1).toNat < s.ntxw
      · rw [s.txEdge_trail_next he hb hw, (s.withInp i).txEdge_trail_next he hb hw, State.loadTx_eq,
          State.loadTx_eq]
        rfl
      · rw [s.txEdge_trail_last he hb hw, (s.withInp i).txEdge_trail_last he hb hw]
        rfl
    · rw [s.txEdge_trail_mid he hb, (s.withInp i).txEdge_trail_mid he hb]
      rfl

theorem State.rxTrailShr_withInp (h : s.par.cpha = true → i.din = s.inp.din) :
    (s.withInp i).rxTrailShr = s.rxTrailShr := by
  cases hcpha : s.par.cpha <;> simp_all [State.rxTrailShr, State.withInp]

/-- RxEdge reads DIN at the edge that CPHA names (R160). -/
theorem State.rxEdge_withInp (h : (s.edge = .trail ↔ s.par.cpha = true) → i.din = s.inp.din) :
    (s.withInp i).rxEdge = s.rxEdge.withInp i := by
  cases he : s.edge with
  | lead =>
    rw [s.rxEdge_lead he, (s.withInp i).rxEdge_lead he]
    cases hcpha : s.par.cpha <;> simp_all [State.withInp]
  | trail =>
    have hshr : (s.withInp i).rxTrailShr = s.rxTrailShr :=
      State.rxTrailShr_withInp fun hcpha => h (by simp [he, hcpha])
    by_cases hb : s.bit = 15
    · rw [s.rxEdge_trail_last he hb, (s.withInp i).rxEdge_trail_last he hb, hshr]
      rfl
    · rw [s.rxEdge_trail_mid he hb, (s.withInp i).rxEdge_trail_mid he hb, hshr]
      rfl

theorem stepXTx_expired (hw : s.widx.toNat ≠ s.ntxw) (he : s.expired = true) :
    stepXTx s = s.abortXfer .peripheralTimeout := by
  simp [stepXTx, hw, he]

theorem stepXRx_expired (hw : s.widx ≠ s.rxlen) (he : s.expired = true) :
    stepXRx s = s.abortXfer .peripheralTimeout := by
  simp [stepXRx, hw, he]

/-- X_TX reads CLKF when it begins the grace wait (R223). -/
theorem stepXTx_withInp (h : s.widx.toNat = s.ntxw → i.clkf = s.inp.clkf) :
    stepXTx (s.withInp i) = (stepXTx s).withInp i := by
  by_cases hw : s.widx.toNat = s.ntxw
  · rw [stepXTx_complete s hw, stepXTx_complete (s.withInp i) hw, State.graceBegin_withInp (h hw)]
    rfl
  · cases he : s.expired with
    | true =>
      rw [stepXTx_expired hw he, stepXTx_expired (s := s.withInp i) hw he]
      rfl
    | false => rw [stepXTx_edge hw he, stepXTx_edge (s := s.withInp i) hw he, State.txEdge_withInp]

/-- X_RX reads DIN at a sampling edge (R226, R160). -/
theorem stepXRx_withInp (h : s.widx ≠ s.rxlen → s.expired = false →
    (s.edge = .trail ↔ s.par.cpha = true) → i.din = s.inp.din) :
    stepXRx (s.withInp i) = (stepXRx s).withInp i := by
  by_cases hw : s.widx = s.rxlen
  · rw [stepXRx_complete s hw, stepXRx_complete (s.withInp i) hw]
    rfl
  · cases he : s.expired with
    | true =>
      rw [stepXRx_expired hw he, stepXRx_expired (s := s.withInp i) hw he]
      rfl
    | false =>
      rw [stepXRx_edge hw he, stepXRx_edge (s := s.withInp i) hw he, State.rxEdge_withInp (h hw he)]

/-- CsAssert reads no input, so a phase that begins with it carries the inputs along if its rest does. -/
theorem State.csAssert_andThen_withInp {f : State → State}
    (hf : ∀ u : State, u.inp = s.inp → f (u.withInp i) = (f u).withInp i) :
    andThen (s.withInp i).csAssert f = andThen (andThen s.csAssert f) (State.withInp · i) := by
  cases ho : s.otherSelected with
  | true =>
    rw [State.csAssert_refused ho, State.csAssert_refused (s := s.withInp i) ho]
    rfl
  | false =>
    rw [s.csAssert_of_none ho, (s.withInp i).csAssert_of_none ho]
    exact congrArg Host.Outcome.next (hf (s.setCsn s.sel.toNat false) rfl)

/-- X_START arms the watchdog (R222). -/
theorem stepXStart_withInp (h : i.clkf = s.inp.clkf) :
    stepXStart (s.withInp i) = andThen (stepXStart s) (State.withInp · i) := by
  refine State.csAssert_andThen_withInp fun u hu => ?_
  rw [State.armWatchdog_withInp (hu ▸ h), State.loadTx_eq, State.loadTx_eq]
  rfl

/-- T_ASSERT begins the grace wait (R262). -/
theorem stepTAssert_withInp (h : i.clkf = s.inp.clkf) :
    stepTAssert (s.withInp i) = andThen (stepTAssert s) (State.withInp · i) := by
  refine State.csAssert_andThen_withInp fun u hu => ?_
  rw [State.graceBegin_withInp (hu ▸ h)]
  rfl

/-- X_DIRSW arms the watchdog (R225). -/
theorem stepXDirsw_withInp (h : i.clkf = s.inp.clkf) :
    stepXDirsw (s.withInp i) = (stepXDirsw s).withInp i := by
  have harm : (s.withInp i).dirToRx.armWatchdog = s.dirToRx.armWatchdog.withInp i :=
    State.armWatchdog_withInp (s := s.dirToRx) h
  rw [stepXDirsw, stepXDirsw, harm]
  rfl

theorem stepXGrace_withInp : stepXGrace (s.withInp i) = (stepXGrace s).withInp i := by
  simp only [stepXGrace, ite_withInp]
  rfl

theorem stepTHold_withInp : stepTHold (s.withInp i) = (stepTHold s).withInp i := by
  simp only [stepTHold, ite_withInp]
  rfl

theorem stepController_withInp (h : s.Agrees .controller i) :
    stepController (s.withInp i) = andThen (stepController s) (State.withInp · i) := by
  have hphase : (s.withInp i).phase = s.phase := rfl
  have hclkf (hp : s.phase = .xStart ∨ s.phase = .xDirsw ∨ s.phase = .tAssert ∨
      (s.phase = .xTx ∧ s.widx.toNat = s.ntxw)) : i.clkf = s.inp.clkf := h.clkf (.inl ⟨rfl, hp⟩)
  unfold stepController
  rw [hphase]
  cases hp : s.phase with
  | off | idle | xRelease | xRestore | tStart | tRelease | tEnd => rfl
  | xStart => exact stepXStart_withInp (hclkf (by simp [hp]))
  | xTx => exact congrArg Host.Outcome.next (stepXTx_withInp fun hw => hclkf (by simp [hp, hw]))
  | xGrace => exact congrArg Host.Outcome.next stepXGrace_withInp
  | xDirsw => exact congrArg Host.Outcome.next (stepXDirsw_withInp (hclkf (by simp [hp])))
  | xRx =>
    exact congrArg Host.Outcome.next
      (stepXRx_withInp fun hw he hedge => h.din ⟨rfl, hp, hw, he, hedge⟩)
  | tAssert => exact stepTAssert_withInp (hclkf (by simp [hp]))
  | tHold => exact congrArg Host.Outcome.next stepTHold_withInp

/-! ## Every agent -/

theorem State.tick_withInp : (s.withInp i).tick = s.tick.withInp i := by
  simp only [State.tick, ite_withInp]
  rfl

/-- An agent's move carries the inputs along, whatever they are beyond what it reads. -/
theorem stepAgent_withInp {a : Agent} (h : s.Agrees a i) :
    stepAgent a (s.withInp i) = andThen (stepAgent a s) (State.withInp · i) := by
  cases a with
  | host x => exact stepHost_withInp h
  | controller => exact stepController_withInp h
  | counter => exact congrArg Host.Outcome.next State.tick_withInp
  | environment | reset => rfl

/-- Settles O55: another CLKF agrees on what a step that does not read it reads. -/
theorem clkfIsReadOnlyAtItsReaders : Obligations.ClkfIsReadOnlyAtItsReaders := by
  intro s a f hctl hhost
  refine stepAgent_withInp (i := { s.inp with clkf := f }) ⟨rfl, rfl, fun hreads => ?_, fun _ => rfl⟩
  rcases hreads with hreads | ⟨tgt, w, ha, ho⟩
  · exact absurd hreads hctl
  · exact absurd ho (hhost tgt w ha)

/-- Settles O56: another DIN agrees on what a step that does not sample it reads. -/
theorem dinIsReadOnlyWhereSampled : Obligations.DinIsReadOnlyWhereSampled := by
  intro s a b hsample
  exact stepAgent_withInp (i := { s.inp with din := b })
    ⟨rfl, rfl, fun _ => rfl, fun hsamples => absurd hsamples hsample⟩

end Sys2Proof.Machine

/-! PROOFS. O11, O12, O13, O14, O18: the setup commands, and the frame of every command. -/

namespace Sys2Proof.Machine

variable {s : State}

/-! ## The three outcomes of accepting a command -/

/-- The commands that need INIT = 1 (R289). -/
theorem needsInit_iff (i : Instr) : needsInit i = true ↔ i ≠ .nop ∧ i ≠ .init := by
  cases i <;> simp [needsInit]

/-- R288: while BUSY every command is dropped and sets CAV. -/
theorem exec_busy (i : Instr) (hb : s.busy = true) : exec i s = .next (s.setCav true) := by
  rw [exec_eq_accept, s.accept_busy hb]

/-- R285: with INIT = 0 a command that needs INIT only reports. -/
theorem exec_notInit {i : Instr} (hn : needsInit i = true) (hb : s.busy = false)
    (hi : s.init = false) :
    exec i s = .next ((s.setLastcmd (encode i)).setErr .notInitialized) := by
  rw [exec_eq_accept, hn, s.accept_notInit hb hi]

/-- R289: past the checks a command writes LASTCMD and runs its body. -/
theorem exec_run {i : Instr} (hb : s.busy = false) (hi : needsInit i = true → s.init = true) :
    exec i s = .next (bodyOf i (s.setLastcmd (encode i))) := by
  rw [exec_eq_accept, s.accept_run hb hi]

/-- A command with INIT = 1, whatever it needs. -/
theorem exec_ready (i : Instr) (h : s.ready) :
    exec i s = .next (bodyOf i (s.setLastcmd (encode i))) := exec_run h.1 fun _ => h.2

/-! ## O18: the frame of every command -/

/-- The registers that no command's accept step writes. -/
structure Engines where
  par : Params
  txd0 : Half
  txd1 : Half
  rxbuf : List Half
  timeout : Word
  grace : Word
  wstart : Word
  pstart : Word
  plimit : Word
  shr : Half
  bit : BitVec 4
  edge : Edge
  widx : Half
  dout : Bool
  rdata : Option Word
  inp : Inputs
  agenda : List Turn

/-- Those registers of a state. -/
def State.engines (s : State) : Engines where
  par := s.par
  txd0 := s.txd0
  txd1 := s.txd1
  rxbuf := s.rxbuf
  timeout := s.timeout
  grace := s.grace
  wstart := s.wstart
  pstart := s.pstart
  plimit := s.plimit
  shr := s.shr
  bit := s.bit
  edge := s.edge
  widx := s.widx
  dout := s.dout
  rdata := s.rdata
  inp := s.inp
  agenda := s.agenda

/-- CYCCNT, CSN, CS_DRV and SCK, which of all commands INIT alone writes (R192). -/
def State.initOutputs (s : State) : Word × BitVec 4 × Bool × Bool :=
  (s.cyccnt, s.csn, s.csDrv, s.sck)

theorem bodyOf_frame (i : Instr) (s : State) :
    (bodyOf i s).engines = s.engines ∧
      (i ≠ .init → (bodyOf i s).initOutputs = s.initOutputs) := by
  cases i with
  | nop | deinit => exact ⟨rfl, fun _ => rfl⟩
  | init => rw [bodyOf, State.initBody_eq]; split <;> exact ⟨rfl, fun h => absurd rfl h⟩
  | select k => simp only [bodyOf, State.selectBody]; split <;> exact ⟨rfl, fun _ => rfl⟩
  | xfer d n =>
    simp only [bodyOf, State.xferBody, State.checkedStart]; split_ifs <;> exact ⟨rfl, fun _ => rfl⟩
  | sendrecv k d n =>
    simp only [bodyOf, State.sendrecvBody, State.checkedStart]; split_ifs <;> exact ⟨rfl, fun _ => rfl⟩
  | trig => simp only [bodyOf, State.trigBody]; split <;> exact ⟨rfl, fun _ => rfl⟩

/-- What neither CAV, LASTCMD, ERR nor the body of a command changes, its accept step keeps. -/
theorem State.accept_keeps {α : Type} (f : State → α) (hcav : ∀ s b, f (State.setCav s b) = f s)
    (hlast : ∀ s w, f (State.setLastcmd s w) = f s) (herr : ∀ s e, f (State.setErr s e) = f s)
    {body : State → State} (hbody : ∀ s, f (body s) = f s) (s : State) (w : Word) (needs : Bool) :
    f (s.accept w needs body) = f s := by
  rcases s.accept_cases w needs body with ⟨-, he⟩ | ⟨-, -, -, he⟩ | ⟨-, -, he⟩ <;> rw [he]
  · exact hcav _ _
  · exact (herr _ _).trans (hlast _ _)
  · exact (hbody _).trans (hlast _ _)

/-- Settles O18: the accept checks write CAV, LASTCMD and ERR, and the rest is the command's body. -/
theorem commandsKeepDataAndEngines : Obligations.CommandsKeepDataAndEngines := by
  intro i s
  have hengines := State.accept_keeps State.engines (fun _ _ => rfl) (fun _ _ => rfl)
    (fun _ _ => rfl) (fun s => (bodyOf_frame i s).1) s (encode i) (needsInit i)
  have houtputs (hi : i ≠ .init) := State.accept_keeps State.initOutputs (fun _ _ => rfl)
    (fun _ _ => rfl) (fun _ _ => rfl) (fun s => (bodyOf_frame i s).2 hi) s (encode i) (needsInit i)
  simp only [State.engines, Engines.mk.injEq] at hengines
  simp only [State.initOutputs, Prod.mk.injEq] at houtputs
  exact ⟨_, exec_eq_accept i s, by simpa only [and_assoc] using And.intro hengines houtputs⟩

/-! ## O11: NOP -/

/-- Settles O11: NOP needs no INIT. -/
theorem nopClearsErr : Obligations.NopClearsErr := fun _ =>
  ⟨fun hb => exec_run hb nofun, exec_busy .nop⟩

/-! ## O12: INIT -/

/-- R55: with every line high no CSACT bit reads 1. -/
theorem State.csactBits_of_high (h : s.csn = 0b1111) : s.csactBits = 0 := by
  have hidle : ∀ k, k < 4 → s.csActive k = false := by
    intro k hk
    have hbit : s.csn.getLsbD k = true := by rw [h]; interval_cases k <;> rfl
    simp [State.csActive, State.csLevel, hbit]
  rw [State.csactBits, hidle 0 (by omega), hidle 1 (by omega), hidle 2 (by omega), hidle 3 (by omega)]
  rfl

/-- R192: INIT with START_OK true. -/
theorem exec_init_ok (hb : s.busy = false) (hstart : s.inp.startOk = true) :
    exec .init s = .next (s.setLastcmd 0x00000001).initCs.initOk := by
  refine (exec_run (i := .init) hb nofun).trans (congrArg Host.Outcome.next ?_)
  exact State.initBody_eq.trans (if_pos hstart)

/-- R192, R284: INIT with START_OK false. -/
theorem exec_init_fail (hb : s.busy = false) (hstart : s.inp.startOk = false) :
    exec .init s = .next (s.setLastcmd 0x00000001).initCs.initFail := by
  refine (exec_run (i := .init) hb nofun).trans (congrArg Host.Outcome.next ?_)
  exact State.initBody_eq.trans (if_neg (by simpa using hstart))

/-- Settles O12: the two branches on START_OK. Of the example's STATUS only SEL, SELV and CAV are kept
from reset. -/
theorem initStartsOrFails : Obligations.InitStartsOrFails := by
  intro s
  refine ⟨exec_init_ok, exec_init_fail, exec_busy .init, fun hr hstart => ?status⟩
  case status =>
    refine ⟨_, exec_init_ok hr.busy hstart, ?_⟩
    have hcs : (s.setLastcmd 0x00000001).initCs.initOk.csactBits = 0 := State.csactBits_of_high rfl
    rw [State.statusWord, hcs]
    simp [State.initOk, State.initCs, State.busy, ErrCode.code, Phase.code, hr.selv, hr.sel, hr.cav]

/-! ## O13: SELECT -/

/-- R195: SELECT of a wired slave. -/
theorem State.selectBody_valid {k : Nat} (h : k < s.par.numSlaves) :
    State.selectBody k s = (s.bindSel (slaveSel k)).setErr .ok := by
  rw [State.selectBody, if_pos ((s.slaveValid_iff k).mpr h)]

theorem State.trigBody_unbound (h : s.selv = false) :
    s.trigBody = s.setErr .invalidSlaveSelection := by
  simp [State.trigBody, h]

theorem State.xferBody_unbound (h : s.selv = false) (d : Bool) (n : Nat) :
    State.xferBody d n s = s.setErr .invalidSlaveSelection := by
  simp [State.xferBody, h]

theorem exec_select_valid {k : Nat} (h : s.ready) (hk : k < s.par.numSlaves) :
    exec (.select k) s =
      .next (((s.setLastcmd (encode (.select k))).bindSel (slaveSel k)).setErr .ok) :=
  (exec_ready _ h).trans (congrArg Host.Outcome.next (State.selectBody_valid hk))

theorem exec_select_invalid {k : Nat} (h : s.ready) (hk : s.par.numSlaves ≤ k) :
    exec (.select k) s =
      .next ((s.setLastcmd (encode (.select k))).unbindSel.setErr .invalidSlaveSelection) :=
  (exec_ready _ h).trans (congrArg Host.Outcome.next (State.selectBody_invalid hk))

/-- R260: TRIG without a binding. -/
theorem exec_trig_unbound (h : s.ready) (hv : s.selv = false) :
    exec .trig s = .next ((s.setLastcmd 0x00000005).setErr .invalidSlaveSelection) :=
  (exec_ready _ h).trans (congrArg Host.Outcome.next (State.trigBody_unbound hv))

/-- R220: XFER without a binding. -/
theorem exec_xfer_unbound (h : s.ready) (hv : s.selv = false) (d : Bool) (n : Nat) :
    exec (.xfer d n) s =
      .next ((s.setLastcmd (encode (.xfer d n))).setErr .invalidSlaveSelection) :=
  (exec_ready _ h).trans (congrArg Host.Outcome.next
    (State.xferBody_unbound (s := s.setLastcmd (encode (.xfer d n))) hv d n))

/-- R85: STATUS bits 5:3 are SEL and SELV. -/
theorem State.statusWord_binding (s : State) :
    s.statusWord.extractLsb' 3 3 = s.sel ++ BitVec.ofBool s.selv := by
  apply s.statusWord_field (s.sel ++ BitVec.ofBool s.selv)
  intro j hj
  rw [s.statusWord_getLsbD _ (by omega), BitVec.getLsbD_append]
  interval_cases j <;> simp

/-- Settles O13: SELECT writes neither INIT nor PHASE, so what follows an invalid one is a ready state
without a binding. -/
theorem selectBindsOrUnbinds : Obligations.SelectBindsOrUnbinds := by
  intro k s
  refine ⟨exec_select_valid, fun h hk => ?invalid, fun h hn => ?status,
    fun hb hi => exec_notInit rfl hb hi, exec_busy _⟩
  case invalid =>
    refine ⟨_, exec_select_invalid h hk, rfl, ?_⟩
    exact ⟨exec_trig_unbound h rfl, exec_xfer_unbound h rfl⟩
  case status =>
    refine ⟨_, exec_select_valid h hn, rfl, ?_⟩
    simp [State.statusWord_binding, slaveSel]

/-! ## O14: DEINIT -/

/-- Settles O14: DEINIT leaves OFF, which is not BUSY, with INIT = 0. -/
theorem deinitReleasesTheBus : Obligations.DeinitReleasesTheBus := by
  intro s
  refine ⟨fun h => ⟨_, exec_ready _ h, rfl, fun i hnop hinit => ?after,
    fun hd hc hsel hcav => ?status⟩,
    fun hb hi => exec_notInit rfl hb hi, exec_busy _⟩
  case after => exact exec_notInit ((needsInit_iff i).mpr ⟨hnop, hinit⟩) rfl rfl
  case status =>
    have hcs : (bodyOf .deinit (s.setLastcmd (encode .deinit))).csactBits = 0 :=
      State.csactBits_of_high hc
    rw [State.statusWord, hcs]
    simp [bodyOf, State.deinitBody, State.busy, ErrCode.code, Phase.code, hd, hsel, hcav]

end Sys2Proof.Machine

/-! PROOFS. O15, O16: the accept steps of XFER and SENDRECV. -/

namespace Sys2Proof.Machine

variable {s : State} {k n : Nat}

/-! ## The length check -/

/-- R287: a length that fits the buffer starts the transfer. -/
theorem State.checkedStart_fits (h : n ≤ s.par.rxDepth) (d : Bool) :
    s.checkedStart d n = s.startXfer d n := if_pos ((s.lengthValid_iff n).mpr h)

theorem State.checkedStart_tooLong (h : s.par.rxDepth < n) (d : Bool) :
    s.checkedStart d n = s.setErr .invalidLength :=
  if_neg fun hn => absurd ((s.lengthValid_iff n).mp hn) (Nat.not_le.mpr h)

/-! ## XFER -/

/-- R220: with a binding XFER is the length check. -/
theorem exec_xfer_bound (h : s.ready) (hv : s.selv = true) (d : Bool) (n : Nat) :
    exec (.xfer d n) s = .next ((s.setLastcmd (encode (.xfer d n))).checkedStart d n) :=
  (exec_ready _ h).trans (congrArg Host.Outcome.next (if_pos hv))

theorem exec_xfer_start (h : s.ready) (hv : s.selv = true) (hn : n ≤ s.par.rxDepth) (d : Bool) :
    exec (.xfer d n) s = .next ((s.setLastcmd (encode (.xfer d n))).startXfer d n) := by
  rw [exec_xfer_bound h hv, State.checkedStart_fits]
  exact hn

/-- Settles O15: with a binding XFER is the length check, and without one it only reports. -/
theorem xferStartsOrReports : Obligations.XferStartsOrReports := by
  intro d n s
  refine ⟨fun h hv hn => exec_xfer_start h hv hn d, fun h hv => exec_xfer_unbound h hv d n,
    fun h hv hn => ?tooLong, exec_busy _⟩
  case tooLong =>
    rw [exec_xfer_bound h hv, State.checkedStart_tooLong]
    · rfl
    · exact hn

/-! ## SENDRECV -/

/-- R221: SENDRECV to a wired slave binds it and then checks the length. -/
theorem exec_sendrecv_wired (h : s.ready) (hk : k < s.par.numSlaves) (d : Bool) (n : Nat) :
    exec (.sendrecv k d n) s = .next
      (((s.setLastcmd (encode (.sendrecv k d n))).bindSel (slaveSel k)).checkedStart d n) :=
  (exec_ready _ h).trans (congrArg Host.Outcome.next (if_pos ((s.slaveValid_iff k).mpr hk)))

theorem exec_sendrecv_notWired (h : s.ready) (hk : s.par.numSlaves ≤ k) (d : Bool) (n : Nat) :
    exec (.sendrecv k d n) s = .next
      ((s.setLastcmd (encode (.sendrecv k d n))).unbindSel.setErr .invalidSlaveSelection) :=
  (exec_ready _ h).trans (congrArg Host.Outcome.next
    (if_neg fun hv => absurd ((s.slaveValid_iff k).mp hv) (Nat.not_lt.mpr hk)))

/-- Settles O16: the binding is written before the length check, which therefore leaves it in place. -/
theorem sendrecvBindsThenStarts : Obligations.SendrecvBindsThenStarts := by
  intro k d n s
  refine ⟨fun h hk hn => ?start, fun h hk hn => ?tooLong,
    fun h hk => exec_sendrecv_notWired h hk d n, exec_busy _⟩
  case start =>
    rw [exec_sendrecv_wired h hk, State.checkedStart_fits]
    · rfl
    · exact hn
  case tooLong =>
    rw [exec_sendrecv_wired h hk, State.checkedStart_tooLong]
    · rfl
    · exact hn

end Sys2Proof.Machine

/-! PROOFS. O20, O22, O23, O58: the shifting phases, the direction switch between them, and the abort
path that ends an expired one. -/

namespace Sys2Proof.Machine

variable {s : State}

/-! ## Completion, expiry, one edge -/

/-- Before the limit the watchdog has not expired (R148). -/
theorem State.expired_eq_false (h : s.elapsed s.pstart < s.plimit.toNat) : s.expired = false :=
  decide_eq_false (Nat.not_le.mpr h)

theorem State.busy_of_wordDue (hw : s.wordDue) : s.busy = true := by
  rcases hw with ⟨hp, -⟩ | ⟨hp, -⟩ <;> simp [State.busy, hp]

/-- R291: with a word still due, an expired watchdog sends both shifting phases to the abort path. -/
theorem stepController_expired (hw : s.wordDue) (he : s.expired = true) :
    stepController s = .next (s.abortXfer .peripheralTimeout) := by
  rcases hw with ⟨hp, hw⟩ | ⟨hp, hw⟩
  · rw [stepController_xTx s hp, stepXTx_expired hw he]
  · rw [stepController_xRx s hp, stepXRx_expired hw he]

/-- Settles O20: the three branches of X_TX, completion tested first (R294). -/
theorem xTxCompletesExpiresOrShifts : Obligations.XTxCompletesExpiresOrShifts := by
  intro s hp
  refine ⟨fun hw => ?complete, fun hw he => ?expired, fun hw he => ?edge⟩
  case complete => rw [stepController_xTx s hp, stepXTx_complete s hw]; rfl
  case expired => exact stepController_expired (.inl ⟨hp, hw⟩) (s.expired_iff.mpr he)
  case edge => rw [stepController_xTx s hp, stepXTx_edge hw (State.expired_eq_false he)]

/-- Settles O22: DirToRx and ArmWatchdog are updates of fields that X_DIRSW writes once. -/
theorem xDirswSwitchesToReceive : Obligations.XDirswSwitchesToReceive := by
  intro s hp
  rw [stepController_xDirsw s hp]
  rfl

/-- Settles O23: the three branches of X_RX, completion tested first (R294). -/
theorem xRxCompletesExpiresOrShifts : Obligations.XRxCompletesExpiresOrShifts := by
  intro s hp
  refine ⟨fun hw => ?complete, fun hw he => ?expired, fun hw he => ?edge⟩
  case complete => rw [stepController_xRx s hp, stepXRx_complete s hw]
  case expired => exact stepController_expired (.inr ⟨hp, hw⟩) (s.expired_iff.mpr he)
  case edge => rw [stepController_xRx s hp, stepXRx_edge hw (State.expired_eq_false he)]

/-! ## O58: the abort path -/

/-- X_RELEASE and X_RESTORE end a command with the pending result (R227, R228). -/
theorem run_release {a b : Turn} {rest : List Turn} (hp : s.phase = .xRelease)
    (ha : s.agenda = a :: b :: rest) (hca : a.agent = .controller) (hcb : b.agent = .controller) :
    ∃ t : State, Host.Core.run core 2 s = .next t ∧ t.phase = .idle ∧ t.err = s.perr ∧
      t.rxcnt = s.rxcnt ∧ t.rxbuf = s.rxbuf := by
  let u := stepXRelease (s.consume a (b :: rest))
  have hs : stepController (s.consume a (b :: rest)) = .next u :=
    stepController_xRelease (s.consume a (b :: rest)) hp
  have hub : u.agenda = b :: rest := rfl
  have hu : stepController (u.consume b rest) = .next (stepXRestore (u.consume b rest)) :=
    stepController_xRestore (u.consume b rest) rfl
  refine ⟨stepXRestore (u.consume b rest), ?_, rfl, ?_⟩
  · rw [run_controller 1 ha hca hs, run_controller 0 hub hcb hu]
    rfl
  · simp [u, stepXRestore, stepXRelease, State.csDeassert, State.consume]

/-- With a word due and the watchdog expired, three controller turns take the abort path to IDLE. -/
theorem run_abort {a b c : Turn} {rest : List Turn} (hw : s.wordDue) (he : s.expired = true)
    (ha : s.agenda = a :: b :: c :: rest) (hc : allController [a, b, c]) :
    ∃ t : State, Host.Core.run core 3 s = .next t ∧ t.phase = .idle ∧ t.err = .peripheralTimeout ∧
      t.rxcnt = 0 ∧ t.rxbuf = s.rxbuf := by
  let u : State := (s.consume a (b :: c :: rest)).abortXfer .peripheralTimeout
  have hs : stepController (s.consume a (b :: c :: rest)) = .next u :=
    stepController_expired (s := s.consume a (b :: c :: rest)) hw he
  obtain ⟨t, ht, hfields⟩ := run_release (s := u) rfl rfl (hc b (by simp)) (hc c (by simp))
  exact ⟨t, (run_controller 2 ha (hc a (by simp)) hs).trans ht, hfields⟩

/-- Settles O58: `run_abort` gives the result; the invariants at the end give the safe idle state and
SCK, and `run_held` the binding, INIT and the turns left, with which the next XFER starts. -/
theorem timeoutAbortsAndRecovers : Obligations.TimeoutAbortsAndRecovers := by
  intro s t1 t2 t3 rest h ha hc hp hlimit
  have hw : s.wordDue := hp.imp (.imp_right Nat.ne_of_lt)
    (.imp_right fun hlt heq => absurd (congrArg BitVec.toNat heq) hlt.ne)
  obtain ⟨hinit, hselv, -⟩ := h.i4 (State.busy_of_wordDue hw)
  obtain ⟨t, ht, htp, hterr, htrxcnt, htbuf⟩ := run_abort hw (s.expired_iff.mpr hlimit) ha hc
  have htinv := run_keeps_inv _ h ht
  have hheld : t.held = ({ s with agenda := rest } : State).held :=
    run_held (ts := [t1, t2, t3]) ha (fun a ha => .inl (hc a ha)) ht
  have htpar : t.par = s.par := congrArg Held.par hheld
  have htselv : t.selv = true := (congrArg Held.selv hheld).trans hselv
  have htbusy : t.busy = false := t.busy_false_iff.mpr (.inr htp)
  have htready : t.ready := ⟨htbusy, (congrArg Held.init hheld).trans hinit⟩
  refine ⟨t, ht, htinv.safeIdle htp, congrArg Held.agenda hheld, hterr, htrxcnt, htselv,
    congrArg Held.sel hheld, htpar ▸ (htinv.atRest htbusy).sck, htbuf, fun d n hn => ?next⟩
  case next => exact ⟨_, exec_xfer_start htready htselv (htpar ▸ hn) d, rfl, rfl⟩

end Sys2Proof.Machine

/-! PROOFS. O17, O59: the accept step of TRIG, and a started trigger run to its end. -/

namespace Sys2Proof.Machine

variable {s : State}

/-! ## O17: the accept step -/

/-- R260: TRIG with a binding. -/
theorem exec_trig_bound (h : s.ready) (hv : s.selv = true) :
    exec .trig s = .next (((s.setLastcmd 0x00000005).setErr .ok).setPhase .tStart) :=
  (exec_ready _ h).trans (congrArg Host.Outcome.next (if_pos hv))

/-- Settles O17: with a binding TRIG starts, and without one it only reports. -/
theorem trigStartsOnTheBinding : Obligations.TrigStartsOnTheBinding := fun _ =>
  ⟨exec_trig_bound, exec_trig_unbound, exec_busy .trig⟩

/-! ## O59: the run -/

/-- `s` at the start of the hold, after the turn `b` of T_ASSERT (R261, R262). -/
def State.trigHold (s : State) (b : Turn) (rest : List Turn) : State :=
  { s with
    agenda := rest
    inp := b.inp
    ovr := true
    csn := ~~~(BitVec.twoPow 4 s.sel.toNat)
    grace := BitVec.ofNat 32 (graceCycles b.inp.clkf.toNat)
    wstart := s.cyccnt
    phase := .tHold }

/-- `s` at the end of a trigger, after the turn `c` of T_END (R264, R265). -/
def State.trigDone (s : State) (c : Turn) (rest : List Turn) : State :=
  { s with
    agenda := rest
    inp := c.inp
    csn := s.csn ||| BitVec.twoPow 4 s.sel.toNat
    ovr := false
    err := .ok
    phase := .idle }

/-- T_START and T_ASSERT on an idle bus lead to the hold. -/
theorem run_trigHold {a b : Turn} {rest : List Turn} (n : Nat) (hp : s.phase = .tStart)
    (hcsn : s.csn = 0b1111) (hn : s.sel.toNat < s.par.numSlaves) (ha : s.agenda = a :: b :: rest)
    (hca : a.agent = .controller) (hcb : b.agent = .controller) :
    Host.Core.run core (n + 2) s = Host.Core.run core n (s.trigHold b rest) := by
  let u : State := { s.consume a (b :: rest) with ovr := true, phase := .tAssert }
  obtain ⟨hstart, -⟩ := triggerPhaseSteps (s.consume a (b :: rest))
  obtain ⟨-, hassert, -⟩ := triggerPhaseSteps (u.consume b rest)
  have hub : u.agenda = b :: rest := rfl
  rw [run_controller (n + 1) ha hca (hstart hp), run_controller n hub hcb (hassert rfl hcsn hn)]
  rfl

/-- From a hold that is done, T_RELEASE and T_END lead to IDLE. -/
theorem run_trigDone {a b c : Turn} {rest : List Turn} (hp : s.phase = .tHold)
    (hd : s.graceDone = true) (hn : s.sel.toNat < s.par.numSlaves)
    (ha : s.agenda = a :: b :: c :: rest) (hc : allController [a, b, c]) :
    Host.Core.run core 3 s = .next (s.trigDone c rest) := by
  let u : State := (s.consume a (b :: c :: rest)).setPhase .tRelease
  let v : State := { u.consume b (c :: rest) with
    csn := u.csn ||| BitVec.twoPow 4 u.sel.toNat, phase := .tEnd }
  have hhold : stepController (s.consume a (b :: c :: rest)) = .next u :=
    stepController_tHold (s := s.consume a (b :: c :: rest)) hp hd
  obtain ⟨-, -, hrelease, -⟩ := triggerPhaseSteps (u.consume b (c :: rest))
  have hv : stepController (u.consume b (c :: rest)) = .next v := hrelease rfl hn
  obtain ⟨-, -, -, hend⟩ := triggerPhaseSteps (v.consume c rest)
  have hub : u.agenda = b :: c :: rest := rfl
  have hvc : v.agenda = c :: rest := rfl
  rw [run_controller 2 ha (hc a (by simp)) hhold,
    run_controller 1 hub (hc b (by simp)) hv,
    run_controller 0 hvc (hc c (by simp)) (hend rfl)]
  rfl

/-- Settles O59: `run_trigHold`, `run_ticks` and `run_trigDone` one after the other. `State.trigHold`
and `State.trigDone` name what the trigger writes; the invariants say that its end is the safe idle
state. -/
theorem triggerRunsToItsEnd : Obligations.TriggerRunsToItsEnd := by
  intro s t1 t2 t3 t4 t5 ticks rest h hp hc htick hticklen ha
  have hrun := h.runningIn hp
  have hcsn : s.csn = 0b1111 := by rw [hrun.csn, hp]; rfl
  let u : State := s.trigHold t2 (ticks ++ t3 :: t4 :: t5 :: rest)
  have hu : Host.Core.run core 2 s = .next u :=
    run_trigHold 0 hp hcsn hrun.wired ha (hc t1 (by simp)) (hc t2 (by simp))
  have hgrace : u.grace.toNat = graceCycles t2.inp.clkf.toNat :=
    (s.consume t2 rest).graceBegin_grace_toNat
  obtain ⟨inp, hticks⟩ := run_ticks (s := u) rfl htick hrun.cntEn
  let v : State := { u with
    agenda := t3 :: t4 :: t5 :: rest, inp := inp, cyccnt := u.cyccnt + BitVec.ofNat 32 ticks.length }
  have hv : Host.Core.run core (2 + ticks.length) s = .next v := (run_add _ _ hu).trans hticks
  have hvdone : v.graceDone = true := State.graceDone_of_ticks (hgrace.trans hticklen.symm) rfl
  have ht : Host.Core.run core (5 + ticks.length) s = .next (v.trigDone t5 rest) := by
    rw [show 5 + ticks.length = 2 + ticks.length + 3 by omega, run_add _ _ hv]
    exact run_trigDone rfl hvdone hrun.wired rfl fun a hmem => hc a (.tail _ (.tail _ hmem))
  have htinv := run_keeps_inv _ h ht
  exact ⟨⟨v, hv, rfl, rfl, rfl, rfl⟩,
    _, ht, htinv.safeIdle rfl, rfl, rfl, hgrace, rfl, rfl, rfl, rfl⟩

end Sys2Proof.Machine

/-! PROOFS. O9, O10: the result code of an accepted word. -/

namespace Sys2Proof.Machine

variable {s : State}

/-! ## O9: before INIT -/

/-- Settles O9: NOP and INIT are the commands that need no INIT. -/
theorem commandsBeforeInitReportNotInitialized :
    Obligations.CommandsBeforeInitReportNotInitialized := fun i _ hnop hinit =>
  exec_notInit ((needsInit_iff i).mpr ⟨hnop, hinit⟩)

/-! ## O10: the result code of a command's body -/

/-- R287: the length check. -/
theorem State.checkedStart_err (s : State) (d : Bool) (n : Nat) :
    (s.checkedStart d n).err = if s.par.rxDepth < n then .invalidLength else .ok := by
  split
  case isTrue h => rw [State.checkedStart_tooLong h, State.setErr_err]
  case isFalse h => rw [State.checkedStart_fits (Nat.not_lt.mp h)]; rfl

theorem State.initBody_err (s : State) :
    s.initBody.err = if s.inp.startOk then .ok else .initializationFailure := by
  rw [State.initBody_eq]; split <;> rfl

theorem State.selectBody_err (k : Nat) (s : State) :
    (State.selectBody k s).err =
      if s.par.numSlaves ≤ k then .invalidSlaveSelection else .ok := by
  split
  case isTrue h => rw [State.selectBody_invalid h, State.setErr_err]
  case isFalse h => rw [State.selectBody_valid (Nat.not_le.mp h), State.setErr_err]

theorem State.xferBody_err (d : Bool) (n : Nat) (s : State) :
    (State.xferBody d n s).err =
      if s.selv = false then .invalidSlaveSelection
      else if s.par.rxDepth < n then .invalidLength else .ok := by
  split
  case isTrue h => rw [State.xferBody_unbound h, State.setErr_err]
  case isFalse h => rw [State.xferBody, if_pos (by simpa using h), State.checkedStart_err]

theorem State.sendrecvBody_err (k : Nat) (d : Bool) (n : Nat) (s : State) :
    (State.sendrecvBody k d n s).err =
      if s.par.numSlaves ≤ k then .invalidSlaveSelection
      else if s.par.rxDepth < n then .invalidLength else .ok := by
  have hwired := s.slaveValid_iff k
  split
  case isTrue h =>
    rw [State.sendrecvBody, if_neg (mt hwired.mp (Nat.not_lt.mpr h)), State.setErr_err]
  case isFalse h =>
    rw [State.sendrecvBody, if_pos (hwired.mpr (Nat.not_le.mp h)), State.checkedStart_err,
      State.bindSel_par]

theorem State.trigBody_err (s : State) :
    s.trigBody.err = if s.selv = false then .invalidSlaveSelection else .ok := by
  split
  case isTrue h => rw [State.trigBody_unbound h, State.setErr_err]
  case isFalse h => rw [State.trigBody, if_pos (by simpa using h)]; rfl

/-- R290, items 3 to 5: the result code of a command past the INIT check. -/
def State.commandErr (s : State) : Instr → ErrCode
  | .nop | .deinit => .ok
  | .init => if s.inp.startOk then .ok else .initializationFailure
  | .select k => if s.par.numSlaves ≤ k then .invalidSlaveSelection else .ok
  | .xfer _ n =>
    if s.selv = false then .invalidSlaveSelection
    else if s.par.rxDepth < n then .invalidLength else .ok
  | .sendrecv k _ n =>
    if s.par.numSlaves ≤ k then .invalidSlaveSelection
    else if s.par.rxDepth < n then .invalidLength else .ok
  | .trig => if s.selv = false then .invalidSlaveSelection else .ok

@[simp] theorem State.commandErr_setLastcmd (w : Word) (i : Instr) :
    (s.setLastcmd w).commandErr i = s.commandErr i := by
  cases i <;> rfl

theorem bodyOf_err (i : Instr) (s : State) : (bodyOf i s).err = s.commandErr i := by
  cases i with
  | nop | deinit => rfl
  | init => exact s.initBody_err
  | select k => exact State.selectBody_err k s
  | xfer d n => exact State.xferBody_err d n s
  | sendrecv k d n => exact State.sendrecvBody_err k d n s
  | trig => exact s.trigBody_err

/-! ## O10: the INIT check and the illegal word come first -/

/-- R285, R290: an accepted command fails the INIT check or takes its body's result code. -/
theorem exec_err {i : Instr} {t : State} (hb : s.busy = false) (h : exec i s = .next t) :
    t.err = if i ≠ .nop ∧ i ≠ .init ∧ s.init = false then .notInitialized
      else s.commandErr i := by
  split
  case isTrue hn =>
    obtain ⟨hnop, hinit, hoff⟩ := hn
    rw [exec_notInit ((needsInit_iff i).mpr ⟨hnop, hinit⟩) hb hoff] at h
    cases h; rfl
  case isFalse hn =>
    have hready (hneeds : needsInit i = true) : s.init = true := by
      obtain ⟨hnop, hinit⟩ := (needsInit_iff i).mp hneeds
      simpa [hnop, hinit] using hn
    rw [exec_run hb hready] at h
    cases h
    rw [bodyOf_err, State.commandErr_setLastcmd]

/-- Settles O10: an illegal word only reports, and a legal word is its command. -/
theorem firstConditionWins : Obligations.FirstConditionWins := by
  intro v s t hb h
  cases hd : decode v with
  | illegal why =>
    rw [acceptWord_illegal ⟨why, hd⟩ hb] at h
    cases h; rfl
  | legal i =>
    rw [acceptWord_legal hd] at h
    refine (exec_err hb h).trans ?_
    cases i <;> rfl

end Sys2Proof.Machine

/-! PROOFS. O47, O50: what the host sees after reset, and that the invariants leave no second chip-select
to refuse. -/

namespace Sys2Proof.Machine

variable {s : State}

/-! ## O47: the outputs, STATUS and PARAM after reset -/

/-- R54 at the values of R59: every driver is off and no trigger pattern overrides. -/
theorem State.HasResetValues.pins (h : s.HasResetValues) :
    (∀ k, k < s.par.numSlaves → s.pinCsN k = some .z) ∧ s.pinSck = .z ∧ s.pinSdio = .z := by
  obtain ⟨hcs, -, -, -, -, hsck, -, hsdio, -⟩ := pinsFollowTheState s
  exact ⟨fun k hk => hcs k hk h.csDrv, hsck h.ovr h.sckDrv, hsdio h.ovr h.doe⟩

/-- Settles O47: the pins' rows of R54, STATUS at reset (`State.HasResetValues.statusWord`), and PARAM of
the parameters. -/
theorem noOutputIsDrivenAfterReset : Obligations.NoOutputIsDrivenAfterReset := by
  refine ⟨fun s h => ?_, paramFields.2⟩
  obtain ⟨hcs, hsck, hsdio⟩ := h.pins
  obtain ⟨-, hstatus, -, -, -, -, -, -, -, hparam, -⟩ := readsReturnTheRegisters s
  exact ⟨hcs, hsck, hsdio, hstatus.trans h.statusWord, hparam⟩

/-! ## O50: which steps refuse -/

/-- R96: the host's step refuses only an access of another width or at no multiple of 4. -/
theorem stepHost_refused {a : HostAccess} {r : Refusal} (h : stepHost a s = .refused r) :
    r = .accessWidth ∨ r = .accessAlignment := by
  unfold stepHost at h
  split at h
  · cases h
  · next off _ =>
    split_ifs at h
    · cases h; exact .inl rfl
    · cases h; exact .inr rfl
    · split at h
      · cases h
      · next v _ =>
        obtain ⟨t, ht⟩ := writeReg_answers (regAt s.par off) v s
        rw [hostWrite, ht] at h
        cases h

/-- With no other line asserted CsAssert answers, and no other part of the controller's step refuses. -/
theorem stepController_answers (h : s.otherSelected = false) : ∃ t, stepController s = .next t := by
  cases hp : s.phase
  case xStart => exact ⟨_, (stepController_xStart s hp).trans (stepXStart_of_none h)⟩
  case tAssert => exact ⟨_, (stepController_tAssert s hp).trans (stepTAssert_of_none h)⟩
  all_goals
    simp only [stepController, hp]
    exact ⟨_, rfl⟩

/-- Settles O50: the host refuses for other reasons, and under the invariants the controller never
refuses; taking the turn keeps them. -/
theorem secondChipSelectIsUnreachable : Obligations.SecondChipSelectIsUnreachable := by
  intro s h hs
  rw [step] at hs
  cases ha : s.nextTurn.agent with
  | host a =>
    rw [ha] at hs
    rcases stepHost_refused hs with hr | hr <;> cases hr
  | controller =>
    obtain ⟨t, ht⟩ := stepController_answers h.takeTurn.no_other_selected
    rw [ha, stepAgent, ht] at hs
    cases hs
  | counter | environment | reset => rw [ha] at hs; cases hs

end Sys2Proof.Machine
